-- ==== Sys2Proof/Word.lean ====
section
/-! DEFINITION. The words of VOICE-DSP: bytes, 32- and 64-bit port words, and the binary32 value type.
Operations on them that a test could show wrong stand in Sys2Proof/Machine/Float.lean. -/

namespace Sys2Proof

/-- One byte of a port transfer (20_memory.md R52). -/
abbrev Byte := BitVec 8

/-- A response word (30_encoding.md R77), or the bit pattern of a binary32 value. -/
abbrev Word32 := BitVec 32

/-- A command word (30_encoding.md R70). -/
abbrev Word64 := BitVec 64

/-- The spec's `f32`: an IEEE 754 binary32 datum (00_scope.md R6, R7).
`fin` has a sign, a biased exponent 0..254 (0 for zeros and subnormals) and 23 fraction bits, so every non-NaN bit
pattern is exactly one datum, and +0 and -0 are two. All NaNs are one datum: a NaN's payload is a draw made where it
becomes visible, in the response word (00_scope.md R9; log 1). -/
inductive F32 where
  | nan
  | inf (neg : Bool)
  | fin (neg : Bool) (exp : Fin 255) (frac : BitVec 23)
  deriving DecidableEq, Repr, Inhabited

end Sys2Proof
end

