-- ==== Sys2Proof/Config.lean ====
section
/-! DEFINITION. The configuration of the block (00_scope.md R5): fixed counts, parameters, configuration functions and
the constants behind the free values. Default parameter values and the properties of the configuration functions stand
in Sys2Proof/Machine/Defaults.lean and Sys2Proof/Machine/ConfigFunctions.lean. -/

namespace Sys2Proof

/-- N_HARM (00_scope.md R5). -/
abbrev nHarm : Nat := 64

/-- N_OP (00_scope.md R5). -/
abbrev nOp : Nat := 6

/-- N_SLOT (00_scope.md R5). -/
abbrev nSlot : Nat := 128

/-- P_FILTER_COS_ARG (00_scope.md R5, 45_filter.md R203). -/
inductive CosArg where
  | alpha
  | w0
  deriving DecidableEq, Repr

/-- P_NEW_VOICE_INIT (00_scope.md R5, 70_reset_and_hazards.md R331). -/
inductive NewVoiceInit where
  | defaults
  | current
  deriving DecidableEq, Repr

/-- P_MIX_DIVISOR (00_scope.md R5, 47_commands.md R243). -/
inductive MixDivisor where
  | total
  | active
  deriving DecidableEq, Repr

/-- The settable part of one harmonic: amplitude and enable bit (00_scope.md R5 P_HARM_INIT, 10_state.md R31). -/
structure HarmParam where
  amp : F32
  en : Bool
  deriving DecidableEq, Repr

/-- Every row of 00_scope.md R5 marked "parameter" that is plain data. -/
structure Params where
  /-- SR, in Hz. -/
  sr : F32
  /-- P_DEFAULT_DECAY, in seconds. -/
  defaultDecay : F32
  /-- P_DEFAULT_SUSTAIN. -/
  defaultSustain : F32
  /-- P_DEFAULT_RELEASE, in seconds. -/
  defaultRelease : F32
  /-- P_DEFAULT_CUTOFF, in Hz, before clamping. -/
  defaultCutoff : F32
  /-- P_DEFAULT_RESONANCE. -/
  defaultResonance : F32
  /-- P_DEFAULT_VOLUME. -/
  defaultVolume : F32
  /-- P_HARM_INIT. -/
  harmInit : Vector HarmParam nHarm
  /-- P_FILTER_COS_ARG. -/
  cosArg : CosArg
  /-- P_SHORT_CIRCUIT. -/
  shortCircuit : Bool
  /-- P_NEW_VOICE_INIT. -/
  newVoiceInit : NewVoiceInit
  /-- P_MIX_DIVISOR. -/
  mixDivisor : MixDivisor
  deriving DecidableEq, Repr

/-- The whole configuration, as the argument the micro-operations take (00_scope.md R5, R8): the parameters and the
three configuration functions. It is never stored in State: State holds `Params` only. -/
structure Config extends Params where
  sin32 : F32 → F32
  cos32 : F32 → F32
  exp2_32 : F32 → F32

/-- Free: binary32 sine on the arguments where 00_scope.md R8 assumes nothing (log 3). -/
opaque Config.sinFree : F32 → F32

/-- Free: binary32 cosine on the arguments where 00_scope.md R8 assumes nothing (log 3). -/
opaque Config.cosFree : F32 → F32

/-- Free: binary32 power of two on the arguments where 00_scope.md R8 assumes nothing (log 3). -/
opaque Config.exp2Free : F32 → F32

/-- Free: the draw behind the mix order (00_scope.md R5, 47_commands.md R243; log 8). The first argument is State's
`draws` counter, the second the number of voices still to be placed. -/
opaque Config.mixDraw : Nat → Nat → Nat

/-- Free: sign and the 22 payload bits of a NaN response word (00_scope.md R9; log 1, log 9). The argument is State's
`draws` counter. -/
opaque Config.nanDraw : Nat → BitVec 23

end Sys2Proof
end

