-- ==== Sys2Proof/Machine/Float.lean ====
section
/-! DEFINITION. IEEE 754 binary32 on the value type F32 (00_scope.md R6, R7, R9, R11): bit patterns, the four
operations with roundTiesToEven, comparisons, the remainder by 1 and the conversion of small integers.
Every finite magnitude is a natural multiple of 2^-149, the smallest subnormal; an operation computes its exact result
as a fraction of that unit and rounds once (log 16). -/

namespace Sys2Proof.F32

/-- The zero of the given sign. -/
def zero (neg : Bool) : F32 := .fin neg 0 0

/-- The datum with sign `neg` and magnitude bits `m` (exponent field above fraction field). From the exponent field 255
on it is the infinity of that sign, the overflow result of roundTiesToEven. -/
def ofMag (neg : Bool) (m : Nat) : F32 :=
  if h : m / 2 ^ 23 < 255 then .fin neg ⟨m / 2 ^ 23, h⟩ (BitVec.ofNat 23 m) else .inf neg

/-- `f32bits(w)` (00_scope.md R11): bit 31 is the sign, bits 30:23 the exponent field, bits 22:0 the fraction. -/
def ofBits (w : Word32) : F32 :=
  let e := (w.extractLsb' 23 8).toNat
  let f := w.extractLsb' 0 23
  if h : e < 255 then .fin w.msb ⟨e, h⟩ f
  else if f = 0 then .inf w.msb
  else .nan

/-- `bits32(x)` (00_scope.md R11). A NaN is quiet, with the sign and payload bits drawn in `d` (00_scope.md R9). -/
def toBits (d : BitVec 23) : F32 → Word32
  | .nan => BitVec.ofBool d.msb ++ (0xFF#8 ++ (1#1 ++ d.extractLsb' 0 22))
  | .inf neg => BitVec.ofBool neg ++ (0xFF#8 ++ 0#23)
  | .fin neg exp frac => BitVec.ofBool neg ++ (BitVec.ofNat 8 exp.val ++ frac)

/-- Neither NaN nor infinite (30_encoding.md R73). -/
def isFinite : F32 → Bool
  | .fin _ _ _ => true
  | _ => false

/-- The magnitude of a finite datum in units of 2^-149. -/
def units (exp : Fin 255) (frac : BitVec 23) : Nat :=
  if exp.val = 0 then frac.toNat else (2 ^ 23 + frac.toNat) * 2 ^ (exp.val - 1)

/-- `m` with the sign `neg`. -/
def signed (neg : Bool) (m : Nat) : Int := if neg then -(m : Int) else m

/-- roundTiesToEven (00_scope.md R7) of the exact magnitude `p / q` units of 2^-149, with the sign `neg`; `q > 0`.
`k` is chosen so that the kept integer has at most 24 bits. -/
def round (neg : Bool) (p q : Nat) : F32 :=
  let k := Nat.log2 (p / q) - 23
  let d := q * 2 ^ k
  let m := p / d
  let r := p % d
  ofMag neg (k * 2 ^ 23 + if d < 2 * r ∨ (2 * r = d ∧ m % 2 = 1) then m + 1 else m)

/-- Exact result `n` units of 2^-149, not zero or with the sign of zero given by `negZero`. -/
def roundInt (negZero : Bool) (n : Int) : F32 :=
  if n = 0 then zero negZero else round (decide (n < 0)) n.natAbs 1

/-- Sign change; exact (00_scope.md R7). -/
def neg : F32 → F32
  | .nan => .nan
  | .inf s => .inf (!s)
  | .fin s e f => .fin (!s) e f

/-- Addition (00_scope.md R7). An exact zero sum is +0 unless both operands are negative zeros. -/
def add : F32 → F32 → F32
  | .nan, _ => .nan
  | .inf _, .nan => .nan
  | .inf a, .inf b => if a = b then .inf a else .nan
  | .inf a, .fin _ _ _ => .inf a
  | .fin _ _ _, .nan => .nan
  | .fin _ _ _, .inf b => .inf b
  | .fin sa ea fa, .fin sb eb fb => roundInt (sa && sb) (signed sa (units ea fa) + signed sb (units eb fb))

/-- Subtraction (00_scope.md R7): the sum with the negated operand. -/
def sub (x y : F32) : F32 := add x (neg y)

/-- Multiplication (00_scope.md R7). -/
def mul : F32 → F32 → F32
  | .nan, _ => .nan
  | .inf _, .nan => .nan
  | .inf a, .inf b => .inf (a ^^ b)
  | .inf a, .fin sb eb fb => if units eb fb = 0 then .nan else .inf (a ^^ sb)
  | .fin _ _ _, .nan => .nan
  | .fin sa ea fa, .inf b => if units ea fa = 0 then .nan else .inf (sa ^^ b)
  | .fin sa ea fa, .fin sb eb fb => round (sa ^^ sb) (units ea fa * units eb fb) (2 ^ 149)

/-- Division (00_scope.md R7): x / 0 is infinite, 0 / 0 and inf / inf are NaN. -/
def div : F32 → F32 → F32
  | .nan, _ => .nan
  | .inf _, .nan => .nan
  | .inf _, .inf _ => .nan
  | .inf a, .fin sb _ _ => .inf (a ^^ sb)
  | .fin _ _ _, .nan => .nan
  | .fin sa _ _, .inf b => zero (sa ^^ b)
  | .fin sa ea fa, .fin sb eb fb =>
    if units eb fb = 0 then (if units ea fa = 0 then .nan else .inf (sa ^^ sb))
    else round (sa ^^ sb) (units ea fa * 2 ^ 149) (units eb fb)

/-- 2^128 in units of 2^-149: the first power of two beyond every finite value. -/
def infUnits : Nat := 2 ^ 23 * 2 ^ 254

/-- The place of a datum on the extended number line, in units of 2^-149; none for NaN. The infinities stand at
plus and minus 2^128, beyond every finite value. -/
def rank : F32 → Option Int
  | .nan => none
  | .inf s => some (signed s infUnits)
  | .fin s e f => some (signed s (units e f))

/-- `x < y` (00_scope.md R7): false when an operand is NaN. -/
def lt (x y : F32) : Bool :=
  match x.rank, y.rank with
  | some a, some b => decide (a < b)
  | _, _ => false

/-- `x <= y` (00_scope.md R7): false when an operand is NaN, and +0 = -0. -/
def le (x y : F32) : Bool :=
  match x.rank, y.rank with
  | some a, some b => decide (a ≤ b)
  | _, _ => false

/-- `fmod(p, 1.0)` of 40_oscillator.md R104: the exact remainder toward zero, with the sign of p. -/
def fmodOne : F32 → F32
  | .nan => .nan
  | .inf _ => .nan
  | .fin s e f => round s (units e f % 2 ^ 149) 1

/-- `f32(k)` (00_scope.md R7): exact for |k| <= 2^24. -/
def ofInt (k : Int) : F32 := round (decide (k < 0)) (k.natAbs * 2 ^ 149) 1

/-! Constants of the rules, by bit pattern or as `f32(k)`. -/

def posZero : F32 := zero false
def one : F32 := ofBits 0x3F800000#32
def two : F32 := ofBits 0x40000000#32
def half : F32 := ofBits 0x3F000000#32

/-- TAU (00_scope.md R9). -/
def tau : F32 := ofBits 0x40C90FDB#32

/-- XMOD (00_scope.md R5). -/
def xmod : F32 := ofBits 0x3DCCCCCD#32

/-- A4_FREQ = 440.0 (00_scope.md R5). -/
def a4Freq : F32 := ofBits 0x43DC0000#32

/-- The lower cutoff bound 20.0 (45_filter.md R201). -/
def twenty : F32 := ofBits 0x41A00000#32

end Sys2Proof.F32
end

