-- ==== Sys2Proof/Machine/ConfigFunctions.lean ====
section
/-! DEFINITION. The configuration functions sin32, cos32 and exp2_32 (00_scope.md R8): exactly the properties the spec
assumes, and a free function everywhere else (log 3). -/

namespace Sys2Proof.Machine

/-- sin32 (00_scope.md R8): a zero is returned as it is, NaN and infinities give NaN, the rest is free. -/
def sin32 : F32 → F32
  | .nan => .nan
  | .inf _ => .nan
  | .fin s e f => if F32.units e f = 0 then .fin s e f else Config.sinFree (.fin s e f)

/-- cos32 (00_scope.md R8): 1.0 at both zeros, NaN and infinities give NaN, the rest is free. -/
def cos32 : F32 → F32
  | .nan => .nan
  | .inf _ => .nan
  | .fin s e f => if F32.units e f = 0 then F32.one else Config.cosFree (.fin s e f)

/-- The integer k with `x = f32(k)`, if there is one (00_scope.md R7, R8). -0 is not `f32(0)`, which is +0. -/
def intValue? : F32 → Option Int
  | .fin s e f =>
    let u := F32.units e f
    if u % 2 ^ 149 = 0 ∧ ¬ (u = 0 ∧ s = true) then some (F32.signed s (u / 2 ^ 149)) else none
  | _ => none

/-- exp2_32 (00_scope.md R8): exact 2^k at `f32(k)` for -126 <= k <= 127, NaN and infinities give NaN, the rest is
free. -/
def exp2_32 : F32 → F32
  | .nan => .nan
  | .inf _ => .nan
  | .fin s e f =>
    match intValue? (.fin s e f) with
    | some k =>
      if -126 ≤ k ∧ k ≤ 127 then F32.ofMag false ((k + 127).toNat * 2 ^ 23) else Config.exp2Free (.fin s e f)
    | none => Config.exp2Free (.fin s e f)

/-- The configuration with the parameters `p` (00_scope.md R5). -/
def configOf (p : Params) : Config := { p with sin32 := sin32, cos32 := cos32, exp2_32 := exp2_32 }

end Sys2Proof.Machine
end

