-- ==== Sys2Proof/Machine/Component.lean ====
section
/-! DEFINITION. The components of a voice slot as plain data (10_state.md R22-R31), with the spec's field names. -/

namespace Sys2Proof.Machine

/-- An oscillator (10_state.md R24). -/
structure Osc where
  phase : F32
  freq : F32
  amp : F32
  deriving DecidableEq, Repr

/-- One entry of the harmonic file (10_state.md R25). -/
structure Harm where
  mult : F32
  amp : F32
  en : Bool
  deriving DecidableEq, Repr

/-- The additive engine `add` (10_state.md R25). -/
structure Additive where
  harm : Vector Harm nHarm
  osc : Vector Osc nHarm
  deriving DecidableEq, Repr

/-- One entry of the operator file (10_state.md R26). -/
structure Operator where
  ratio : F32
  amp : F32
  fbk : F32
  en : Bool
  deriving DecidableEq, Repr

/-- The FM engine `fm` (10_state.md R26). -/
structure Fm where
  op : Vector Operator nOp
  osc : Vector Osc nOp
  fbuf : Vector F32 nOp
  base : F32
  deriving DecidableEq, Repr

/-- The envelope's stage (00_scope.md R6). -/
inductive Stage where
  | attack
  | decay
  | sustain
  | release
  | idle
  deriving DecidableEq, Repr

/-- The envelope generator `env` (10_state.md R28). -/
structure Env where
  A : F32
  D : F32
  S : F32
  R : F32
  stage : Stage
  elapsed : F32
  value : F32
  gate : Bool
  deriving DecidableEq, Repr

/-- The low-pass filter `flt` (10_state.md R29). -/
structure Flt where
  cutoff : F32
  q : F32
  buf0 : F32
  buf1 : F32
  deriving DecidableEq, Repr

/-- The contents of an allocated voice slot (10_state.md R22, R23, R27). -/
structure Voice where
  velocity : F32
  active : Bool
  blend : F32
  add : Additive
  fm : Fm
  env : Env
  flt : Flt
  deriving DecidableEq, Repr

/-- A voice parameter set (10_state.md R31), the type of `G.tmpl` (R20). -/
structure VoiceParams where
  blend : F32
  harm : Vector HarmParam nHarm
  op : Vector Operator nOp
  A : F32
  D : F32
  S : F32
  R : F32
  cutoff : F32
  q : F32
  deriving DecidableEq, Repr

end Sys2Proof.Machine
end

