-- ==== Sys2Proof/Machine/Operands.lean ====
section
/-! DEFINITION. The operand forms of the commands: notes and indices as slot and file entries, and the clamp that
setters apply to their value (30_encoding.md R72, R73; 00_scope.md R10). -/

namespace Sys2Proof.Machine

/-- The slot of a u7 note (30_encoding.md R72). -/
def noteSlot (n : BitVec 7) : Fin nSlot := n.toFin

/-- The entry of a file of `k` entries a u8 index selects; none when the index is out of range, which makes the command
a no-op (30_encoding.md R72). -/
def entry? (k : Nat) (i : BitVec 8) : Option (Fin k) :=
  if h : i.toNat < k then some ⟨i.toNat, h⟩ else none

/-- One entry of a file replaced by a function of it, for an index in range; the file as it is otherwise. -/
def modifyEntry {α : Type} {k : Nat} (v : Vector α k) (i : BitVec 8) (f : α → α) : Vector α k :=
  match entry? k i with
  | some j => v.set j (f v[j])
  | none => v

/-- `clamp` (00_scope.md R10). -/
def clamp (x lo hi : F32) : F32 :=
  if x.lt lo then lo else if hi.lt x then hi else x

/-- `clamp(x, 0.0, 1.0)`, the clamp of volume, blend, resonance, sustain and velocity. -/
def clampUnit (x : F32) : F32 := clamp x F32.posZero F32.one

/-- `SR / 2.0` (45_filter.md R201). -/
def nyquist (sr : F32) : F32 := sr.div F32.two

/-- `clamp(x, 20.0, SR / 2.0)` (45_filter.md R201). -/
def clampCutoff (sr x : F32) : F32 := clamp x F32.twenty (nyquist sr)

end Sys2Proof.Machine
end

