-- ==== Sys2Proof/Machine/Oscillator.lean ====
section
/-! DEFINITION. The oscillator (40_oscillator.md). -/

namespace Sys2Proof.Machine

/-- OSC_SET_FREQ (40_oscillator.md R101). -/
def oscSetFreq (o : Osc) (x : F32) : Osc := { o with freq := x }

/-- OSC_SET_AMP (40_oscillator.md R102). -/
def oscSetAmp (o : Osc) (x : F32) : Osc := { o with amp := x }

/-- The last two lines of WRAP1 after the remainder `r` is taken (40_oscillator.md R104). -/
def wrapRemainder (r : F32) : F32 :=
  let r' := if r.lt F32.posZero then r.add F32.one else r
  if F32.one.le r' then F32.posZero else r'

/-- WRAP1 (40_oscillator.md R104). -/
def wrap1 (p : F32) : F32 :=
  if p.isFinite then wrapRemainder p.fmodOne else .nan

/-- The phase after one advance (40_oscillator.md R103, first three lines). -/
def oscAdvance (sr : F32) (o : Osc) : F32 := wrap1 (o.phase.add (o.freq.div sr))

/-- OSC_NEXT (40_oscillator.md R103): the oscillator after the call, and the sample. -/
@[irreducible] def oscNext (C : Config) (o : Osc) : Osc × F32 :=
  let o' := { o with phase := oscAdvance C.sr o }
  (o', o'.amp.mul (C.sin32 (F32.tau.mul o'.phase)))

end Sys2Proof.Machine
end

