-- ==== Sys2Proof/Machine/Additive.lean ====
section
/-! DEFINITION. The additive engine (41_additive.md). -/

namespace Sys2Proof.Machine

/-- `DAMP(i)`, the amplitude of a harmonic's oscillator (41_additive.md R120). -/
def harmAmp (h : Harm) : F32 := if h.en then h.amp else F32.posZero

/-- ADD_SET_BASE (41_additive.md R121). -/
def addSetBase (a : Additive) (f : F32) : Additive :=
  { a with osc := Vector.ofFn fun i => oscSetAmp (oscSetFreq a.osc[i] (f.mul a.harm[i].mult)) (harmAmp a.harm[i]) }

/-- One harmonic changed by `g` and its oscillator's amplitude derived anew, for an index below 64; nothing otherwise
(the common form of 41_additive.md R122, R123). -/
def addModifyHarm (a : Additive) (i : BitVec 8) (g : Harm → Harm) : Additive :=
  match entry? nHarm i with
  | some j => { harm := a.harm.set j (g a.harm[j]), osc := a.osc.set j (oscSetAmp a.osc[j] (harmAmp (g a.harm[j]))) }
  | none => a

/-- ADD_SET_HARM_AMP (41_additive.md R122). -/
def addSetHarmAmp (a : Additive) (i : BitVec 8) (x : F32) : Additive := addModifyHarm a i fun h => { h with amp := x }

/-- ADD_TOGGLE_HARM (41_additive.md R123). -/
def addToggleHarm (a : Additive) (i : BitVec 8) : Additive := addModifyHarm a i fun h => { h with en := !h.en }

/-- ADD_NEXT (41_additive.md R124): every oscillator advances, and the samples are added in index order from +0.0. -/
@[irreducible] def addNext (C : Config) (a : Additive) : Additive × F32 :=
  ({ a with osc := Vector.ofFn fun i => (oscNext C a.osc[i]).1 },
   ((List.finRange nHarm).foldl (fun s i => s.add (oscNext C a.osc[i]).2) F32.posZero).div (F32.ofInt 64))

end Sys2Proof.Machine
end

