-- ==== Sys2Proof/Machine/FmEngine.lean ====
section
/-! DEFINITION. The FM engine (42_fm.md). -/

namespace Sys2Proof.Machine

/-- FM_SET_BASE (42_fm.md R141). -/
def fmSetBase (m : Fm) (f : F32) : Fm :=
  { m with base := f, osc := Vector.ofFn fun i => oscSetFreq m.osc[i] (f.mul m.op[i].ratio) }

/-- The phase-modulation input of operator `i`, read from the buffers as they stand (42_fm.md R142). -/
def fmPhaseMod (m : Fm) (i : Fin nOp) : F32 :=
  (List.finRange nOp).foldl
    (fun pm j => if j ≠ i ∧ m.op[j].en = true then pm.add (m.fbuf[j].mul F32.xmod) else pm)
    (m.fbuf[i].mul m.op[i].fbk)

/-- One enabled operator's turn of FM_NEXT (42_fm.md R143): the engine after it, and its output. -/
def fmOperatorNext (C : Config) (m : Fm) (i : Fin nOp) : Fm × F32 :=
  let r := oscNext C m.osc[i]
  let y := (C.sin32 (r.2.add (fmPhaseMod m i))).mul m.op[i].amp
  ({ m with osc := m.osc.set i r.1, fbuf := m.fbuf.set i y }, y)

/-- One turn of the loop of FM_NEXT: a disabled operator is skipped (42_fm.md R143, R144). -/
def fmStep (C : Config) (acc : Fm × F32) (i : Fin nOp) : Fm × F32 :=
  if acc.1.op[i].en then
    let r := fmOperatorNext C acc.1 i
    (r.1, acc.2.add r.2)
  else acc

/-- FM_NEXT (42_fm.md R143). -/
@[irreducible] def fmNext (C : Config) (m : Fm) : Fm × F32 :=
  let r := (List.finRange nOp).foldl (fmStep C) (m, F32.posZero)
  (r.1, r.2.div (F32.ofInt 6))

/-- FM_SET_OP_RATIO (42_fm.md R145). -/
def fmSetOpRatio (m : Fm) (i : BitVec 8) (r : F32) : Fm :=
  { m with op := modifyEntry m.op i fun o => { o with ratio := r },
           osc := modifyEntry m.osc i fun o => oscSetFreq o (m.base.mul r) }

/-- FM_SET_OP_AMP (42_fm.md R146). -/
def fmSetOpAmp (m : Fm) (i : BitVec 8) (x : F32) : Fm :=
  { m with op := modifyEntry m.op i fun o => { o with amp := x } }

/-- FM_SET_OP_FEEDBACK (42_fm.md R147). -/
def fmSetOpFeedback (m : Fm) (i : BitVec 8) (x : F32) : Fm :=
  { m with op := modifyEntry m.op i fun o => { o with fbk := x } }

/-- FM_TOGGLE_OP (42_fm.md R148). -/
def fmToggleOp (m : Fm) (i : BitVec 8) : Fm :=
  { m with op := modifyEntry m.op i fun o => { o with en := !o.en } }

end Sys2Proof.Machine
end

