-- ==== Sys2Proof/Machine/Blender.lean ====
section
/-! DEFINITION. The engine blender of a voice (43_blender.md). -/

namespace Sys2Proof.Machine

/-- BL_SET_FREQ (43_blender.md R161). -/
def blSetFreq (v : Voice) (f : F32) : Voice := { v with add := addSetBase v.add f, fm := fmSetBase v.fm f }

/-- BL_SET_BLEND (43_blender.md R162). -/
def blSetBlend (v : Voice) (b : F32) : Voice := { v with blend := clampUnit b }

/-- The crossfade of the two engines' samples (43_blender.md R163). -/
def crossfade (blend a m : F32) : F32 := (a.mul (F32.one.sub blend)).add (m.mul blend)

/-- BL_NEXT (43_blender.md R163). -/
def blNext (C : Config) (v : Voice) : Voice × F32 :=
  let a := addNext C v.add
  let m := fmNext C v.fm
  ({ v with add := a.1, fm := m.1 }, crossfade v.blend a.2 m.2)

end Sys2Proof.Machine
end

