-- ==== Sys2Proof/Machine/Envelope.lean ====
section
/-! DEFINITION. The envelope generator (44_envelope.md). -/

namespace Sys2Proof.Machine

/-- ENV_SET_TIME for A (44_envelope.md R171). -/
def envSetAttack (e : Env) (x : F32) : Env := { e with A := x }

/-- ENV_SET_TIME for D (44_envelope.md R171). -/
def envSetDecay (e : Env) (x : F32) : Env := { e with D := x }

/-- ENV_SET_TIME for R (44_envelope.md R171). -/
def envSetRelease (e : Env) (x : F32) : Env := { e with R := x }

/-- ENV_SET_SUSTAIN (44_envelope.md R172). -/
def envSetSustain (e : Env) (x : F32) : Env := { e with S := clampUnit x }

/-- ENV_NOTE_ON (44_envelope.md R174). -/
def envNoteOn (e : Env) : Env := { e with gate := true, stage := .attack, elapsed := F32.posZero }

/-- ENV_NOTE_OFF (44_envelope.md R175). -/
def envNoteOff (e : Env) : Env := { e with gate := false, stage := .release, elapsed := F32.posZero }

/-- `dt`, one sample period (44_envelope.md R176). -/
def samplePeriod (sr : F32) : F32 := F32.one.div sr

/-- The ramp of Attack (44_envelope.md R177). -/
def attackRamp (e : Env) (t : F32) : F32 := t.div e.A

/-- The ramp of Decay (44_envelope.md R178). -/
def decayRamp (e : Env) (t : F32) : F32 := F32.one.sub ((F32.one.sub e.S).mul (t.div e.D))

/-- The ramp of Release (44_envelope.md R180). -/
def releaseRamp (e : Env) (t : F32) : F32 := e.S.mul (F32.one.sub (t.div e.R))

/-- The stage rules R177-R181 (44_envelope.md), on the envelope whose elapsed time has been advanced: the envelope with
its transition made, and the value v. -/
def envStage (e : Env) : Env × F32 :=
  match e.stage with
  | .attack =>
    if e.A.le e.elapsed then ({ e with stage := .decay, elapsed := F32.posZero }, F32.one)
    else (e, attackRamp e e.elapsed)
  | .decay =>
    if e.D.le e.elapsed then ({ e with stage := .sustain, elapsed := F32.posZero }, e.S)
    else (e, decayRamp e e.elapsed)
  | .sustain => if e.gate then (e, e.S) else ({ e with stage := .release, elapsed := F32.posZero }, e.S)
  | .release =>
    if e.R.le e.elapsed then ({ e with stage := .idle, elapsed := F32.posZero }, F32.posZero)
    else (e, releaseRamp e e.elapsed)
  | .idle => (e, F32.posZero)

/-- ENV_NEXT (44_envelope.md R176). -/
@[irreducible] def envNext (sr : F32) (e : Env) : Env × F32 :=
  let r := envStage { e with elapsed := e.elapsed.add (samplePeriod sr) }
  ({ r.1 with value := r.2 }, r.2)

end Sys2Proof.Machine
end

