-- ==== Sys2Proof/Machine/Filter.lean ====
section
/-! DEFINITION. The resonant low-pass filter (45_filter.md). -/

namespace Sys2Proof.Machine

/-- FLT_SET_CUTOFF (45_filter.md R201). -/
def fltSetCutoff (sr : F32) (f : Flt) (x : F32) : Flt := { f with cutoff := clampCutoff sr x }

/-- FLT_SET_RES (45_filter.md R202). -/
def fltSetRes (f : Flt) (x : F32) : Flt := { f with q := clampUnit x }

/-- The coefficients of 45_filter.md R203; `b2 = b0`. -/
structure Coeffs where
  b0 : F32
  b1 : F32
  b2 : F32
  a0 : F32
  a1 : F32
  a2 : F32
  deriving DecidableEq, Repr

/-- `w0` (45_filter.md R203). -/
def fltW0 (sr : F32) (f : Flt) : F32 := (F32.tau.mul f.cutoff).div sr

/-- `alpha`, from `sn` (45_filter.md R203). -/
def fltAlpha (f : Flt) (sn : F32) : F32 := sn.div (F32.two.mul f.q)

/-- The last six lines of FLT_COEFFS (45_filter.md R203), from `alpha` and `c`. -/
def coeffsOf (alpha c : F32) : Coeffs where
  b0 := (F32.one.sub c).div F32.two
  b1 := F32.one.sub c
  b2 := (F32.one.sub c).div F32.two
  a0 := F32.one.add alpha
  a1 := (F32.neg F32.two).mul c
  a2 := F32.one.sub alpha

/-- FLT_COEFFS (45_filter.md R203). -/
def fltCoeffs (C : Config) (f : Flt) : Coeffs :=
  let w0 := fltW0 C.sr f
  let alpha := fltAlpha f (C.sin32 w0)
  coeffsOf alpha (C.cos32 (match C.cosArg with | .alpha => alpha | .w0 => w0))

/-- The five-term recurrence of FLT_PROCESS (45_filter.md R204). -/
def biquad (k : Coeffs) (x buf0 buf1 : F32) : F32 :=
  let n := k.b0.mul x
  let n := n.add (k.b1.mul buf0)
  let n := n.add (k.b2.mul buf1)
  let n := n.sub (k.a1.mul buf0)
  let n := n.sub (k.a2.mul buf1)
  n.div k.a0

/-- FLT_PROCESS (45_filter.md R204). -/
@[irreducible] def fltProcess (C : Config) (f : Flt) (x : F32) : Flt × F32 :=
  let y := biquad (fltCoeffs C f) x f.buf0 f.buf1
  ({ f with buf0 := y, buf1 := f.buf0 }, y)

end Sys2Proof.Machine
end

