-- ==== Sys2Proof/Machine/Defaults.lean ====
section
/-! DEFINITION. Default parameter values (00_scope.md R5), which parameter values are legal, the default voice
parameter set DEF (10_state.md R31) and the reset value of the volume (70_reset_and_hazards.md R330). -/

namespace Sys2Proof.Machine

/-- P_HARM_INIT's default (00_scope.md R5): harmonic 0 at amplitude 1.0 and enabled, the others 0.0 and disabled. -/
def defaultHarmInit : Vector HarmParam nHarm :=
  Vector.ofFn fun i => if i.val = 0 then ⟨F32.one, true⟩ else ⟨F32.posZero, false⟩

/-- The default column of the table of 00_scope.md R5. -/
def defaultParams : Params where
  sr := F32.ofBits 0x472C4400#32                -- 44100.0
  defaultDecay := F32.ofBits 0x3DCCCCCD#32
  defaultSustain := F32.ofBits 0x3F333333#32
  defaultRelease := F32.ofBits 0x3E4CCCCD#32
  defaultCutoff := F32.ofBits 0x447A0000#32     -- 1000.0
  defaultResonance := F32.half
  defaultVolume := F32.one
  harmInit := defaultHarmInit
  cosArg := .alpha
  shortCircuit := false
  newVoiceInit := .defaults
  mixDivisor := .total

/-- `lo <= x <= hi`. -/
def within (lo hi x : F32) : Bool := lo.le x && x.le hi

/-- The ranges of the table of 00_scope.md R5. Where the table gives no range, a finite value (44_envelope.md R183,
"every parameter is finite"; log 20). -/
def legalParams (p : Params) : Bool :=
  p.sr.isFinite && (F32.ofInt 40).le p.sr &&
  p.defaultDecay.isFinite && within F32.posZero F32.one p.defaultSustain && p.defaultRelease.isFinite &&
  p.defaultCutoff.isFinite &&
  (F32.posZero.lt p.defaultResonance && p.defaultResonance.le F32.one) &&
  within F32.posZero F32.one p.defaultVolume &&
  (List.finRange nHarm).all (fun i => (p.harmInit[i]).amp.isFinite)

/-- P_DEFAULT_BLEND (00_scope.md R5). -/
def defaultBlend : F32 := F32.half

/-- P_DEFAULT_ATTACK (00_scope.md R5). -/
def defaultAttack : F32 := F32.ofBits 0x3C23D70A#32

/-- The operator defaults of DEF (10_state.md R31). -/
def defaultOperators : Vector Operator nOp :=
  Vector.ofFn fun i =>
    if i.val = 0 then ⟨F32.one, F32.one, F32.posZero, true⟩ else ⟨F32.posZero, F32.posZero, F32.posZero, false⟩

/-- DEF (10_state.md R31; 45_filter.md R200 for the clamp of q, log 15). -/
def defaultVoiceParams (p : Params) : VoiceParams where
  blend := defaultBlend
  harm := p.harmInit
  op := defaultOperators
  A := defaultAttack
  D := p.defaultDecay
  S := p.defaultSustain
  R := p.defaultRelease
  cutoff := clampCutoff p.sr p.defaultCutoff
  q := clampUnit p.defaultResonance

/-- The reset value of `G.volume` (70_reset_and_hazards.md R330). -/
def resetVolume (p : Params) : F32 := clampUnit p.defaultVolume

end Sys2Proof.Machine
end

