-- ==== Sys2Proof/Syntax.lean ====
section
/-! DEFINITION. The commands of VOICE-DSP as syntax (30_encoding.md R74), the transfers and responses of
the two ports, and the two pseudo-instructions (30_encoding.md R79). -/

namespace Sys2Proof

/-- One command (30_encoding.md R74). A note is a u7, an index a u8, a value a binary32 datum (R72, R73). -/
inductive Instr where
  | noteOn (note : BitVec 7) (vel : F32)
  | noteOff (note : BitVec 7)
  | sample
  | queryPlaying
  | setVolume (x : F32)
  | setBlend (x : F32)
  | setCutoff (x : F32)
  | setResonance (x : F32)
  | setAttack (x : F32)
  | setDecay (x : F32)
  | setSustain (x : F32)
  | setRelease (x : F32)
  | setHarmAmp (i : BitVec 8) (a : F32)
  | toggleHarm (i : BitVec 8)
  | setOpRatio (i : BitVec 8) (r : F32)
  | setOpAmp (i : BitVec 8) (a : F32)
  | setOpFeedback (i : BitVec 8) (fb : F32)
  | toggleOp (i : BitVec 8)
  deriving DecidableEq, Repr

/-- The two ports (00_scope.md R2, 20_memory.md R51). -/
inductive Port where
  | command
  | sample
  deriving DecidableEq, Repr

/-- One transfer the host starts on a port (20_memory.md R51-R53): its bytes in the order sent, and whether it began
before the previous transaction had been applied (70_reset_and_hazards.md R336, duty 2). -/
structure Transfer where
  port : Port
  bytes : List Byte
  overlaps : Bool
  deriving DecidableEq, Repr

/-- One response word and the port that returns it (20_memory.md R51, 30_encoding.md R77). -/
structure Response where
  port : Port
  word : Word32
  deriving DecidableEq, Repr

/-- The pseudo-instructions (30_encoding.md R79). -/
inductive Pseudo where
  | samples (k : Nat)
  | setAdsr (a d s r : F32)
  deriving DecidableEq, Repr

end Sys2Proof
end

