-- ==== Sys2Proof/Machine/State.lean ====
section
/-! DEFINITION. The state of VOICE-DSP (10_state.md), its reset (70_reset_and_hazards.md R330), and the reasons a step
can stop. -/

namespace Sys2Proof.Machine

/-- The block state. `slots` and `volume`, `tmpl` are the spec's state; `params` is the configuration, carried here so
that a step can take it as an argument and written by nothing (log 2); `pending`, `responses` and `draws` are the
model's own fields (log 4, log 7, log 8). -/
structure State where
  /-- The configuration parameters (00_scope.md R5). No transaction changes them (70_reset_and_hazards.md R334). -/
  params : Params
  /-- `G.volume` (10_state.md R20). -/
  volume : F32
  /-- `G.tmpl` (10_state.md R20). -/
  tmpl : VoiceParams
  /-- The voice pool (10_state.md R21): `slot[n].alloc` is `slots[n].isSome`. An unallocated slot holds no voice. -/
  slots : Vector (Option Voice) nSlot
  /-- The transfers the host has started, in application order (20_memory.md R57). -/
  pending : List Transfer
  /-- The responses given so far with the port of each, the newest first (20_memory.md R51, 30_encoding.md R77). -/
  responses : List Response
  /-- How many SAMPLEs have drawn their free values. -/
  draws : Nat
  deriving DecidableEq, Repr

/-- VOICE-DSP raises no exception and has no error state (60_exceptions.md R300, 93_implementation_defined.md): there is
no fault, so nothing raises one. -/
inductive Fault where
  deriving DecidableEq, Repr

/-- Why a step has no transition (60_exceptions.md R302). -/
inductive Refusal where
  /-- An instruction without a meaning in the model, raised by exec's arm for it; safe. No arm raises it. -/
  | notModelled (mnemonic : String)
  /-- The word matches no row of the opcode table, breaks a must-be-zero field, or is not SAMPLE on the sample port
  (30_encoding.md R75, R76); raised by the fetch of a transfer; safe: the hardware ignores the word. -/
  | reservedEncoding
  /-- A used VAL is NaN or infinite (30_encoding.md R73, R76); raised by the fetch of a transfer; safe. -/
  | nonFiniteOperand
  /-- A transfer that is not one whole word, or began before the previous transaction had been applied
  (70_reset_and_hazards.md R336); raised by the fetch of a transfer; safe. -/
  | hostProtocol
  deriving DecidableEq, Repr

/-- The block right after reset, with the parameters `p` (70_reset_and_hazards.md R330): an empty pool, volume and
template at their defaults; nothing sent, nothing answered. -/
def State.resetWith (p : Params) : State where
  params := p
  volume := resetVolume p
  tmpl := defaultVoiceParams p
  slots := Vector.replicate nSlot none
  pending := []
  responses := []
  draws := 0

/-- The block right after reset, with the default parameters of 00_scope.md R5 (log 2). -/
def State.reset : State := State.resetWith defaultParams

end Sys2Proof.Machine
end

