-- ==== Sys2Proof/Machine/Flags.lean ====
section
/-! DEFINITION. The status bits derived from the state (10_state.md R21, R30, R34; 47_commands.md R243). -/

namespace Sys2Proof.Machine

/-- `released` of an allocated voice (10_state.md R30, 46_voice.md R224). -/
def released (v : Voice) : Bool := !v.active && decide (v.env.stage = .idle)

/-- The notes with `slot[n].alloc`, in ascending order (10_state.md R21). -/
def allocated (s : State) : List (Fin nSlot) := (List.finRange nSlot).filter fun n => (s.slots[n]).isSome

/-- COUNT (10_state.md R21). -/
def count (s : State) : Nat := (allocated s).length

/-- The number of allocated slots whose voice is active (47_commands.md R243). -/
def activeCount (s : State) : Nat := ((List.finRange nSlot).filter fun n => (s.slots[n]).any (·.active)).length

/-- PLAYING: some allocated voice is not released (10_state.md R30). -/
def playing (s : State) : Bool := (List.finRange nSlot).any fun n => (s.slots[n]).any (fun v => !released v)

end Sys2Proof.Machine
end

