-- ==== Sys2Proof/Machine/VoiceChain.lean ====
section
/-! DEFINITION. The voice (46_voice.md) and the contents of a newly allocated slot (70_reset_and_hazards.md R331). -/

namespace Sys2Proof.Machine

/-- NOTE_FREQ (46_voice.md R221). -/
def noteFreq (exp2_32 : F32 → F32) (n : Fin nSlot) : F32 :=
  F32.a4Freq.mul (exp2_32 ((F32.ofInt ((n.val : Int) - 69)).div (F32.ofInt 12)))

/-- VOICE_NOTE_ON (46_voice.md R222). -/
def voiceNoteOn (C : Config) (v : Voice) (n : Fin nSlot) (vel : F32) : Voice :=
  let v := { v with velocity := clampUnit vel }
  let v := blSetFreq v (noteFreq C.exp2_32 n)
  { v with env := envNoteOn v.env, active := true }

/-- VOICE_NOTE_OFF (46_voice.md R223). -/
def voiceNoteOff (v : Voice) : Voice := { v with env := envNoteOff v.env, active := false }

/-- VOICE_NEXT without its first line: the whole chain (46_voice.md R225). -/
def voiceChain (C : Config) (v : Voice) : Voice × F32 :=
  let b := blNext C v
  let g := envNext C.sr v.env
  let y := fltProcess C v.flt (b.2.mul g.2)
  ({ b.1 with env := g.1, flt := y.1 }, y.2.mul v.velocity)

/-- VOICE_NEXT (46_voice.md R225). -/
@[irreducible] def voiceNext (C : Config) (v : Voice) : Voice × F32 :=
  if C.shortCircuit && released v then (v, F32.posZero) else voiceChain C v

/-- The additive engine of a new slot (70_reset_and_hazards.md R331): multipliers f32(i+1), still oscillators. -/
def newAdditive (P : VoiceParams) : Additive :=
  let harm : Vector Harm nHarm := Vector.ofFn fun i => ⟨F32.ofInt (i.val + 1), P.harm[i].amp, P.harm[i].en⟩
  { harm := harm, osc := Vector.ofFn fun i => ⟨F32.posZero, F32.posZero, harmAmp harm[i]⟩ }

/-- The FM engine of a new slot (70_reset_and_hazards.md R331). -/
def newFm (P : VoiceParams) : Fm where
  op := P.op
  osc := Vector.ofFn fun _ => ⟨F32.posZero, F32.posZero, F32.one⟩
  fbuf := Vector.ofFn fun _ => F32.posZero
  base := F32.posZero

/-- The slot ALLOC leaves, loaded with the parameter set P (70_reset_and_hazards.md R331). -/
def newVoice (P : VoiceParams) : Voice where
  velocity := F32.posZero
  active := false
  blend := P.blend
  add := newAdditive P
  fm := newFm P
  env := ⟨P.A, P.D, P.S, P.R, .idle, F32.posZero, F32.posZero, false⟩
  flt := ⟨P.cutoff, P.q, F32.posZero, F32.posZero⟩

end Sys2Proof.Machine
end

