-- ==== Sys2Proof/Machine/Ops.lean ====
section
/-! DEFINITION. The operations commands share: writing a slot, ALLOC, BROADCAST, the mix and the response.
The block has no exception to take and none to return from (60_exceptions.md R300, R305, R306), so there is no such
operation here; and no memory (20_memory.md R50). -/

namespace Sys2Proof.Machine

/-- The configuration of the block in state `s`. -/
def State.config (s : State) : Config := configOf s.params

/-- `slot[n]` written. -/
def setSlot (s : State) (n : Fin nSlot) (v : Voice) : State := { s with slots := s.slots.set n (some v) }

/-- The parameter set a new voice starts from (70_reset_and_hazards.md R331). -/
def initialParams (s : State) : VoiceParams :=
  match s.params.newVoiceInit with
  | .defaults => defaultVoiceParams s.params
  | .current => s.tmpl

/-- The voice of slot n, allocated first if there is none (47_commands.md R241; ALLOC, 70_reset_and_hazards.md R331). -/
def voiceOrAlloc (s : State) (n : Fin nSlot) : Voice :=
  match s.slots[n] with
  | some v => v
  | none => newVoice (initialParams s)

/-- Every allocated slot changed by `f`. -/
def mapVoices (f : Voice → Voice) (slots : Vector (Option Voice) nSlot) : Vector (Option Voice) nSlot :=
  Vector.ofFn fun n => (slots[n]).map f

/-- BROADCAST (47_commands.md R245): `onVoice` in every allocated slot, and `onTmpl`, the same change of the parameter
fields, in the template when P_NEW_VOICE_INIT = CURRENT. -/
def broadcast (onVoice : Voice → Voice) (onTmpl : VoiceParams → VoiceParams) (s : State) : State :=
  { s with
    slots := mapVoices onVoice s.slots
    tmpl := match s.params.newVoiceInit with
      | .defaults => s.tmpl
      | .current => onTmpl s.tmpl }

/-- A response word returned on a port (20_memory.md R51, 30_encoding.md R77). -/
def respond (s : State) (port : Port) (w : Word32) : State := { s with responses := ⟨port, w⟩ :: s.responses }

/-- `x` placed before the element at position `k` of `l`, or at the end. -/
def insertAt {α : Type} (x : α) : Nat → List α → List α
  | _, [] => [x]
  | 0, y :: ys => x :: y :: ys
  | k + 1, y :: ys => y :: insertAt x k ys

/-- A permutation of `l` chosen by `pick`: every permutation is chosen by some `pick` (47_commands.md R243, log 8). -/
def permuteBy {α : Type} (pick : Nat → Nat) : List α → List α
  | [] => []
  | x :: xs => insertAt x (pick xs.length) (permuteBy pick xs)

/-- ORDER of one SAMPLE (47_commands.md R243): a permutation of the allocated notes, from this SAMPLE's draw. -/
def mixOrder (s : State) : List (Fin nSlot) := permuteBy (Config.mixDraw s.draws) (allocated s)

/-- The output of the voice in slot n on this SAMPLE (46_voice.md R225); only allocated notes are asked. -/
def voiceOutput (s : State) (n : Fin nSlot) : F32 :=
  match s.slots[n] with
  | some v => (voiceNext s.config v).2
  | none => F32.posZero

/-- The voice sum in the order given (47_commands.md R243). -/
def voiceSum (s : State) (order : List (Fin nSlot)) : F32 :=
  order.foldl (fun acc n => acc.add (voiceOutput s n)) F32.posZero

/-- The divisor d (47_commands.md R243). -/
def mixDivisor (s : State) : Nat :=
  match s.params.mixDivisor with
  | .total => count s
  | .active => activeCount s

/-- The sample of the mixer (47_commands.md R243), for voices added in the order given. -/
def mixedSample (s : State) (order : List (Fin nSlot)) : F32 :=
  let sum := voiceSum s order
  let d := mixDivisor s
  (if d = 0 then sum else sum.div (F32.ofInt d)).mul s.volume

/-- The state after SAMPLE, with the order and the NaN bits of its draw given (47_commands.md R243, 00_scope.md R9).
The sample port returns the response, whichever port the request came on (20_memory.md R51; log 7). -/
def sampleWith (order : List (Fin nSlot)) (nanBits : BitVec 23) (s : State) : State :=
  respond
    { s with slots := mapVoices (fun v => (voiceNext s.config v).1) s.slots, draws := s.draws + 1 }
    .sample ((mixedSample s order).toBits nanBits)

end Sys2Proof.Machine
end

