-- ==== Sys2Proof/Machine/NoteCommands.lean ====
section
/-! DEFINITION. The note, sample and query commands (47_commands.md R241-R244). -/

namespace Sys2Proof.Machine

/-- NOTE_ON (47_commands.md R241). -/
def execNoteOn (note : BitVec 7) (vel : F32) (s : State) : Host.Outcome State Fault Refusal :=
  .next (setSlot s (noteSlot note) (voiceNoteOn s.config (voiceOrAlloc s (noteSlot note)) (noteSlot note) vel))

/-- NOTE_OFF (47_commands.md R242). -/
def execNoteOff (note : BitVec 7) (s : State) : Host.Outcome State Fault Refusal :=
  match s.slots[noteSlot note] with
  | some v => .next (setSlot s (noteSlot note) (voiceNoteOff v))
  | none => .next s

/-- SAMPLE (47_commands.md R243): the order and the NaN bits are this SAMPLE's draw. -/
def execSample (s : State) : Host.Outcome State Fault Refusal :=
  .next (sampleWith (mixOrder s) (Config.nanDraw s.draws) s)

/-- QUERY_PLAYING (47_commands.md R244): the command port's one response (20_memory.md R51). -/
def execQueryPlaying (s : State) : Host.Outcome State Fault Refusal :=
  .next (respond s .command (if playing s then 1 else 0))

end Sys2Proof.Machine
end

