-- ==== Sys2Proof/Machine/TemplateOps.lean ====
section
/-! DEFINITION. The setters applied to the parameter fields of `G.tmpl` (47_commands.md R245, 10_state.md R20): they
write only the voice parameter set. -/

namespace Sys2Proof.Machine

def tmplSetBlend (P : VoiceParams) (x : F32) : VoiceParams := { P with blend := clampUnit x }
def tmplSetCutoff (sr : F32) (P : VoiceParams) (x : F32) : VoiceParams := { P with cutoff := clampCutoff sr x }
def tmplSetRes (P : VoiceParams) (x : F32) : VoiceParams := { P with q := clampUnit x }
def tmplSetAttack (P : VoiceParams) (x : F32) : VoiceParams := { P with A := x }
def tmplSetDecay (P : VoiceParams) (x : F32) : VoiceParams := { P with D := x }
def tmplSetSustain (P : VoiceParams) (x : F32) : VoiceParams := { P with S := clampUnit x }
def tmplSetRelease (P : VoiceParams) (x : F32) : VoiceParams := { P with R := x }

def tmplSetHarmAmp (P : VoiceParams) (i : BitVec 8) (x : F32) : VoiceParams :=
  { P with harm := modifyEntry P.harm i fun h => { h with amp := x } }

def tmplToggleHarm (P : VoiceParams) (i : BitVec 8) : VoiceParams :=
  { P with harm := modifyEntry P.harm i fun h => { h with en := !h.en } }

def tmplSetOpRatio (P : VoiceParams) (i : BitVec 8) (x : F32) : VoiceParams :=
  { P with op := modifyEntry P.op i fun o => { o with ratio := x } }

def tmplSetOpAmp (P : VoiceParams) (i : BitVec 8) (x : F32) : VoiceParams :=
  { P with op := modifyEntry P.op i fun o => { o with amp := x } }

def tmplSetOpFeedback (P : VoiceParams) (i : BitVec 8) (x : F32) : VoiceParams :=
  { P with op := modifyEntry P.op i fun o => { o with fbk := x } }

def tmplToggleOp (P : VoiceParams) (i : BitVec 8) : VoiceParams :=
  { P with op := modifyEntry P.op i fun o => { o with en := !o.en } }

end Sys2Proof.Machine
end

