-- ==== Sys2Proof/Machine/SetterCommands.lean ====
section
/-! DEFINITION. The non-indexed setters (47_commands.md R246-R253). -/

namespace Sys2Proof.Machine

/-- SET_VOLUME (47_commands.md R246). -/
def execSetVolume (x : F32) (s : State) : Host.Outcome State Fault Refusal :=
  .next { s with volume := clampUnit x }

/-- SET_BLEND (47_commands.md R247). -/
def execSetBlend (x : F32) (s : State) : Host.Outcome State Fault Refusal :=
  .next (broadcast (fun v => blSetBlend v x) (fun P => tmplSetBlend P x) s)

/-- SET_CUTOFF (47_commands.md R248). -/
def execSetCutoff (x : F32) (s : State) : Host.Outcome State Fault Refusal :=
  .next (broadcast (fun v => { v with flt := fltSetCutoff s.params.sr v.flt x })
    (fun P => tmplSetCutoff s.params.sr P x) s)

/-- SET_RESONANCE (47_commands.md R249). -/
def execSetResonance (x : F32) (s : State) : Host.Outcome State Fault Refusal :=
  .next (broadcast (fun v => { v with flt := fltSetRes v.flt x }) (fun P => tmplSetRes P x) s)

/-- SET_ATTACK (47_commands.md R250). -/
def execSetAttack (x : F32) (s : State) : Host.Outcome State Fault Refusal :=
  .next (broadcast (fun v => { v with env := envSetAttack v.env x }) (fun P => tmplSetAttack P x) s)

/-- SET_DECAY (47_commands.md R251). -/
def execSetDecay (x : F32) (s : State) : Host.Outcome State Fault Refusal :=
  .next (broadcast (fun v => { v with env := envSetDecay v.env x }) (fun P => tmplSetDecay P x) s)

/-- SET_SUSTAIN (47_commands.md R252). -/
def execSetSustain (x : F32) (s : State) : Host.Outcome State Fault Refusal :=
  .next (broadcast (fun v => { v with env := envSetSustain v.env x }) (fun P => tmplSetSustain P x) s)

/-- SET_RELEASE (47_commands.md R253). -/
def execSetRelease (x : F32) (s : State) : Host.Outcome State Fault Refusal :=
  .next (broadcast (fun v => { v with env := envSetRelease v.env x }) (fun P => tmplSetRelease P x) s)

end Sys2Proof.Machine
end

