-- ==== Sys2Proof/Machine/TimbreCommands.lean ====
section
/-! DEFINITION. The harmonic and operator commands (47_commands.md R254-R259). -/

namespace Sys2Proof.Machine

/-- SET_HARM_AMP (47_commands.md R254). -/
def execSetHarmAmp (i : BitVec 8) (a : F32) (s : State) : Host.Outcome State Fault Refusal :=
  .next (broadcast (fun v => { v with add := addSetHarmAmp v.add i a }) (fun P => tmplSetHarmAmp P i a) s)

/-- TOGGLE_HARM (47_commands.md R255). -/
def execToggleHarm (i : BitVec 8) (s : State) : Host.Outcome State Fault Refusal :=
  .next (broadcast (fun v => { v with add := addToggleHarm v.add i }) (fun P => tmplToggleHarm P i) s)

/-- SET_OP_RATIO (47_commands.md R256). -/
def execSetOpRatio (i : BitVec 8) (r : F32) (s : State) : Host.Outcome State Fault Refusal :=
  .next (broadcast (fun v => { v with fm := fmSetOpRatio v.fm i r }) (fun P => tmplSetOpRatio P i r) s)

/-- SET_OP_AMP (47_commands.md R257). -/
def execSetOpAmp (i : BitVec 8) (a : F32) (s : State) : Host.Outcome State Fault Refusal :=
  .next (broadcast (fun v => { v with fm := fmSetOpAmp v.fm i a }) (fun P => tmplSetOpAmp P i a) s)

/-- SET_OP_FEEDBACK (47_commands.md R258). -/
def execSetOpFeedback (i : BitVec 8) (fb : F32) (s : State) : Host.Outcome State Fault Refusal :=
  .next (broadcast (fun v => { v with fm := fmSetOpFeedback v.fm i fb }) (fun P => tmplSetOpFeedback P i fb) s)

/-- TOGGLE_OP (47_commands.md R259). -/
def execToggleOp (i : BitVec 8) (s : State) : Host.Outcome State Fault Refusal :=
  .next (broadcast (fun v => { v with fm := fmToggleOp v.fm i }) (fun P => tmplToggleOp P i) s)

end Sys2Proof.Machine
end

