-- ==== Sys2Proof/Machine/Dispatch.lean ====
section
/-! DEFINITION. One arm per constructor of Instr, each one call of its meaning. -/

namespace Sys2Proof.Machine

def exec (i : Instr) (s : State) : Host.Outcome State Fault Refusal :=
  match i with
  | .noteOn note vel => Sys2Proof.Machine.execNoteOn note vel s
  | .noteOff note => Sys2Proof.Machine.execNoteOff note s
  | .sample => Sys2Proof.Machine.execSample s
  | .queryPlaying => Sys2Proof.Machine.execQueryPlaying s
  | .setVolume x => Sys2Proof.Machine.execSetVolume x s
  | .setBlend x => Sys2Proof.Machine.execSetBlend x s
  | .setCutoff x => Sys2Proof.Machine.execSetCutoff x s
  | .setResonance x => Sys2Proof.Machine.execSetResonance x s
  | .setAttack x => Sys2Proof.Machine.execSetAttack x s
  | .setDecay x => Sys2Proof.Machine.execSetDecay x s
  | .setSustain x => Sys2Proof.Machine.execSetSustain x s
  | .setRelease x => Sys2Proof.Machine.execSetRelease x s
  | .setHarmAmp j a => Sys2Proof.Machine.execSetHarmAmp j a s
  | .toggleHarm j => Sys2Proof.Machine.execToggleHarm j s
  | .setOpRatio j r => Sys2Proof.Machine.execSetOpRatio j r s
  | .setOpAmp j a => Sys2Proof.Machine.execSetOpAmp j a s
  | .setOpFeedback j fb => Sys2Proof.Machine.execSetOpFeedback j fb s
  | .toggleOp j => Sys2Proof.Machine.execToggleOp j s

end Sys2Proof.Machine
end

