-- ==== Sys2Proof/WellFormed.lean ====
section
/-! DEFINITION. Well-formed commands: the operands a command word can carry (30_encoding.md R72, R73). Notes and
indices are bounded by their types; a used VAL must be finite. -/

namespace Sys2Proof

/-- The value operand of a command, if it uses VAL (30_encoding.md R73). -/
def Instr.value? : Instr → Option F32
  | .noteOn _ v => some v
  | .noteOff _ => none
  | .sample => none
  | .queryPlaying => none
  | .setVolume x => some x
  | .setBlend x => some x
  | .setCutoff x => some x
  | .setResonance x => some x
  | .setAttack x => some x
  | .setDecay x => some x
  | .setSustain x => some x
  | .setRelease x => some x
  | .setHarmAmp _ a => some a
  | .toggleHarm _ => none
  | .setOpRatio _ r => some r
  | .setOpAmp _ a => some a
  | .setOpFeedback _ fb => some fb
  | .toggleOp _ => none

/-- "Where VAL is used, x must be finite" (30_encoding.md R73). -/
def Instr.wellFormed (i : Instr) : Bool :=
  match i.value? with
  | some x => x.isFinite
  | none => true

/-- `SAMPLES k` needs k >= 1, and the four values of `SET_ADSR` are operands of commands (30_encoding.md R79, R73). -/
def Pseudo.wellFormed : Pseudo → Bool
  | .samples k => decide (1 ≤ k)
  | .setAdsr a d s r => a.isFinite && d.isFinite && s.isFinite && r.isFinite

end Sys2Proof
end

