-- ==== Sys2Proof/Decode.lean ====
section
/-! DEFINITION. Decoding of command words and port transfers, the encoder, and the expansion of pseudo-instructions
(30_encoding.md R70-R80, 20_memory.md R52, R53). -/

namespace Sys2Proof

/-- Why a transfer has no meaning (60_exceptions.md R302). -/
inductive DecodeError where
  | reservedEncoding
  | nonFiniteOperand
  | hostProtocol
  deriving DecidableEq, Repr

/-- The opcodes of table R74 (30_encoding.md). -/
inductive Opcode where
  | noteOn | noteOff | sample | queryPlaying
  | setVolume | setBlend | setCutoff | setResonance | setAttack | setDecay | setSustain | setRelease
  | setHarmAmp | toggleHarm
  | setOpRatio | setOpAmp | setOpFeedback | toggleOp
  deriving DecidableEq, Repr

/-- How an opcode uses IDX (30_encoding.md R72). -/
inductive IdxUse where
  | none
  | note
  | index
  deriving DecidableEq, Repr

/-- The OPC column of table R74. -/
def Opcode.code : Opcode → BitVec 8
  | .noteOn => 0x01#8
  | .noteOff => 0x02#8
  | .sample => 0x03#8
  | .queryPlaying => 0x04#8
  | .setVolume => 0x10#8
  | .setBlend => 0x11#8
  | .setCutoff => 0x12#8
  | .setResonance => 0x13#8
  | .setAttack => 0x14#8
  | .setDecay => 0x15#8
  | .setSustain => 0x16#8
  | .setRelease => 0x17#8
  | .setHarmAmp => 0x20#8
  | .toggleHarm => 0x21#8
  | .setOpRatio => 0x28#8
  | .setOpAmp => 0x29#8
  | .setOpFeedback => 0x2A#8
  | .toggleOp => 0x2B#8

/-- The IDX column of table R74. -/
def Opcode.idxUse : Opcode → IdxUse
  | .noteOn => .note
  | .noteOff => .note
  | .sample => .none
  | .queryPlaying => .none
  | .setVolume => .none
  | .setBlend => .none
  | .setCutoff => .none
  | .setResonance => .none
  | .setAttack => .none
  | .setDecay => .none
  | .setSustain => .none
  | .setRelease => .none
  | .setHarmAmp => .index
  | .toggleHarm => .index
  | .setOpRatio => .index
  | .setOpAmp => .index
  | .setOpFeedback => .index
  | .toggleOp => .index

/-- The VAL column of table R74: whether the opcode uses VAL. -/
def Opcode.usesVal : Opcode → Bool
  | .noteOn => true
  | .noteOff => false
  | .sample => false
  | .queryPlaying => false
  | .setVolume => true
  | .setBlend => true
  | .setCutoff => true
  | .setResonance => true
  | .setAttack => true
  | .setDecay => true
  | .setSustain => true
  | .setRelease => true
  | .setHarmAmp => true
  | .toggleHarm => false
  | .setOpRatio => true
  | .setOpAmp => true
  | .setOpFeedback => true
  | .toggleOp => false

/-- Table R74 in the order of its rows. -/
def Opcode.all : List Opcode :=
  [.noteOn, .noteOff, .sample, .queryPlaying] ++
  [.setVolume, .setBlend, .setCutoff, .setResonance, .setAttack, .setDecay, .setSustain, .setRelease] ++
  [.setHarmAmp, .toggleHarm, .setOpRatio, .setOpAmp, .setOpFeedback, .toggleOp]

/-- The row of table R74 with this OPC, if there is one. -/
def Opcode.ofCode (c : BitVec 8) : Option Opcode := Opcode.all.find? (fun o => o.code == c)

/-- The command of a row with its fields (30_encoding.md R72, R73, last line of R76). -/
def Opcode.build (o : Opcode) (idx : BitVec 8) (x : F32) : Instr :=
  match o with
  | .noteOn => .noteOn (idx.extractLsb' 0 7) x
  | .noteOff => .noteOff (idx.extractLsb' 0 7)
  | .sample => .sample
  | .queryPlaying => .queryPlaying
  | .setVolume => .setVolume x
  | .setBlend => .setBlend x
  | .setCutoff => .setCutoff x
  | .setResonance => .setResonance x
  | .setAttack => .setAttack x
  | .setDecay => .setDecay x
  | .setSustain => .setSustain x
  | .setRelease => .setRelease x
  | .setHarmAmp => .setHarmAmp idx x
  | .toggleHarm => .toggleHarm idx
  | .setOpRatio => .setOpRatio idx x
  | .setOpAmp => .setOpAmp idx x
  | .setOpFeedback => .setOpFeedback idx x
  | .toggleOp => .toggleOp idx

/-! The fields of a command word (30_encoding.md R71). -/

def opcField (w : Word64) : BitVec 8 := w.extractLsb' 56 8
def idxField (w : Word64) : BitVec 8 := w.extractLsb' 48 8
def rsvField (w : Word64) : BitVec 16 := w.extractLsb' 32 16
def valField (w : Word64) : Word32 := w.extractLsb' 0 32

/-- The decoding procedure of 30_encoding.md R76, its checks in the order written (60_exceptions.md R304). -/
def decodeWord (port : Port) (w : Word64) : Except DecodeError Instr :=
  if port = .sample ∧ opcField w ≠ Opcode.sample.code then .error .reservedEncoding
  else match Opcode.ofCode (opcField w) with
  | none => .error .reservedEncoding
  | some o =>
    if rsvField w ≠ 0 then .error .reservedEncoding
    else if o.idxUse = .none ∧ idxField w ≠ 0 then .error .reservedEncoding
    else if o.idxUse = .note ∧ (idxField w).msb = true then .error .reservedEncoding
    else if o.usesVal = false ∧ valField w ≠ 0 then .error .reservedEncoding
    else if o.usesVal = true ∧ (F32.ofBits (valField w)).isFinite = false then .error .nonFiniteOperand
    else .ok (o.build (idxField w) (F32.ofBits (valField w)))

/-- The word whose bytes arrive least significant first (20_memory.md R52). -/
def wordOfBytes (b0 b1 b2 b3 b4 b5 b6 b7 : Byte) : Word64 :=
  b7 ++ (b6 ++ (b5 ++ (b4 ++ (b3 ++ (b2 ++ (b1 ++ b0))))))

/-- The bytes of a command word in the order sent: byte k holds bits [8k+7:8k] (20_memory.md R52). -/
def bytesOfWord (w : Word64) : List Byte :=
  [w.extractLsb' 0 8, w.extractLsb' 8 8, w.extractLsb' 16 8, w.extractLsb' 24 8,
   w.extractLsb' 32 8, w.extractLsb' 40 8, w.extractLsb' 48 8, w.extractLsb' 56 8]

/-- The bytes of a response word in the order sent (20_memory.md R52). -/
def bytesOfResponse (w : Word32) : List Byte :=
  [w.extractLsb' 0 8, w.extractLsb' 8 8, w.extractLsb' 16 8, w.extractLsb' 24 8]

/-- A transfer is a transaction when it is one whole word and began after the previous transaction had been applied
(20_memory.md R53, 70_reset_and_hazards.md R336; log 5, log 6); then its word is decoded. -/
def decodeTransfer (t : Transfer) : Except DecodeError Instr :=
  if t.overlaps then .error .hostProtocol
  else match t.bytes with
  | [b0, b1, b2, b3, b4, b5, b6, b7] => decodeWord t.port (wordOfBytes b0 b1 b2 b3 b4 b5 b6 b7)
  | _ => .error .hostProtocol

/-! The encoder, from table R74 and the field table R71 (30_encoding.md). -/

/-- The row of table R74 of a command. -/
def Instr.opcode : Instr → Opcode
  | .noteOn _ _ => .noteOn
  | .noteOff _ => .noteOff
  | .sample => .sample
  | .queryPlaying => .queryPlaying
  | .setVolume _ => .setVolume
  | .setBlend _ => .setBlend
  | .setCutoff _ => .setCutoff
  | .setResonance _ => .setResonance
  | .setAttack _ => .setAttack
  | .setDecay _ => .setDecay
  | .setSustain _ => .setSustain
  | .setRelease _ => .setRelease
  | .setHarmAmp _ _ => .setHarmAmp
  | .toggleHarm _ => .toggleHarm
  | .setOpRatio _ _ => .setOpRatio
  | .setOpAmp _ _ => .setOpAmp
  | .setOpFeedback _ _ => .setOpFeedback
  | .toggleOp _ => .toggleOp

/-- The IDX field of a command: its note under a zero bit, its index, or zero (30_encoding.md R72). -/
def Instr.idx : Instr → BitVec 8
  | .noteOn n _ => 0#1 ++ n
  | .noteOff n => 0#1 ++ n
  | .sample => 0
  | .queryPlaying => 0
  | .setVolume _ => 0
  | .setBlend _ => 0
  | .setCutoff _ => 0
  | .setResonance _ => 0
  | .setAttack _ => 0
  | .setDecay _ => 0
  | .setSustain _ => 0
  | .setRelease _ => 0
  | .setHarmAmp i _ => i
  | .toggleHarm i => i
  | .setOpRatio i _ => i
  | .setOpAmp i _ => i
  | .setOpFeedback i _ => i
  | .toggleOp i => i

/-- The VAL field of a command: the bit pattern of its value, or zero (30_encoding.md R73). -/
def Instr.val (i : Instr) : Word32 :=
  match i.value? with
  | some x => x.toBits 0
  | none => 0

/-- The command word of a command (30_encoding.md R71). -/
def encode (i : Instr) : Word64 := i.opcode.code ++ (i.idx ++ (0#16 ++ i.val))

/-- A whole, timely transfer of one word. -/
def wordTransfer (port : Port) (w : Word64) : Transfer := ⟨port, bytesOfWord w, false⟩

/-- The word of `nbits` bits numbered as spec/opcode_table.json numbers them, the bits above zero. -/
def tableWord (nbits w : Nat) : Word64 := BitVec.ofNat 64 (w % 2 ^ nbits)

/-- The command the decoder reads from the word, sent on the command port as the hardware sends it. -/
def decodeTableWord (nbits w : Nat) : Option Instr :=
  match decodeTransfer (wordTransfer .command (tableWord nbits w)) with
  | .ok i => some i
  | .error _ => none

/-- The expansion of a pseudo-instruction (30_encoding.md R79). -/
def Pseudo.expand : Pseudo → List Instr
  | .samples k => List.replicate k .sample
  | .setAdsr a d s r => [.setAttack a, .setDecay d, .setSustain s, .setRelease r]

end Sys2Proof
end

