-- ==== Sys2Proof/Machine/Fetch.lean ====
section
/-! DEFINITION. Where a step takes its transaction from: the head of `pending` (20_memory.md R57, log 4). -/

namespace Sys2Proof.Machine

/-- The refusal of a transfer without a meaning (60_exceptions.md R302). -/
def refusalOf : DecodeError → Refusal
  | .reservedEncoding => .reservedEncoding
  | .nonFiniteOperand => .nonFiniteOperand
  | .hostProtocol => .hostProtocol

/-- A word put before every pending transfer, on the command port. -/
def pushWord (s : State) (w : Word64) : State := { s with pending := wordTransfer .command w :: s.pending }

end Sys2Proof.Machine
end

