-- ==== Sys2Proof/Machine/Step.lean ====
section
/-! DEFINITION. One step: the next pending transfer is taken, decoded and applied as one transaction
(47_commands.md R240, 20_memory.md R56-R58). -/

namespace Sys2Proof.Machine

/-- One transaction. With nothing pending, nothing changes (60_exceptions.md R314); a transfer without a meaning is
refused (60_exceptions.md R302, R315). -/
def step (s : State) : Host.Outcome State Fault Refusal :=
  match s.pending with
  | [] => .next s
  | t :: rest =>
    match decodeTransfer t with
    | .error e => .refused (refusalOf e)
    | .ok i => exec i { s with pending := rest }

/-- `s` with the instruction whose bits are `w`, as spec/opcode_table.json numbers them, as its next transaction
(log 4). -/
def State.withFetchWord (s : State) (nbits w : Nat) : State := pushWord s (tableWord nbits w)

end Sys2Proof.Machine
end

