-- ==== Sys2Proof/Machine/Assembly.lean ====
section
/-! DEFINITION. The assembler of 30_encoding.md R78 and R79: one command per line, operands in the order IDX then VAL.
What R78 leaves open about blanks, signs and fractions is fixed in log 18. -/

namespace Sys2Proof.Machine.Assembly

/-- The pieces of `l` between the characters `c`. -/
def splitAt (c : Char) : List Char → List (List Char)
  | [] => [[]]
  | x :: xs =>
    match splitAt c xs with
    | [] => [[x]]
    | y :: ys => if x = c then [] :: y :: ys else (x :: y) :: ys

/-- A blank: space, tab or carriage return. -/
def isBlank (c : Char) : Bool := c == ' ' || c == '\t' || c == '\r'

/-- `l` without blanks at its ends. -/
def trim (l : List Char) : List Char := ((l.dropWhile isBlank).reverse.dropWhile isBlank).reverse

/-- The digits of "a decimal integer" and of a "hex bit pattern" (30_encoding.md R78), each at its own value. -/
def digits : List Char := "0123456789ABCDEF".toList

/-- The value of a digit of the given base, at most 16; a letter counts in either case (log 18). -/
def digitValue? (base : Nat) (c : Char) : Option Nat := (digits.take base).idxOf? c.toUpper

/-- The number that one or more digits of the given base write. -/
def number? (base : Nat) (l : List Char) : Option Nat :=
  if l = [] then none else (l.mapM (digitValue? base)).map fun ds => ds.foldl (fun n d => n * base + d) 0

/-- A note or index: a decimal integer (30_encoding.md R78). -/
def integer? (l : List Char) : Option Nat := number? 10 l

/-- An unsigned decimal literal, as the binary32 value nearest to it, with the sign `neg` (30_encoding.md R78). Of two
values equally near, the one with the even last bit: R78 says only "nearest" (DESIGN CHOICE, log 18). -/
def decimal? (neg : Bool) (l : List Char) : Option F32 :=
  match splitAt '.' l with
  | [whole] => (integer? whole).map fun n => F32.round neg (n * 2 ^ 149) 1
  | [whole, frac] =>
    match integer? whole, integer? frac, integer? (whole ++ frac) with
    | some _, some _, some n => some (F32.round neg (n * 2 ^ 149) (10 ^ frac.length))
    | _, _, _ => none
  | _ => none

/-- A binary32 operand: a decimal literal, or a bit pattern written `0f:XXXXXXXX` (30_encoding.md R78). -/
def float? (l : List Char) : Option F32 :=
  match l with
  | '0' :: 'f' :: ':' :: h =>
    if h.length = 8 then (number? 16 h).map fun n => F32.ofBits (BitVec.ofNat 32 n) else none
  | '-' :: rest => decimal? true rest
  | '+' :: rest => decimal? false rest
  | _ => decimal? false l

/-- A note operand, 0..127 (30_encoding.md R72). -/
def note? (l : List Char) : Option (BitVec 7) :=
  match integer? l with
  | some n => if n < 128 then some (BitVec.ofNat 7 n) else none
  | none => none

/-- An index operand, 0..255 (30_encoding.md R72). -/
def index? (l : List Char) : Option (BitVec 8) :=
  match integer? l with
  | some n => if n < 256 then some (BitVec.ofNat 8 n) else none
  | none => none

/-- The mnemonic of an opcode (30_encoding.md R74). -/
def mnemonic : Opcode → List Char
  | .noteOn => "NOTE_ON".toList
  | .noteOff => "NOTE_OFF".toList
  | .sample => "SAMPLE".toList
  | .queryPlaying => "QUERY_PLAYING".toList
  | .setVolume => "SET_VOLUME".toList
  | .setBlend => "SET_BLEND".toList
  | .setCutoff => "SET_CUTOFF".toList
  | .setResonance => "SET_RESONANCE".toList
  | .setAttack => "SET_ATTACK".toList
  | .setDecay => "SET_DECAY".toList
  | .setSustain => "SET_SUSTAIN".toList
  | .setRelease => "SET_RELEASE".toList
  | .setHarmAmp => "SET_HARM_AMP".toList
  | .toggleHarm => "TOGGLE_HARM".toList
  | .setOpRatio => "SET_OP_RATIO".toList
  | .setOpAmp => "SET_OP_AMP".toList
  | .setOpFeedback => "SET_OP_FEEDBACK".toList
  | .toggleOp => "TOGGLE_OP".toList

/-- The IDX operand of a command: a note, an index, or none (30_encoding.md R72, R78). -/
def idxOperand? (o : Opcode) (ops : List (List Char)) : Option (BitVec 8 × List (List Char)) :=
  match o.idxUse, ops with
  | .none, rest => some (0, rest)
  | .note, x :: rest => (note? x).map fun n => (0#1 ++ n, rest)
  | .index, x :: rest => (index? x).map fun i => (i, rest)
  | _, [] => none

/-- The VAL operand of a command, or +0.0 when it has none; no operand may be left (30_encoding.md R73, R78). -/
def valOperand? (o : Opcode) (ops : List (List Char)) : Option F32 :=
  match o.usesVal, ops with
  | false, [] => some F32.posZero
  | true, [x] => float? x
  | _, _ => none

/-- A command with the operands given; its value must be finite (30_encoding.md R73). -/
def command? (o : Opcode) (ops : List (List Char)) : Option Instr :=
  match idxOperand? o ops with
  | some (idx, rest) =>
    match valOperand? o rest with
    | some x => if (o.build idx x).wellFormed then some (o.build idx x) else none
    | none => none
  | none => none

/-- A pseudo-instruction with the operands given (30_encoding.md R79). -/
def pseudo? (name : List Char) (ops : List (List Char)) : Option Pseudo :=
  if name = "SAMPLES".toList then
    match ops with
    | [k] => (integer? k).map Pseudo.samples
    | _ => none
  else if name = "SET_ADSR".toList then
    match ops.map float? with
    | [some a, some d, some s, some r] => some (.setAdsr a d s r)
    | _ => none
  else none

/-- The operands of a line: none when nothing stands after the mnemonic, else the pieces between commas. -/
def operands (l : List Char) : List (List Char) :=
  if trim l = [] then [] else (splitAt ',' l).map trim

/-- The commands of one line: none for a blank or comment line, one for a command, the expansion of a
pseudo-instruction (30_encoding.md R78, R79). -/
def line? (l : List Char) : Option (List Instr) :=
  let body := trim (l.takeWhile (fun c => c ≠ ';'))
  let name := body.takeWhile (fun c => !isBlank c)
  let ops := operands (body.dropWhile (fun c => !isBlank c))
  if body = [] then some []
  else match Opcode.all.find? (fun o => mnemonic o = name) with
  | some o => (command? o ops).map fun i => [i]
  | none =>
    match pseudo? name ops with
    | some p => if p.wellFormed then some p.expand else none
    | none => none

/-- The commands of a program text; none if a line is not of the form of 30_encoding.md R78, R79. -/
def assemble? (text : List Char) : Option (List Instr) :=
  ((splitAt '\n' text).mapM line?).map List.flatten

/-- The command words of a program text. -/
def words? (text : List Char) : Option (List Word64) := (assemble? text).map fun is => is.map encode

end Sys2Proof.Machine.Assembly
end

