-- ==== Sys2Proof/Safety.lean ====
section
/-! DEFINITION. The terms claims are stated in: the reserved words of 30_encoding.md R75, the legal values of the state
fields (10_state.md R24-R35), the invariant of the block, and runs of a command stream. -/

namespace Sys2Proof.Machine

/-! Words. -/

/-- One row of spec/opcode_table.json: `mask`, `match`, and whether VAL is used. -/
structure TableRow where
  mask : Word64
  pattern : Word64
  usesVal : Bool
  deriving DecidableEq, Repr

/-- spec/opcode_table.json, in its order. -/
def tableRows : List TableRow :=
  [⟨0xFF80FFFF00000000#64, 0x0100000000000000#64, true⟩, ⟨0xFF80FFFFFFFFFFFF#64, 0x0200000000000000#64, false⟩,
   ⟨0xFFFFFFFFFFFFFFFF#64, 0x0300000000000000#64, false⟩, ⟨0xFFFFFFFFFFFFFFFF#64, 0x0400000000000000#64, false⟩,
   ⟨0xFFFFFFFF00000000#64, 0x1000000000000000#64, true⟩, ⟨0xFFFFFFFF00000000#64, 0x1100000000000000#64, true⟩,
   ⟨0xFFFFFFFF00000000#64, 0x1200000000000000#64, true⟩, ⟨0xFFFFFFFF00000000#64, 0x1300000000000000#64, true⟩,
   ⟨0xFFFFFFFF00000000#64, 0x1400000000000000#64, true⟩] ++
  [⟨0xFFFFFFFF00000000#64, 0x1500000000000000#64, true⟩, ⟨0xFFFFFFFF00000000#64, 0x1600000000000000#64, true⟩,
   ⟨0xFFFFFFFF00000000#64, 0x1700000000000000#64, true⟩, ⟨0xFF00FFFF00000000#64, 0x2000000000000000#64, true⟩,
   ⟨0xFF00FFFFFFFFFFFF#64, 0x2100000000000000#64, false⟩, ⟨0xFF00FFFF00000000#64, 0x2800000000000000#64, true⟩,
   ⟨0xFF00FFFF00000000#64, 0x2900000000000000#64, true⟩, ⟨0xFF00FFFF00000000#64, 0x2A00000000000000#64, true⟩,
   ⟨0xFF00FFFFFFFFFFFF#64, 0x2B00000000000000#64, false⟩]

/-- The opcodes 30_encoding.md R75 item 1 lists as reserved. -/
def reservedOpc (c : Nat) : Prop :=
  c = 0x00 ∨ (0x05 ≤ c ∧ c ≤ 0x0F) ∨ (0x18 ≤ c ∧ c ≤ 0x1F) ∨ (0x22 ≤ c ∧ c ≤ 0x27) ∨ 0x2C ≤ c

/-- Items 1 to 5 and 7 of 30_encoding.md R75: the word breaks its format or its port. -/
def reservedForm (port : Port) (w : Word64) : Prop :=
  let opc := (w.extractLsb' 56 8).toNat
  reservedOpc opc ∨
  w.extractLsb' 32 16 ≠ 0 ∨
  (w.extractLsb' 48 8 ≠ 0 ∧ (opc = 0x03 ∨ opc = 0x04 ∨ (0x10 ≤ opc ∧ opc ≤ 0x17))) ∨
  (w.extractLsb' 55 1 = 1 ∧ (opc = 0x01 ∨ opc = 0x02)) ∨
  (w.extractLsb' 0 32 ≠ 0 ∧ (opc = 0x02 ∨ opc = 0x03 ∨ opc = 0x04 ∨ opc = 0x21 ∨ opc = 0x2B)) ∨
  (port = .sample ∧ opc ≠ 0x03)

/-- Item 6 of 30_encoding.md R75: VAL is used and its exponent field says NaN or infinite. -/
def nonFiniteVal (w : Word64) : Prop :=
  let opc := (w.extractLsb' 56 8).toNat
  w.extractLsb' 23 8 = 0xFF#8 ∧
  (opc = 0x01 ∨ (0x10 ≤ opc ∧ opc ≤ 0x17) ∨ opc = 0x20 ∨ opc = 0x28 ∨ opc = 0x29 ∨ opc = 0x2A)

/-! Values. -/

/-- `lo <= x <= hi`, so not NaN. -/
abbrev InRange (lo hi x : F32) : Prop := lo.le x = true ∧ x.le hi = true

/-- In [0,1] (10_state.md R35). -/
abbrev InUnit (x : F32) : Prop := InRange F32.posZero F32.one x

/-- In [0,1) or NaN (10_state.md R24). -/
abbrev PhaseOk (x : F32) : Prop := x = .nan ∨ (F32.posZero.le x = true ∧ x.lt F32.one = true)

/-- The voice parameter set a voice holds (10_state.md R31). -/
def Voice.paramSet (v : Voice) : VoiceParams where
  blend := v.blend
  harm := Vector.ofFn fun i => ⟨v.add.harm[i].amp, v.add.harm[i].en⟩
  op := v.fm.op
  A := v.env.A
  D := v.env.D
  S := v.env.S
  R := v.env.R
  cutoff := v.flt.cutoff
  q := v.flt.q

/-- The column "legal after write" of 10_state.md R35, for a parameter set. -/
abbrev LegalParamSet (sr : F32) (P : VoiceParams) : Prop :=
  InUnit P.blend ∧ InRange F32.twenty (nyquist sr) P.cutoff ∧ InUnit P.q ∧ InUnit P.S ∧
  (P.A.isFinite = true ∧ P.D.isFinite = true ∧ P.R.isFinite = true) ∧
  (∀ i : Fin nHarm, (P.harm[i]).amp.isFinite = true) ∧
  (∀ i : Fin nOp, (P.op[i]).ratio.isFinite = true ∧ (P.op[i]).amp.isFinite = true ∧ (P.op[i]).fbk.isFinite = true)

/-- The additive engine at the base frequency `base`: constant multipliers, derived amplitudes and frequencies, phases
in range (10_state.md R24, R25; 41_additive.md R120, R121). -/
abbrev LegalAdditive (base : F32) (a : Additive) : Prop :=
  ∀ i : Fin nHarm, (a.harm[i]).mult = F32.ofInt (i.val + 1) ∧
    (a.osc[i]).amp = (if (a.harm[i]).en then (a.harm[i]).amp else F32.posZero) ∧
    (a.osc[i]).freq = base.mul (F32.ofInt (i.val + 1)) ∧ PhaseOk (a.osc[i]).phase

/-- The FM engine: oscillator amplitude 1.0, frequency from the base and the ratio, phases in range (10_state.md R24,
R26; 42_fm.md R140, R141, R145). -/
abbrev LegalFm (m : Fm) : Prop :=
  ∀ i : Fin nOp, (m.osc[i]).amp = F32.one ∧ (m.osc[i]).freq = m.base.mul (m.op[i]).ratio ∧ PhaseOk (m.osc[i]).phase

/-- The envelope: time not negative, last output in [0,1], and the gate is true exactly in Attack, Decay and Sustain
(44_envelope.md R174-R180, R183). -/
abbrev LegalEnv (e : Env) : Prop :=
  F32.posZero.le e.elapsed = true ∧ InUnit e.value ∧
  e.gate = decide (e.stage = .attack ∨ e.stage = .decay ∨ e.stage = .sustain)

/-- An allocated voice: legal parameters, velocity in [0,1], legal components, and active exactly while the gate is
true (46_voice.md R222, R223). -/
abbrev LegalVoice (sr : F32) (v : Voice) : Prop :=
  LegalParamSet sr v.paramSet ∧ InUnit v.velocity ∧ LegalAdditive v.fm.base v.add ∧ LegalFm v.fm ∧ LegalEnv v.env ∧
  v.active = v.env.gate

/-- `LegalParamSet` as a test. -/
def VoiceParams.legal (sr : F32) (P : VoiceParams) : Bool := decide (LegalParamSet sr P)

/-- `LegalVoice` as a test. -/
def Voice.legal (sr : F32) (v : Voice) : Bool := decide (LegalVoice sr v)

/-- The invariant of the block: legal configuration, volume, template and voices (10_state.md R20-R35). -/
abbrev State.Inv (s : State) : Prop :=
  legalParams s.params = true ∧ InUnit s.volume ∧ s.tmpl.legal s.params.sr = true ∧
  ∀ n : Fin nSlot, ∀ v ∈ s.slots[n], v.legal s.params.sr = true

/-- Under P_NEW_VOICE_INIT = CURRENT every allocated voice holds the template's parameters (47_commands.md R245, R255;
70_reset_and_hazards.md R331). -/
abbrev State.TemplateShared (s : State) : Prop :=
  s.params.newVoiceInit = .current → ∀ n : Fin nSlot, ∀ v ∈ s.slots[n], v.paramSet = s.tmpl

/-- The filter of the voice in slot n is poisoned: its last output was NaN (45_filter.md R205). -/
abbrev State.Poisoned (s : State) (n : Fin nSlot) : Prop := ∃ v, s.slots[n] = some v ∧ v.flt.buf0 = .nan

/-! Frames and runs. -/

/-- Everything but the voice pool and the template is as before. -/
abbrev SameOutsideVoices (s t : State) : Prop :=
  t.params = s.params ∧ t.volume = s.volume ∧ t.pending = s.pending ∧ t.responses = s.responses ∧ t.draws = s.draws

/-- The outcome of a global setter (47_commands.md R245): every allocated slot changed by `onVoice`, the template
changed by `onTmpl` under CURRENT only, everything else as before. -/
abbrev BroadcastOutcome (s t : State) (onVoice : Voice → Voice) (onTmpl : VoiceParams → VoiceParams) : Prop :=
  (∀ n : Fin nSlot, t.slots[n] = (s.slots[n]).map onVoice) ∧
  (s.params.newVoiceInit = .current → t.tmpl = onTmpl s.tmpl) ∧
  (s.params.newVoiceInit = .defaults → t.tmpl = s.tmpl) ∧
  SameOutsideVoices s t

/-- `t` is reached from `s` by the commands of the list, each applied by exec, in order (20_memory.md R58). -/
def Applied : List Instr → State → State → Prop
  | [], s, t => t = s
  | i :: is, s, t => ∃ u, exec i s = .next u ∧ Applied is u t

/-- The exact value of a finite datum in units of 2^-149; 0 for the others. -/
def exactUnits : F32 → Int
  | .fin s e f => F32.signed s (F32.units e f)
  | _ => 0

/-- The exact magnitude, in units of 2^-149, from which roundTiesToEven gives an infinity: half a step above the
largest finite value. -/
def overflowUnits : Nat := (2 ^ 25 - 1) * 2 ^ 252

end Sys2Proof.Machine
end

