-- ==== Sys2Proof/Certificates/Slice0/Obligations.lean ====
section
/-! DEFINITION. The statements for the provers. Each docstring names the rules of spec/ it formalises; "log <n>" is
notes/assumptions/<n>.md. A slot is written `s.slots[n]`: `none` is an unallocated slot (10_state.md R21, log 10). -/

open Sys2Proof Sys2Proof.Machine

/-! ## Words -/

/-- 30_encoding.md R80: every example word stands for its command, in both directions; the reserved examples are
refused; the bytes of `NOTE_ON 69, 1.0` in the order sent. -/
def Obligations.SpecExampleWordsDecode : Prop :=
  decodeWord .command 0x014500003F800000#64 = .ok (.noteOn 69#7 F32.one) ∧
  decodeWord .command 0x013C00003F4CCCCD#64 = .ok (.noteOn 60#7 (F32.round false (8 * 2 ^ 149) 10)) ∧
  decodeWord .command 0x023C000000000000#64 = .ok (.noteOff 60#7) ∧
  decodeWord .command 0x0300000000000000#64 = .ok .sample ∧
  decodeWord .command 0x0400000000000000#64 = .ok .queryPlaying ∧
  decodeWord .command 0x110000003F000000#64 = .ok (.setBlend F32.half) ∧
  decodeWord .command 0x12000000462C4400#64 = .ok (.setCutoff (F32.ofInt 11025)) ∧
  decodeWord .command 0x130000003F800000#64 = .ok (.setResonance F32.one) ∧
  decodeWord .command 0x1400000000000000#64 = .ok (.setAttack F32.posZero) ∧
  decodeWord .command 0x160000003F000000#64 = .ok (.setSustain F32.half) ∧
  decodeWord .command 0x200000003F800000#64 = .ok (.setHarmAmp 0#8 F32.one) ∧
  decodeWord .command 0x2140000000000000#64 = .ok (.toggleHarm 64#8) ∧
  decodeWord .command 0x2A0000003F000000#64 = .ok (.setOpFeedback 0#8 F32.half) ∧
  decodeWord .command 0x2B01000000000000#64 = .ok (.toggleOp 1#8) ∧
  encode (.noteOn 69#7 F32.one) = 0x014500003F800000#64 ∧
  encode (.noteOn 60#7 (F32.round false (8 * 2 ^ 149) 10)) = 0x013C00003F4CCCCD#64 ∧
  encode (.noteOff 60#7) = 0x023C000000000000#64 ∧
  encode .sample = 0x0300000000000000#64 ∧
  encode .queryPlaying = 0x0400000000000000#64 ∧
  encode (.setBlend F32.half) = 0x110000003F000000#64 ∧
  encode (.setCutoff (F32.ofInt 11025)) = 0x12000000462C4400#64 ∧
  encode (.setResonance F32.one) = 0x130000003F800000#64 ∧
  encode (.setAttack F32.posZero) = 0x1400000000000000#64 ∧
  encode (.setSustain F32.half) = 0x160000003F000000#64 ∧
  encode (.setHarmAmp 0#8 F32.one) = 0x200000003F800000#64 ∧
  encode (.toggleHarm 64#8) = 0x2140000000000000#64 ∧
  encode (.setOpFeedback 0#8 F32.half) = 0x2A0000003F000000#64 ∧
  encode (.toggleOp 1#8) = 0x2B01000000000000#64 ∧
  decodeWord .command 0x0000000000000000#64 = .error .reservedEncoding ∧
  decodeWord .command 0x01C5000000000000#64 = .error .reservedEncoding ∧
  decodeWord .command 0x110000007FC00000#64 = .error .nonFiniteOperand ∧
  decodeWord .command 0x0300000100000000#64 = .error .reservedEncoding ∧
  bytesOfWord 0x014500003F800000#64 = [0x00#8, 0x00#8, 0x80#8, 0x3F#8, 0x00#8, 0x00#8, 0x45#8, 0x01#8]

/-- Every well-formed command, sent whole and in time on the command port, decodes to itself (30_encoding.md R71-R76,
20_memory.md R52). -/
def Obligations.DecodeInvertsEncode : Prop :=
  ∀ i : Instr, i.wellFormed = true → decodeTransfer (wordTransfer .command (encode i)) = .ok i

/-- A word that decodes, on either port, is the word of a well-formed command (30_encoding.md R71-R76). -/
def Obligations.EncodeInvertsDecode : Prop :=
  ∀ (port : Port) (w : Word64) (i : Instr), decodeWord port w = .ok i → i.wellFormed = true ∧ encode i = w

/-- A word on the command port is accepted exactly when it matches a row of spec/opcode_table.json, with a finite VAL
where the row uses VAL (30_encoding.md R74, R75; the masks of 47_commands.md R241-R259). -/
def Obligations.AcceptedWordsAreTheTableRows : Prop :=
  ∀ w : Word64, (∃ i, decodeWord .command w = .ok i) ↔
    ∃ row ∈ tableRows, w &&& row.mask = row.pattern ∧ (row.usesVal = true → w.extractLsb' 23 8 ≠ 0xFF#8)

/-- 30_encoding.md R75: the reserved words are exactly those of its seven items; a block that is sent one refuses it,
whatever its state, so there is no state after it and no response. -/
def Obligations.ReservedWordsAreRefused : Prop :=
  ∀ (port : Port) (w : Word64) (s : State) (rest : List Transfer), s.pending = wordTransfer port w :: rest →
    ((reservedForm port w ∨ nonFiniteVal w) ↔
      (step s = .refused .reservedEncoding ∨ step s = .refused .nonFiniteOperand))

/-- 60_exceptions.md R304: the reason is the first failing line of 30_encoding.md R76, so a word is refused for its
operand only when nothing else is wrong with it. -/
def Obligations.RefusalReasonIsTheFirstFailingLine : Prop :=
  ∀ (port : Port) (w : Word64),
    (decodeWord port w = .error .reservedEncoding ↔ reservedForm port w) ∧
    (decodeWord port w = .error .nonFiniteOperand ↔ ¬ reservedForm port w ∧ nonFiniteVal w) ∧
    decodeWord port w ≠ .error .hostProtocol

/-- The sample port accepts the word of SAMPLE and no other (30_encoding.md R74, R75 item 7). -/
def Obligations.SamplePortAcceptsOnlySample : Prop :=
  ∀ (w : Word64) (i : Instr), decodeWord .sample w = .ok i ↔ (w = 0x0300000000000000#64 ∧ i = .sample)

/-- A transfer that is not 8 bytes long, or began before the previous transaction had been applied, is refused as
HostProtocol and leaves no next state (20_memory.md R53, 70_reset_and_hazards.md R336). Two clauses are the model's
choice: that a longer transfer is refused too (log 6), and that an overlap is a flag of the transfer, refused before its
bytes are looked at, so for an overlapping word that is also reserved (log 5). -/
def Obligations.PartialOrOverlappingTransferIsRefused : Prop :=
  ∀ (s : State) (t : Transfer) (rest : List Transfer), s.pending = t :: rest →
    (t.bytes.length ≠ 8 ∨ t.overlaps = true) → step s = .refused .hostProtocol

/-- 30_encoding.md R79: the two pseudo-instructions expand to their commands. -/
def Obligations.PseudoInstructionsExpand : Prop :=
  (∀ k, 1 ≤ k → (Pseudo.samples k).expand.length = k ∧ ∀ i ∈ (Pseudo.samples k).expand, i = .sample) ∧
  ∀ a d s r, (Pseudo.setAdsr a d s r).expand = [.setAttack a, .setDecay d, .setSustain s, .setRelease r]

/-- The text of program P1 of 95_test_vectors.md assembles to its words (30_encoding.md R78, R79; what R78 leaves open
is log 18). -/
def Obligations.ProgramTextAssembles : Prop :=
  Assembly.words? ("NOTE_ON 69, 1.0      ; 0x014500003F800000\n" ++
      "SAMPLES 2            ; 0x0300000000000000 x 2  -> 0x3374E74F, 0x34AF5627\n" ++
      "NOTE_OFF 69          ; 0x0245000000000000\n" ++
      "SET_RELEASE 0.0      ; 0x1700000000000000\n" ++
      "SAMPLE               ; 0x0300000000000000      -> 0x350D5482\n" ++
      "QUERY_PLAYING        ; 0x0400000000000000      -> 0x00000000").toList =
    some [0x014500003F800000#64, 0x0300000000000000#64, 0x0300000000000000#64, 0x0245000000000000#64,
      0x1700000000000000#64, 0x0300000000000000#64, 0x0400000000000000#64]

/-! ## Steps and streams -/

/-- A step takes the first pending transfer; when it decodes to a command, the step is that command's meaning on the
state without the transfer (47_commands.md R240, 20_memory.md R58). -/
def Obligations.StepRunsTheDecodedCommand : Prop :=
  ∀ (s : State) (t : Transfer) (rest : List Transfer) (i : Instr), s.pending = t :: rest →
    decodeTransfer t = .ok i → step s = exec i { s with pending := rest }

/-- The word the host stores next is the one the next step runs (log 4). -/
def Obligations.StoredWordRunsNext : Prop :=
  ∀ (s : State) (i : Instr), i.wellFormed = true →
    step (s.withFetchWord 64 (encode i).toNat) = exec i s

/-- 60_exceptions.md R314: with no transaction, every state field holds its value. -/
def Obligations.IdleBlockHoldsItsState : Prop :=
  ∀ s : State, s.pending = [] → step s = .next s

/-- Every step of a stream of well-formed commands is taken, and the state after it is the result of applying the
commands one after the other (20_memory.md R58). -/
def Obligations.StreamIsAppliedInOrder : Prop :=
  ∀ (is : List Instr) (s : State), (∀ i ∈ is, i.wellFormed = true) →
    ∃ t, core.run is.length { s with pending := is.map fun i => wordTransfer .command (encode i) } = .next t ∧
      t.pending = [] ∧ Applied is { s with pending := [] } t

/-- 60_exceptions.md R300, 47_commands.md R240: no accepted command can fail, stall or trap. -/
def Obligations.NoAcceptedCommandFails : Prop :=
  ∀ (i : Instr) (s : State), ∃ t, exec i s = .next t

/-- 70_reset_and_hazards.md R334: no transaction changes a parameter; nor does a command change what is still
pending. -/
def Obligations.NoCommandWritesTheConfiguration : Prop :=
  ∀ (i : Instr) (s t : State), exec i s = .next t → t.params = s.params ∧ t.pending = s.pending

/-- 30_encoding.md R74, R77, 47_commands.md R240, R243, R244: SAMPLE and QUERY_PLAYING return one response word each, no
other command does; 20_memory.md R51: the command port returns a word for QUERY_PLAYING only, the sample port for
SAMPLE. That a SAMPLE sent on the command port is answered too, and on the sample port, is the model's choice (log 7).
-/
def Obligations.OnlySampleAndQueryRespond : Prop :=
  ∀ (i : Instr) (s t : State), exec i s = .next t →
    (i = .sample → ∃ w, t.responses = ⟨.sample, w⟩ :: s.responses) ∧
    (i = .queryPlaying → ∃ w, t.responses = ⟨.command, w⟩ :: s.responses) ∧
    (i ≠ .sample → i ≠ .queryPlaying → t.responses = s.responses)

/-- 10_state.md R21, 47_commands.md R241-R243: a slot is allocated by the first NOTE_ON of its note and by nothing
else, and is never freed. -/
def Obligations.OnlyNoteOnAllocates : Prop :=
  ∀ (i : Instr) (s t : State), exec i s = .next t → ∀ n : Fin nSlot,
    ((s.slots[n]).isSome = true → (t.slots[n]).isSome = true) ∧
    ((s.slots[n]).isSome = false → (t.slots[n]).isSome = true → ∃ note vel, i = .noteOn note vel ∧ noteSlot note = n)

/-- 47_commands.md R241: COUNT grows by one on the first NOTE_ON of a note, is kept by its later ones, and is at most
128. -/
def Obligations.CountGrowsOnFirstNoteOn : Prop :=
  ∀ (note : BitVec 7) (vel : F32) (s t : State), exec (.noteOn note vel) s = .next t →
    (s.slots[noteSlot note] = none → count t = count s + 1) ∧
    (s.slots[noteSlot note] ≠ none → count t = count s) ∧ count t ≤ 128

/-- A command reaches slot n only through the configuration, the template and slot n itself: two blocks that agree on
these agree on them afterwards, whatever their other voices, volume, order draws and responses are
(10_state.md R22, 47_commands.md R243, R245). -/
def Obligations.SlotsDoNotInterfere : Prop :=
  ∀ (i : Instr) (s t s' t' : State) (n : Fin nSlot), s.params = t.params → s.tmpl = t.tmpl → s.slots[n] = t.slots[n] →
    exec i s = .next s' → exec i t = .next t' → s'.slots[n] = t'.slots[n] ∧ s'.tmpl = t'.tmpl

/-! ## Reset -/

/-- 70_reset_and_hazards.md R330, 10_state.md R31: after reset the pool is empty, the volume is the clamped default and
the template is the default parameter set, for every configuration. -/
def Obligations.ResetIsAnEmptyPool : Prop :=
  ∀ p : Params, let s := State.resetWith p
    s.params = p ∧ (∀ n : Fin nSlot, s.slots[n] = none) ∧ count s = 0 ∧
    s.volume = clamp p.defaultVolume F32.posZero F32.one ∧
    s.tmpl.blend = F32.half ∧ s.tmpl.harm = p.harmInit ∧
    s.tmpl.op[0] = ⟨F32.one, F32.one, F32.posZero, true⟩ ∧
    (∀ i : Fin nOp, i.val ≠ 0 → s.tmpl.op[i] = ⟨F32.posZero, F32.posZero, F32.posZero, false⟩) ∧
    s.tmpl.A = F32.ofBits 0x3C23D70A#32 ∧ s.tmpl.D = p.defaultDecay ∧ s.tmpl.S = p.defaultSustain ∧
    s.tmpl.R = p.defaultRelease ∧
    s.tmpl.cutoff = clamp p.defaultCutoff F32.twenty (p.sr.div F32.two) ∧
    (legalParams p = true → s.tmpl.q = p.defaultResonance)

/-- 70_reset_and_hazards.md R332: from reset a SAMPLE returns +0.0 and a QUERY_PLAYING returns 0 (State.reset has the
default configuration of 00_scope.md R5, log 2; the response list is the model's own, empty at
reset, and holds the answer to a SAMPLE as the sample port's, log 7). -/
def Obligations.EmptyBlockAnswersZero : Prop :=
  (∃ t, step (State.reset.withFetchWord 64 0x0300000000000000) = .next t ∧ t.responses = [⟨.sample, 0x00000000#32⟩]) ∧
  (∃ t, step (State.reset.withFetchWord 64 0x0400000000000000) = .next t ∧ t.responses = [⟨.command, 0x00000000#32⟩])

/-! ## Note, sample and query commands -/

/-- 47_commands.md R241, 46_voice.md R222, on an allocated slot: the note is re-triggered. Velocity, frequencies,
derived amplitudes, envelope gate, stage and elapsed time, and the active flag are written; the phases, buffers, taps,
parameters and last envelope value keep what the slot's previous note left. -/
def Obligations.NoteOnRetriggersAnAllocatedSlot : Prop :=
  ∀ (note : BitVec 7) (vel : F32) (s : State) (v : Voice), s.slots[noteSlot note] = some v →
    let f := F32.a4Freq.mul (s.config.exp2_32 ((F32.ofInt ((note.toNat : Int) - 69)).div (F32.ofInt 12)))
    ∃ t w, exec (.noteOn note vel) s = .next t ∧ t.slots[noteSlot note] = some w ∧
      w.velocity = clamp vel F32.posZero F32.one ∧ w.active = true ∧
      w.env = { v.env with gate := true, stage := .attack, elapsed := F32.posZero } ∧
      w.blend = v.blend ∧ w.flt = v.flt ∧ w.add.harm = v.add.harm ∧
      (∀ i : Fin nHarm, w.add.osc[i] =
        ⟨(v.add.osc[i]).phase, f.mul (v.add.harm[i]).mult,
          if (v.add.harm[i]).en then (v.add.harm[i]).amp else F32.posZero⟩) ∧
      w.fm.op = v.fm.op ∧ w.fm.fbuf = v.fm.fbuf ∧ w.fm.base = f ∧
      (∀ i : Fin nOp, w.fm.osc[i] = ⟨(v.fm.osc[i]).phase, f.mul (v.fm.op[i]).ratio, (v.fm.osc[i]).amp⟩) ∧
      (∀ m : Fin nSlot, m ≠ noteSlot note → t.slots[m] = s.slots[m]) ∧ t.tmpl = s.tmpl ∧ SameOutsideVoices s t

/-- 47_commands.md R241, 70_reset_and_hazards.md R331, 46_voice.md R222, on an unallocated slot: the slot is allocated
with the default parameter set, or the template under CURRENT, in the state of R331, and the note is triggered. -/
def Obligations.NoteOnAllocatesAFreshVoice : Prop :=
  ∀ (note : BitVec 7) (vel : F32) (s : State), s.slots[noteSlot note] = none →
    let f := F32.a4Freq.mul (s.config.exp2_32 ((F32.ofInt ((note.toNat : Int) - 69)).div (F32.ofInt 12)))
    let P := if s.params.newVoiceInit = .current then s.tmpl else (State.resetWith s.params).tmpl
    ∃ t w, exec (.noteOn note vel) s = .next t ∧ t.slots[noteSlot note] = some w ∧
      w.velocity = clamp vel F32.posZero F32.one ∧ w.active = true ∧ w.blend = P.blend ∧
      (∀ i : Fin nHarm, w.add.harm[i] = ⟨F32.ofInt (i.val + 1), (P.harm[i]).amp, (P.harm[i]).en⟩) ∧
      (∀ i : Fin nHarm, w.add.osc[i] =
        ⟨F32.posZero, f.mul (F32.ofInt (i.val + 1)), if (P.harm[i]).en then (P.harm[i]).amp else F32.posZero⟩) ∧
      w.fm.op = P.op ∧ w.fm.base = f ∧ (∀ i : Fin nOp, w.fm.fbuf[i] = F32.posZero) ∧
      (∀ i : Fin nOp, w.fm.osc[i] = ⟨F32.posZero, f.mul (P.op[i]).ratio, F32.one⟩) ∧
      w.env = ⟨P.A, P.D, P.S, P.R, .attack, F32.posZero, F32.posZero, true⟩ ∧
      w.flt = ⟨P.cutoff, P.q, F32.posZero, F32.posZero⟩ ∧
      (∀ m : Fin nSlot, m ≠ noteSlot note → t.slots[m] = s.slots[m]) ∧ t.tmpl = s.tmpl ∧ SameOutsideVoices s t

/-- 47_commands.md R242, 46_voice.md R223: NOTE_OFF puts the note's voice into Release with the gate and the active
flag false, and does nothing when the slot is not allocated. -/
def Obligations.NoteOffReleasesOrDoesNothing : Prop :=
  ∀ (note : BitVec 7) (s : State),
    (∀ v, s.slots[noteSlot note] = some v → ∃ t, exec (.noteOff note) s = .next t ∧
      t.slots[noteSlot note] = some { v with
        active := false
        env := { v.env with gate := false, stage := .release, elapsed := F32.posZero } } ∧
      (∀ m : Fin nSlot, m ≠ noteSlot note → t.slots[m] = s.slots[m]) ∧ t.tmpl = s.tmpl ∧ SameOutsideVoices s t) ∧
    (s.slots[noteSlot note] = none → exec (.noteOff note) s = .next s)

/-- 47_commands.md R243: SAMPLE adds every allocated voice's VOICE_NEXT exactly once, in some order, divides by COUNT
or by the number of active voices unless that is 0, multiplies by the volume, and returns the bits of the result (a
NaN as a quiet NaN); every allocated voice advances, and nothing else is written but the draw counter (log 8). Two
points are the model's reading: the response is the sample port's whichever port the SAMPLE came on (log 7), and with no
voice and the volume -0.0 the product is -0.0, where R243's corner case writes +0.0 (log 21). -/
def Obligations.SampleMixesEveryVoiceOnce : Prop :=
  ∀ s : State, ∃ (t : State) (order : List (Fin nSlot)) (nanBits : BitVec 23), exec .sample s = .next t ∧
    order.Nodup ∧ (∀ n, n ∈ order ↔ (s.slots[n]).isSome = true) ∧
    (let y := fun n : Fin nSlot => ((s.slots[n]).map fun v => (voiceNext s.config v).2).getD F32.posZero
     let sum := order.foldl (fun acc n => acc.add (y n)) F32.posZero
     let d : Nat := match s.params.mixDivisor with
       | .total => order.length
       | .active => (order.filter fun n => (s.slots[n]).any (·.active)).length
     let out := (if d = 0 then sum else sum.div (F32.ofInt d)).mul s.volume
     t.responses = ⟨.sample, out.toBits nanBits⟩ :: s.responses) ∧
    (∀ n : Fin nSlot, t.slots[n] = (s.slots[n]).map fun v => (voiceNext s.config v).1) ∧
    t.params = s.params ∧ t.volume = s.volume ∧ t.tmpl = s.tmpl ∧ t.pending = s.pending

/-- The draw behind the mix order leaves every order open: each permutation of the voices is chosen by some draw
(47_commands.md R243; the form of the draw is log 8). -/
def Obligations.EveryMixOrderCanBeDrawn : Prop :=
  ∀ l l' : List (Fin nSlot), List.Perm l' l ↔ ∃ pick : Nat → Nat, permuteBy pick l = l'

/-- 47_commands.md R244, 10_state.md R30: QUERY_PLAYING returns 1 exactly when some allocated voice is active or not
Idle, 0 otherwise, and writes no state. -/
def Obligations.QueryPlayingReportsUnreleasedVoices : Prop :=
  ∀ s : State, ∃ w : Word32, exec .queryPlaying s = .next { s with responses := ⟨.command, w⟩ :: s.responses } ∧
    ((∃ n : Fin nSlot, ∃ v, s.slots[n] = some v ∧ ¬ (v.active = false ∧ v.env.stage = .idle)) → w = 1#32) ∧
    ((¬ ∃ n : Fin nSlot, ∃ v, s.slots[n] = some v ∧ ¬ (v.active = false ∧ v.env.stage = .idle)) → w = 0#32)

/-- 46_voice.md R223: a NOTE_OFF to an allocated voice, a released one too, makes PLAYING true; so does every NOTE_ON
(47_commands.md R241), whatever its velocity. -/
def Obligations.NoteCommandsMakeTheBlockPlay : Prop :=
  (∀ (note : BitVec 7) (s t : State), (s.slots[noteSlot note]).isSome = true → exec (.noteOff note) s = .next t →
    playing t = true) ∧
  ∀ (note : BitVec 7) (vel : F32) (s t : State), exec (.noteOn note vel) s = .next t → playing t = true

/-! ## Setters -/

/-- 47_commands.md R246: SET_VOLUME stores the clamped value in the block register and writes nothing else. -/
def Obligations.SetVolumeClampsTheVolume : Prop :=
  ∀ (x : F32) (s : State), exec (.setVolume x) s = .next { s with volume := clamp x F32.posZero F32.one }

/-- 47_commands.md R247-R249, R252: blend, resonance and sustain are stored clamped to [0,1] and the cutoff clamped to
[20, SR/2], in every allocated voice and, under CURRENT, in the template; nothing else changes. That the template keeps
its value under DEFAULTS is the model's reading of R245 against 10_state.md R20 and R35 (log 14). -/
def Obligations.ClampedSettersBroadcast : Prop :=
  ∀ (x : F32) (s : State),
    (∃ t, exec (.setBlend x) s = .next t ∧
      BroadcastOutcome s t (fun v => { v with blend := clamp x F32.posZero F32.one })
        (fun P => { P with blend := clamp x F32.posZero F32.one })) ∧
    (∃ t, exec (.setCutoff x) s = .next t ∧
      BroadcastOutcome s t
        (fun v => { v with flt := { v.flt with cutoff := clamp x F32.twenty (s.params.sr.div F32.two) } })
        (fun P => { P with cutoff := clamp x F32.twenty (s.params.sr.div F32.two) })) ∧
    (∃ t, exec (.setResonance x) s = .next t ∧
      BroadcastOutcome s t (fun v => { v with flt := { v.flt with q := clamp x F32.posZero F32.one } })
        (fun P => { P with q := clamp x F32.posZero F32.one })) ∧
    (∃ t, exec (.setSustain x) s = .next t ∧
      BroadcastOutcome s t (fun v => { v with env := { v.env with S := clamp x F32.posZero F32.one } })
        (fun P => { P with S := clamp x F32.posZero F32.one }))

/-- 47_commands.md R250, R251, R253: attack, decay and release times are stored as given in every allocated voice and,
under CURRENT, in the template; nothing else changes. That the template keeps its value under DEFAULTS is the model's
reading of R245 against 10_state.md R20 and R35 (log 14). -/
def Obligations.TimeSettersBroadcast : Prop :=
  ∀ (x : F32) (s : State),
    (∃ t, exec (.setAttack x) s = .next t ∧
      BroadcastOutcome s t (fun v => { v with env := { v.env with A := x } }) (fun P => { P with A := x })) ∧
    (∃ t, exec (.setDecay x) s = .next t ∧
      BroadcastOutcome s t (fun v => { v with env := { v.env with D := x } }) (fun P => { P with D := x })) ∧
    (∃ t, exec (.setRelease x) s = .next t ∧
      BroadcastOutcome s t (fun v => { v with env := { v.env with R := x } }) (fun P => { P with R := x }))

/-- 47_commands.md R254, R255, 41_additive.md R122, R123, for an index below 64: the harmonic's amplitude is stored as
given, or its enable bit negated, and that harmonic's oscillator amplitude is derived anew; nothing else changes. That
the template keeps its value under DEFAULTS is the model's reading of R245 against 10_state.md R20 and R35 (log 14). -/
def Obligations.HarmonicCommandsWriteOneHarmonic : Prop :=
  ∀ (i : BitVec 8) (h : i.toNat < 64) (a : F32) (s : State),
    (∃ t, exec (.setHarmAmp i a) s = .next t ∧
      BroadcastOutcome s t
        (fun v => { v with add :=
          { harm := v.add.harm.set i.toNat { v.add.harm[i.toNat] with amp := a }
            osc := v.add.osc.set i.toNat
              { v.add.osc[i.toNat] with amp := if (v.add.harm[i.toNat]).en then a else F32.posZero } } })
        (fun P => { P with harm := P.harm.set i.toNat { P.harm[i.toNat] with amp := a } })) ∧
    (∃ t, exec (.toggleHarm i) s = .next t ∧
      BroadcastOutcome s t
        (fun v => { v with add :=
          { harm := v.add.harm.set i.toNat { v.add.harm[i.toNat] with en := !(v.add.harm[i.toNat]).en }
            osc := v.add.osc.set i.toNat
              { v.add.osc[i.toNat] with
                amp := if (v.add.harm[i.toNat]).en then F32.posZero else (v.add.harm[i.toNat]).amp } } })
        (fun P => { P with harm := P.harm.set i.toNat { P.harm[i.toNat] with en := !(P.harm[i.toNat]).en } }))

/-- 47_commands.md R256-R259, 42_fm.md R145-R148, for an index below 6: the operator's field is stored as given, or its
enable bit negated; a new ratio also sets that operator's oscillator frequency from the voice's own base frequency;
nothing else changes. That the template keeps its value under DEFAULTS is the model's reading of R245 against
10_state.md R20 and R35 (log 14). -/
def Obligations.OperatorCommandsWriteOneOperator : Prop :=
  ∀ (i : BitVec 8) (h : i.toNat < 6) (x : F32) (s : State),
    (∃ t, exec (.setOpRatio i x) s = .next t ∧
      BroadcastOutcome s t
        (fun v => { v with fm := { v.fm with
            op := v.fm.op.set i.toNat { v.fm.op[i.toNat] with ratio := x }
            osc := v.fm.osc.set i.toNat { v.fm.osc[i.toNat] with freq := v.fm.base.mul x } } })
        (fun P => { P with op := P.op.set i.toNat { P.op[i.toNat] with ratio := x } })) ∧
    (∃ t, exec (.setOpAmp i x) s = .next t ∧
      BroadcastOutcome s t
        (fun v => { v with fm := { v.fm with op := v.fm.op.set i.toNat { v.fm.op[i.toNat] with amp := x } } })
        (fun P => { P with op := P.op.set i.toNat { P.op[i.toNat] with amp := x } })) ∧
    (∃ t, exec (.setOpFeedback i x) s = .next t ∧
      BroadcastOutcome s t
        (fun v => { v with fm := { v.fm with op := v.fm.op.set i.toNat { v.fm.op[i.toNat] with fbk := x } } })
        (fun P => { P with op := P.op.set i.toNat { P.op[i.toNat] with fbk := x } })) ∧
    (∃ t, exec (.toggleOp i) s = .next t ∧
      BroadcastOutcome s t
        (fun v => { v with fm := { v.fm with
            op := v.fm.op.set i.toNat { v.fm.op[i.toNat] with en := !(v.fm.op[i.toNat]).en } } })
        (fun P => { P with op := P.op.set i.toNat { P.op[i.toNat] with en := !(P.op[i.toNat]).en } }))

/-- 30_encoding.md R72: a harmonic index of 64 or more, or an operator index of 6 or more, makes the command a no-op:
the whole state is as before. -/
def Obligations.OutOfRangeIndexIsANoOp : Prop :=
  ∀ (i : BitVec 8) (x : F32) (s : State),
    (64 ≤ i.toNat → exec (.setHarmAmp i x) s = .next s ∧ exec (.toggleHarm i) s = .next s) ∧
    (6 ≤ i.toNat → exec (.setOpRatio i x) s = .next s ∧ exec (.setOpAmp i x) s = .next s ∧
      exec (.setOpFeedback i x) s = .next s ∧ exec (.toggleOp i) s = .next s)

/-- 20_memory.md R54: issuing one of the twelve storing setters twice in a row equals issuing it once. -/
def Obligations.StoringSettersAreIdempotent : Prop :=
  ∀ (x : F32) (j : BitVec 8) (s t : State) (i : Instr),
    i ∈ [Instr.setVolume x, .setBlend x, .setCutoff x, .setResonance x, .setAttack x, .setDecay x, .setSustain x,
      .setRelease x, .setHarmAmp j x, .setOpRatio j x, .setOpAmp j x, .setOpFeedback j x] →
    exec i s = .next t → exec i t = .next t

/-- 20_memory.md R54: two toggles of the same bit in a row cancel, from any state of the invariant. -/
def Obligations.TogglesInARowCancel : Prop :=
  ∀ (j : BitVec 8) (s t : State) (i : Instr), s.Inv → i ∈ [Instr.toggleHarm j, .toggleOp j] →
    exec i s = .next t → exec i t = .next s

/-- 47_commands.md R245: with no allocated slot and P_NEW_VOICE_INIT = DEFAULTS, a broadcast changes nothing. -/
def Obligations.BroadcastToNoVoiceChangesNothing : Prop :=
  ∀ (i : Instr) (s : State), s.params.newVoiceInit = .defaults → (∀ n : Fin nSlot, s.slots[n] = none) →
    (∀ note vel, i ≠ .noteOn note vel) → i ≠ .sample → i ≠ .queryPlaying → (∀ x, i ≠ .setVolume x) →
    exec i s = .next s

/-! ## Components -/

/-- 00_scope.md R10: clamp, its NaN and its negative zero; and the result is in the range whenever the input is a
number. -/
def Obligations.ClampKeepsTheRange : Prop :=
  (∀ x lo hi : F32, clamp x lo hi = if x.lt lo then lo else if hi.lt x then hi else x) ∧
  (∀ lo hi : F32, lo.le hi = true → clamp .nan lo hi = .nan) ∧
  clamp (F32.ofBits 0x80000000#32) F32.posZero F32.one = F32.ofBits 0x80000000#32 ∧
  ∀ x lo hi : F32, lo.le hi = true → x ≠ .nan → InRange lo hi (clamp x lo hi)

/-- 00_scope.md R8: the properties of the configuration functions. -/
def Obligations.ConfigurationFunctionsHaveTheirProperties : Prop :=
  ∀ s : State, let C := s.config
    C.sin32 (F32.zero false) = F32.zero false ∧ C.sin32 (F32.zero true) = F32.zero true ∧
    C.cos32 (F32.zero false) = F32.one ∧ C.cos32 (F32.zero true) = F32.one ∧
    (∀ k : Nat, k ≤ 253 →
      C.exp2_32 (F32.ofInt ((k : Int) - 126)) = F32.ofBits (BitVec.ofNat 32 ((k + 1) * 2 ^ 23))) ∧
    ∀ x : F32, x.isFinite = false → C.sin32 x = .nan ∧ C.cos32 x = .nan ∧ C.exp2_32 x = .nan

/-- 46_voice.md R221: the notes whose distance from 69 is a multiple of 12 have their exact frequency in every
configuration. -/
def Obligations.OctavesOfA4AreExact : Prop :=
  ∀ s : State,
    noteFreq s.config.exp2_32 69 = F32.ofInt 440 ∧ noteFreq s.config.exp2_32 81 = F32.ofInt 880 ∧
    noteFreq s.config.exp2_32 93 = F32.ofInt 1760 ∧ noteFreq s.config.exp2_32 105 = F32.ofInt 3520 ∧
    noteFreq s.config.exp2_32 117 = F32.ofInt 7040 ∧ noteFreq s.config.exp2_32 57 = F32.ofInt 220 ∧
    noteFreq s.config.exp2_32 45 = F32.ofInt 110 ∧ noteFreq s.config.exp2_32 33 = F32.ofInt 55 ∧
    noteFreq s.config.exp2_32 21 = (F32.ofInt 55).div F32.two ∧
    noteFreq s.config.exp2_32 9 = (F32.ofInt 55).div (F32.ofInt 4)

/-- 00_scope.md R7: the sum, product and quotient of finite values are rounded to nearest with ties to even. The
distances are to the exact result, in units of 2^-149 (times 2^149 for the product, times the divisor for the
quotient); a finite result is at least as near as every finite value, has an even last bit when another is as near,
and the result is infinite exactly from half a step above the largest finite value on. That overflow bound, like the
whole of Machine/Float.lean beyond R7's words, is taken from IEEE 754 (PRESUMED, log 16). The signs of zeros and
infinities, and operands that are not finite, are not in this statement. -/
def Obligations.ArithmeticRoundsToNearestEven : Prop :=
  ∀ x y r z : F32, x.isFinite = true → y.isFinite = true → z.isFinite = true →
    let X := exactUnits x
    let Y := exactUnits y
    let Z := exactUnits z
    let good := fun (exact scale : Int) =>
      (r.isFinite = false ↔ (overflowUnits : Int) * |scale| ≤ |exact|) ∧
      (r.isFinite = true → |exactUnits r * scale - exact| ≤ |Z * scale - exact| ∧
        (|exactUnits r * scale - exact| = |Z * scale - exact| → Z ≠ exactUnits r →
          ((r.toBits 0).getLsbD 0) = false))
    (r = x.add y → good (X + Y) 1) ∧
    (r = x.mul y → good (X * Y) (2 ^ 149)) ∧
    (r = x.div y → Y ≠ 0 → good (X * 2 ^ 149) Y)

/-- 00_scope.md R9, R11: a value that is not a NaN is returned to itself by its bit pattern; a NaN is given as a quiet
NaN, whatever the payload drawn. -/
def Obligations.BitPatternsOfValues : Prop :=
  (∀ (d : BitVec 23) (x : F32), F32.ofBits (x.toBits d) = x) ∧
  (∀ d : BitVec 23, (F32.nan.toBits d).extractLsb' 22 9 = 0x1FF#9) ∧
  ∀ (w : Word32) (d : BitVec 23), F32.ofBits w ≠ .nan → (F32.ofBits w).toBits d = w

/-- 40_oscillator.md R104: WRAP1 of a finite value takes the exact remainder by 1.0 toward zero, with the sign of the
value, adds 1.0 when it is negative, and gives +0.0 when that sum reaches 1.0; the result is in [0,1). WRAP1 of NaN or
an infinity is NaN. -/
def Obligations.WrapStaysInTheUnitInterval : Prop :=
  ∀ p : F32,
    (p.isFinite = true →
      (∃ r : F32, r.isFinite = true ∧ exactUnits r = (exactUnits p).tmod (2 ^ 149) ∧
        (r.toBits 0).msb = (p.toBits 0).msb ∧
        let r' := if r.lt F32.posZero = true then r.add F32.one else r
        wrap1 p = if F32.one.le r' = true then F32.posZero else r') ∧
      F32.posZero.le (wrap1 p) = true ∧ (wrap1 p).lt F32.one = true) ∧
    (p.isFinite = false → wrap1 p = .nan)

/-- 40_oscillator.md R103: OSC_NEXT moves the phase by freq / SR through WRAP1, returns amp * sin32(TAU * phase) at the
new phase, and writes nothing else. So an infinite frequency makes the phase NaN, and a NaN phase makes every later
phase and output NaN. -/
def Obligations.InfiniteFrequencyPoisonsThePhase : Prop :=
  ∀ (s : State) (o : Osc),
    (let phase := wrap1 (o.phase.add (o.freq.div s.params.sr))
     oscNext s.config o =
      ({ o with phase := phase }, o.amp.mul (s.config.sin32 ((F32.ofBits 0x40C90FDB#32).mul phase)))) ∧
    (legalParams s.params = true → (∃ b, o.freq = .inf b) → (oscNext s.config o).1.phase = .nan) ∧
    (o.phase = .nan → (oscNext s.config o).1.phase = .nan ∧ (oscNext s.config o).2 = .nan)

/-- 42_fm.md R143, R144: FM_NEXT leaves a disabled operator's oscillator and buffer as they are and writes nothing but
oscillator phases and buffers; with no operator enabled the state is unchanged and the result is +0.0. -/
def Obligations.DisabledOperatorsAreFrozen : Prop :=
  ∀ (C : Config) (m : Fm),
    (∀ i : Fin nOp, (m.op[i]).en = false →
      (fmNext C m).1.osc[i] = m.osc[i] ∧ (fmNext C m).1.fbuf[i] = m.fbuf[i]) ∧
    (fmNext C m).1.op = m.op ∧ (fmNext C m).1.base = m.base ∧
    (∀ i : Fin nOp, ((fmNext C m).1.osc[i]).freq = (m.osc[i]).freq ∧
      ((fmNext C m).1.osc[i]).amp = (m.osc[i]).amp) ∧
    ((∀ i : Fin nOp, (m.op[i]).en = false) → fmNext C m = (m, F32.posZero))

/-- 42_fm.md R142, R143, for every set of enabled operators: the output of enabled operator i is sin32 of its
oscillator's sample plus its phase modulation, times its amplitude. The phase modulation is its own buffer times its
feedback, then the buffer times XMOD of every other enabled operator in index order, where an operator before i shows
its output of this sample and one after i its old buffer. The output goes into buffer i, the oscillator advances, and
the result is the sum of the outputs in index order from +0.0, divided by 6. -/
def Obligations.FeedbackIsReadInPlace : Prop :=
  ∀ (C : Config) (m : Fm), ∃ y : Fin nOp → F32,
    (∀ i : Fin nOp, (m.op[i]).en = true →
      let seen := fun j : Fin nOp => if j < i then y j else m.fbuf[j]
      let pm := (List.finRange nOp).foldl
        (fun pm j => if j ≠ i ∧ (m.op[j]).en = true then pm.add ((seen j).mul (F32.ofBits 0x3DCCCCCD#32)) else pm)
        ((m.fbuf[i]).mul (m.op[i]).fbk)
      y i = (C.sin32 ((oscNext C m.osc[i]).2.add pm)).mul (m.op[i]).amp ∧
      (fmNext C m).1.fbuf[i] = y i ∧ (fmNext C m).1.osc[i] = (oscNext C m.osc[i]).1) ∧
    (fmNext C m).2 =
      ((List.finRange nOp).foldl (fun sum i => if (m.op[i]).en = true then sum.add (y i) else sum) F32.posZero).div
        (F32.ofInt 6)

/-- 44_envelope.md R176-R181: the elapsed time advances by 1.0 / SR; Attack, Decay and Release give their ramp of it,
and on the sample where it reaches the stage's duration they give the end value and enter the next stage with the
elapsed time +0.0; Sustain gives S and leaves for Release when the gate is false; Idle gives +0.0. The value given is
stored and nothing else is written. R182: so a stage of duration zero or less lasts one sample, which gives 1.0 after
Attack, S after Decay and 0.0 after Release. -/
def Obligations.ZeroLengthStagesLastOneSample : Prop :=
  (∀ (sr : F32) (e : Env),
    let t := e.elapsed.add (F32.one.div sr)
    let gives := fun (stage : Stage) (elapsed v : F32) =>
      envNext sr e = ({ e with stage := stage, elapsed := elapsed, value := v }, v)
    (e.stage = .attack → if e.A.le t = true then gives .decay F32.posZero F32.one else gives .attack t (t.div e.A)) ∧
    (e.stage = .decay → if e.D.le t = true then gives .sustain F32.posZero e.S
      else gives .decay t (F32.one.sub ((F32.one.sub e.S).mul (t.div e.D)))) ∧
    (e.stage = .sustain → if e.gate = true then gives .sustain t e.S else gives .release F32.posZero e.S) ∧
    (e.stage = .release → if e.R.le t = true then gives .idle F32.posZero F32.posZero
      else gives .release t (e.S.mul (F32.one.sub (t.div e.R)))) ∧
    (e.stage = .idle → gives .idle t F32.posZero)) ∧
  ∀ (p : Params) (e : Env), legalParams p = true → F32.posZero.le e.elapsed = true →
    (e.stage = .attack → e.A.le F32.posZero = true →
      (envNext p.sr e).2 = F32.one ∧ (envNext p.sr e).1.stage = .decay) ∧
    (e.stage = .decay → e.D.le F32.posZero = true →
      (envNext p.sr e).2 = e.S ∧ (envNext p.sr e).1.stage = .sustain) ∧
    (e.stage = .release → e.R.le F32.posZero = true →
      (envNext p.sr e).2 = F32.posZero ∧ (envNext p.sr e).1.stage = .idle)

/-- 44_envelope.md R183, first item: with S in [0,1], finite parameters and elapsed time not negative, the output is in
[0,1], in every stage and for every legal sample rate. -/
def Obligations.EnvelopeOutputIsInTheUnitInterval : Prop :=
  ∀ (p : Params) (e : Env), legalParams p = true → F32.posZero.le e.elapsed = true → InUnit e.S →
    e.A.isFinite = true → e.D.isFinite = true → e.R.isFinite = true →
    InUnit (envNext p.sr e).2 ∧ (envNext p.sr e).1.value = (envNext p.sr e).2

/-- 44_envelope.md R175, R180: the first sample after a note-off is a ramp from S (or 0.0, the end of the release),
whatever the envelope's value, stage and elapsed time were. -/
def Obligations.ReleaseStartsFromSustain : Prop :=
  ∀ (p : Params) (e : Env), legalParams p = true →
    let dt := F32.one.div p.sr
    (envNext p.sr (envNoteOff e)).2 =
      if e.R.le dt then F32.posZero else e.S.mul (F32.one.sub (dt.div e.R))

/-- 44_envelope.md R184: once elapsed + dt rounds back to elapsed, a timed stage that has not ended keeps its elapsed
time, its stage and its output for good. -/
def Obligations.StoppedTimeNeverEndsAStage : Prop :=
  ∀ (sr : F32) (e : Env), e.elapsed.add (F32.one.div sr) = e.elapsed →
    ((e.stage = .attack ∧ e.A.le e.elapsed = false) ∨ (e.stage = .decay ∧ e.D.le e.elapsed = false) ∨
      (e.stage = .release ∧ e.R.le e.elapsed = false)) →
    ∀ k : Nat, let e' := Nat.iterate (fun x => (envNext sr x).1) k e
      e'.stage = e.stage ∧ e'.elapsed = e.elapsed ∧ (envNext sr e').2 = (envNext sr e).2

/-- 44_envelope.md R184: at SR = 44100 time stops at 512 seconds. -/
def Obligations.TimeStopsAt512Seconds : Prop :=
  (F32.ofInt 512).add (F32.one.div (F32.ofInt 44100)) = F32.ofInt 512

/-- 45_filter.md R203, R204: the coefficients from cutoff, resonance and the cosine argument the configuration names,
and the five-term recurrence over the input and the two taps, in the order written; the output is stored in buf0, the
old buf0 in buf1. R205, in both cosine readings and for every configuration function: with resonance +0 or -0, or with a
NaN in a tap, that output is NaN. -/
def Obligations.ZeroResonanceOrNaNTapGivesNaN : Prop :=
  ∀ (C : Config) (f : Flt) (x : F32),
    (let w0 := ((F32.ofBits 0x40C90FDB#32).mul f.cutoff).div C.sr
     let alpha := (C.sin32 w0).div ((F32.ofInt 2).mul f.q)
     let c := C.cos32 (if C.cosArg = .alpha then alpha else w0)
     let b0 := (F32.one.sub c).div (F32.ofInt 2)
     let b1 := F32.one.sub c
     let a0 := F32.one.add alpha
     let a1 := (F32.ofInt (-2)).mul c
     let a2 := F32.one.sub alpha
     let y := (((((b0.mul x).add (b1.mul f.buf0)).add (b0.mul f.buf1)).sub (a1.mul f.buf0)).sub (a2.mul f.buf1)).div a0
     fltProcess C f x = ({ f with buf0 := y, buf1 := f.buf0 }, y)) ∧
    ((f.q = F32.zero false ∨ f.q = F32.zero true ∨ f.buf0 = .nan ∨ f.buf1 = .nan) →
      fltProcess C f x = ({ f with buf0 := .nan, buf1 := f.buf0 }, .nan))

/-- 46_voice.md R225: with P_SHORT_CIRCUIT a released voice returns +0.0 and writes no state; every other voice, and
every voice without it, runs the whole chain, which keeps its velocity, active flag, blend and parameters.
41_additive.md R124: ADD_NEXT, the chain's first link, advances all 64 oscillators and returns the sum of their samples
in index order from +0.0, divided by 64. -/
def Obligations.ShortCircuitFreezesReleasedVoices : Prop :=
  (∀ (C : Config) (v : Voice),
    (C.shortCircuit = true → v.active = false → v.env.stage = .idle → voiceNext C v = (v, F32.posZero)) ∧
    (¬ (C.shortCircuit = true ∧ v.active = false ∧ v.env.stage = .idle) →
      let a := addNext C v.add
      let m := fmNext C v.fm
      let b := (a.2.mul (F32.one.sub v.blend)).add (m.2.mul v.blend)
      let g := envNext C.sr v.env
      let y := fltProcess C v.flt (b.mul g.2)
      voiceNext C v = ({ v with add := a.1, fm := m.1, env := g.1, flt := y.1 }, y.2.mul v.velocity)) ∧
    (voiceNext C v).1.paramSet = v.paramSet) ∧
  ∀ (C : Config) (a : Additive),
    (addNext C a).1.harm = a.harm ∧ (∀ i : Fin nHarm, (addNext C a).1.osc[i] = (oscNext C a.osc[i]).1) ∧
    (addNext C a).2 =
      (((List.finRange 64).map fun i : Fin nHarm => (oscNext C a.osc[i]).2).foldl F32.add F32.posZero).div (F32.ofInt 64)

/-! ## The whole machine -/

/-- 44_envelope.md R170: a command moves an allocated voice's stage only along the state graph: to Attack by NOTE_ON of
its note, to Release by NOTE_OFF of its note, one transition or none by SAMPLE, and not at all otherwise. -/
def Obligations.StagesMoveAlongTheStateGraph : Prop :=
  ∀ (i : Instr) (s t : State) (n : Fin nSlot) (v w : Voice), exec i s = .next t → s.slots[n] = some v →
    t.slots[n] = some w →
    w.env.stage = v.env.stage ∨
    (∃ note vel, i = .noteOn note vel ∧ noteSlot note = n ∧ w.env.stage = .attack) ∨
    (∃ note, i = .noteOff note ∧ noteSlot note = n ∧ w.env.stage = .release) ∨
    (i = .sample ∧ (v.env.stage, w.env.stage) ∈
      [(Stage.attack, Stage.decay), (.decay, .sustain), (.sustain, .release), (.release, .idle)])

/-- The invariant holds after reset, for every legal configuration (70_reset_and_hazards.md R330, 00_scope.md R5). -/
def Obligations.InvariantHoldsAtReset : Prop :=
  ∀ p : Params, legalParams p = true → (State.resetWith p).Inv

/-- Every step keeps the invariant: parameters in their ranges, multipliers, derived amplitudes and frequencies as the
rules derive them, phases in [0,1) or NaN, envelope output in [0,1], gate and active exactly in Attack, Decay and
Sustain (10_state.md R24-R35, 44_envelope.md R179, R183). -/
def Obligations.EveryStepKeepsTheInvariant : Prop :=
  ∀ s t : State, s.Inv → step s = .next t → t.Inv

/-- Under CURRENT every allocated voice holds the parameters of the template, after every step: so every voice holds
the same enable bits (47_commands.md R245, R255; 70_reset_and_hazards.md R331). -/
def Obligations.CurrentVoicesShareTheTemplate : Prop :=
  (∀ p : Params, (State.resetWith p).TemplateShared) ∧
  ∀ s t : State, s.TemplateShared → step s = .next t → t.TemplateShared

/-- 45_filter.md R205, 70_reset_and_hazards.md R339: a poisoned voice stays poisoned through every step, and with
P_SHORT_CIRCUIT = false every SAMPLE of a block with a poisoned voice returns a quiet NaN (00_scope.md R9; the port is
log 7). -/
def Obligations.PoisonedFilterIsPermanent : Prop :=
  ∀ (s t : State) (n : Fin nSlot), s.Poisoned n →
    (step s = .next t → t.Poisoned n) ∧
    (s.params.shortCircuit = false → exec .sample s = .next t →
      ∃ w, t.responses = ⟨.sample, w⟩ :: s.responses ∧ F32.ofBits w = .nan ∧ w.extractLsb' 22 9 = 0x1FF#9)

/-- 47_commands.md R249, 45_filter.md R205: after SET_RESONANCE of a value that is zero or less, one SAMPLE poisons
every allocated voice (P_SHORT_CIRCUIT = false). -/
def Obligations.ZeroResonancePoisonsEveryVoice : Prop :=
  ∀ (x : F32) (s t u : State) (n : Fin nSlot), s.params.shortCircuit = false → x.le F32.posZero = true →
    exec (.setResonance x) s = .next t → exec .sample t = .next u → (s.slots[n]).isSome = true → u.Poisoned n
end

