-- ==== Sys2Proof/Laws/Float.lean ====
section
/-! SUPPORT. Laws of the binary32 operations: bit patterns, the order, and rounding (00_scope.md R7, R9, R11). -/

namespace Sys2Proof.F32

/-! ## The order -/

theorem le_iff (x y : F32) : x.le y = true ↔ ∃ a b, x.rank = some a ∧ y.rank = some b ∧ a ≤ b := by
  unfold le
  cases hx : x.rank <;> cases hy : y.rank <;> simp

theorem lt_iff (x y : F32) : x.lt y = true ↔ ∃ a b, x.rank = some a ∧ y.rank = some b ∧ a < b := by
  unfold lt
  cases hx : x.rank <;> cases hy : y.rank <;> simp

theorem rank_eq_none (x : F32) : x.rank = none ↔ x = .nan := by cases x <;> simp [rank]

/-- Between two numbers, not less means at least. -/
theorem le_of_not_lt {x y : F32} (hx : x ≠ .nan) (hy : y ≠ .nan) (h : y.lt x = false) : x.le y = true := by
  cases x <;> cases y <;> simp_all [le, lt, rank]

theorem lt_of_not_le {x y : F32} (hx : x ≠ .nan) (hy : y ≠ .nan) (h : y.le x = false) : x.lt y = true := by
  cases x <;> cases y <;> simp_all [le, lt, rank]

theorem le_trans {x y z : F32} (h₁ : x.le y = true) (h₂ : y.le z = true) : x.le z = true := by
  rw [le_iff] at *
  obtain ⟨a, b, hx, hy, hab⟩ := h₁
  obtain ⟨b', c, hy', hz, hbc⟩ := h₂
  obtain rfl : b = b' := by simpa [hy] using hy'
  exact ⟨a, c, hx, hz, by omega⟩

theorem le_refl {x : F32} (hx : x ≠ .nan) : x.le x = true := by cases x <;> simp_all [le, rank]

theorem le_of_lt {x y : F32} (h : x.lt y = true) : x.le y = true := by
  rw [lt_iff] at h
  obtain ⟨a, b, ha, hb, hab⟩ := h
  exact (le_iff _ _).2 ⟨a, b, ha, hb, by omega⟩

theorem ne_nan_of_le_left {x y : F32} (h : x.le y = true) : x ≠ .nan := by rintro rfl; simp [le, rank] at h

theorem ne_nan_of_le_right {x y : F32} (h : x.le y = true) : y ≠ .nan := by
  rintro rfl; cases x <;> simp [le, rank] at h

@[simp] theorem isFinite_fin (s : Bool) (e : Fin 255) (f : BitVec 23) : (fin s e f).isFinite = true := rfl
@[simp] theorem isFinite_inf (s : Bool) : (inf s).isFinite = false := rfl
@[simp] theorem isFinite_nan : nan.isFinite = false := rfl

theorem ne_nan_of_isFinite {x : F32} (h : x.isFinite = true) : x ≠ .nan := by rintro rfl; simp at h

/-! ## Magnitudes -/

/-- The magnitude, in units of 2^-149, that magnitude bits `m` stand for. -/
def magUnits (m : Nat) : Nat :=
  if m / 2 ^ 23 = 0 then m % 2 ^ 23 else (2 ^ 23 + m % 2 ^ 23) * 2 ^ (m / 2 ^ 23 - 1)

theorem units_lt (e : Fin 255) (f : BitVec 23) : units e f < infUnits := by
  have hf : f.toNat < 2 ^ 23 := f.isLt
  unfold units
  split
  · norm_num [infUnits]
    omega
  · have h1 : 2 ^ (e.val - 1) ≤ 2 ^ 253 := Nat.pow_le_pow_right (by norm_num) (by omega)
    calc (2 ^ 23 + f.toNat) * 2 ^ (e.val - 1) < 2 ^ 24 * 2 ^ (e.val - 1) :=
          Nat.mul_lt_mul_of_pos_right (by omega) (by positivity)
      _ ≤ 2 ^ 24 * 2 ^ 253 := Nat.mul_le_mul_left _ h1
      _ = infUnits := by norm_num [infUnits]

theorem magUnits_of_ge {m : Nat} (h : 255 ≤ m / 2 ^ 23) : infUnits ≤ magUnits m := by
  unfold magUnits
  rw [if_neg (by omega)]
  have h1 : 2 ^ 254 ≤ 2 ^ (m / 2 ^ 23 - 1) := Nat.pow_le_pow_right (by norm_num) (by omega)
  calc infUnits = 2 ^ 23 * 2 ^ 254 := rfl
    _ ≤ (2 ^ 23 + m % 2 ^ 23) * 2 ^ (m / 2 ^ 23 - 1) := Nat.mul_le_mul (by omega) h1

/-- The rank of a value given by its magnitude bits: the magnitude, cut at the place of the infinities. -/
theorem rank_ofMag (neg : Bool) (m : Nat) : (ofMag neg m).rank = some (signed neg (min (magUnits m) infUnits)) := by
  unfold ofMag
  split
  · rename_i h
    have hu : units ⟨m / 2 ^ 23, h⟩ (BitVec.ofNat 23 m) = magUnits m := by simp [units, magUnits]
    have := units_lt ⟨m / 2 ^ 23, h⟩ (BitVec.ofNat 23 m)
    rw [hu] at this
    rw [rank, hu, Nat.min_eq_left this.le]
  · rename_i h
    have := magUnits_of_ge (m := m) (by omega)
    rw [rank, Nat.min_eq_right this]

theorem magUnits_pack (k m : Nat) (h1 : m ≤ 2 ^ 24) (h2 : k = 0 ∨ 2 ^ 23 ≤ m) :
    magUnits (k * 2 ^ 23 + m) = m * 2 ^ k := by
  unfold magUnits
  rcases Nat.lt_or_ge m (2 ^ 23) with hm | hm
  · obtain rfl : k = 0 := by omega
    rw [Nat.zero_mul, Nat.zero_add, Nat.div_eq_of_lt hm, if_pos rfl, Nat.mod_eq_of_lt hm, pow_zero, Nat.mul_one]
  · rcases Nat.lt_or_ge m (2 ^ 24) with hm' | hm'
    · have hd : (k * 2 ^ 23 + m) / 2 ^ 23 = k + 1 := by omega
      have hr : (k * 2 ^ 23 + m) % 2 ^ 23 = m - 2 ^ 23 := by omega
      rw [hd, hr, if_neg (by omega)]
      rw [Nat.add_sub_cancel]
      have : 2 ^ 23 + (m - 2 ^ 23) = m := by omega
      rw [this]
    · obtain rfl : m = 2 ^ 24 := by omega
      have hd : (k * 2 ^ 23 + 2 ^ 24) / 2 ^ 23 = k + 2 := by omega
      have hr : (k * 2 ^ 23 + 2 ^ 24) % 2 ^ 23 = 0 := by omega
      rw [hd, hr, if_neg (by omega)]
      have : k + 2 - 1 = k + 1 := by omega
      rw [this, pow_succ]
      ring

/-! ## Rounding -/

/-- The exponent of the step in which `p / q` is rounded. -/
def stepExp (p q : Nat) : Nat := Nat.log2 (p / q) - 23

/-- `p / q` rounded to a whole number of steps, ties to even. -/
def steps (p q : Nat) : Nat :=
  let d := q * 2 ^ stepExp p q
  if d < 2 * (p % d) ∨ (2 * (p % d) = d ∧ p / d % 2 = 1) then p / d + 1 else p / d

/-- `p / q` rounded, in units. -/
def roundedUnits (p q : Nat) : Nat := steps p q * 2 ^ stepExp p q

theorem round_eq (neg : Bool) (p q : Nat) : round neg p q = ofMag neg (stepExp p q * 2 ^ 23 + steps p q) := rfl

theorem div_step_lt (p q : Nat) : p / (q * 2 ^ stepExp p q) < 2 ^ 24 := by
  rw [← Nat.div_div_eq_div_mul]
  refine Nat.div_lt_of_lt_mul ?_
  rw [← pow_add]
  rcases Nat.eq_zero_or_pos (p / q) with h | h
  · rw [h]; positivity
  · calc p / q < 2 ^ (Nat.log2 (p / q) + 1) := Nat.lt_log2_self
      _ ≤ 2 ^ (stepExp p q + 24) := Nat.pow_le_pow_right (by norm_num) (by unfold stepExp; omega)

theorem le_div_step (p q : Nat) (h : stepExp p q ≠ 0) : 2 ^ 23 ≤ p / (q * 2 ^ stepExp p q) := by
  rw [← Nat.div_div_eq_div_mul]
  have hpos : p / q ≠ 0 := by
    intro h0
    simp [stepExp, h0] at h
  have hlog : stepExp p q + 23 = Nat.log2 (p / q) := by unfold stepExp at *; omega
  rw [Nat.le_div_iff_mul_le (by positivity), ← pow_add, Nat.add_comm, hlog]
  exact Nat.log2_self_le hpos

theorem div_le_steps (p q : Nat) : p / (q * 2 ^ stepExp p q) ≤ steps p q := by
  unfold steps
  dsimp only
  split <;> omega

theorem steps_le (p q : Nat) : steps p q ≤ p / (q * 2 ^ stepExp p q) + 1 := by
  unfold steps
  dsimp only
  split <;> omega

theorem steps_le_pow (p q : Nat) : steps p q ≤ 2 ^ 24 := by
  have := steps_le p q
  have := div_step_lt p q
  omega

theorem pow_le_steps (p q : Nat) (h : stepExp p q ≠ 0) : 2 ^ 23 ≤ steps p q :=
  (le_div_step p q h).trans (div_le_steps p q)

/-- What rounding gives: the rounded magnitude with the sign, an infinity from 2^128 on. -/
theorem rank_round (neg : Bool) (p q : Nat) :
    (round neg p q).rank = some (signed neg (min (roundedUnits p q) infUnits)) := by
  rw [round_eq, rank_ofMag, magUnits_pack _ _ (steps_le_pow p q)]
  · rfl
  · by_cases h : stepExp p q = 0
    · exact .inl h
    · exact .inr (pow_le_steps p q h)

theorem stepExp_mono {p q p' q' : Nat} (hq : 0 < q) (hq' : 0 < q') (h : p * q' ≤ p' * q) :
    stepExp p q ≤ stepExp p' q' := by
  have hdiv : p / q ≤ p' / q' := by
    rw [Nat.le_div_iff_mul_le hq']
    have h1 : p / q * q ≤ p := Nat.div_mul_le_self p q
    have h2 : (p / q * q') * q ≤ p' * q := by
      calc (p / q * q') * q = (p / q * q) * q' := by ring
        _ ≤ p * q' := Nat.mul_le_mul_right _ h1
        _ ≤ p' * q := h
    exact Nat.le_of_mul_le_mul_right h2 hq
  unfold stepExp
  have : Nat.log2 (p / q) ≤ Nat.log2 (p' / q') := by
    rw [Nat.log2_eq_log_two, Nat.log2_eq_log_two]
    exact Nat.log_mono_right hdiv
  omega

/-- Rounding to whole steps of one size keeps the order. -/
theorem nearest_mono {p d p' d' : Nat} (hd : 0 < d) (hd' : 0 < d') (h : p * d' ≤ p' * d) :
    (if d < 2 * (p % d) ∨ (2 * (p % d) = d ∧ p / d % 2 = 1) then p / d + 1 else p / d) ≤
      (if d' < 2 * (p' % d') ∨ (2 * (p' % d') = d' ∧ p' / d' % 2 = 1) then p' / d' + 1 else p' / d') := by
  have hm : p / d ≤ p' / d' := by
    rw [Nat.le_div_iff_mul_le hd']
    refine Nat.le_of_mul_le_mul_right (?_ : p / d * d' * d ≤ p' * d) hd
    calc p / d * d' * d = (p / d * d) * d' := by ring
      _ ≤ p * d' := Nat.mul_le_mul_right _ (Nat.div_mul_le_self p d)
      _ ≤ p' * d := h
  rcases Nat.lt_or_ge (p / d) (p' / d') with hlt | hge
  · have h1 : (if d < 2 * (p % d) ∨ (2 * (p % d) = d ∧ p / d % 2 = 1) then p / d + 1 else p / d) ≤ p / d + 1 := by
      split <;> omega
    have h2 : p' / d' ≤
        (if d' < 2 * (p' % d') ∨ (2 * (p' % d') = d' ∧ p' / d' % 2 = 1) then p' / d' + 1 else p' / d') := by
      split <;> omega
    omega
  · have heq : p / d = p' / d' := by omega
    have e1 : d * (p / d) + p % d = p := Nat.div_add_mod p d
    have e2 : d' * (p' / d') + p' % d' = p' := Nat.div_add_mod p' d'
    rw [← heq] at e2
    -- the remainders compare as fractions of their step
    have hr : p % d * d' ≤ p' % d' * d := by
      have : (d * (p / d) + p % d) * d' ≤ (d' * (p / d) + p' % d') * d := by rw [e1, e2]; exact h
      nlinarith
    rw [← heq]
    by_cases c : d < 2 * (p % d) ∨ (2 * (p % d) = d ∧ p / d % 2 = 1)
    · have c' : d' < 2 * (p' % d') ∨ (2 * (p' % d') = d' ∧ p / d % 2 = 1) := by
        rcases c with c | ⟨c, ho⟩
        · left
          by_contra hn
          have hn : 2 * (p' % d') ≤ d' := by omega
          nlinarith
        · rcases Nat.lt_trichotomy (2 * (p' % d')) d' with hlt | heq' | hgt
          · exfalso
            nlinarith
          · exact .inr ⟨heq', ho⟩
          · exact .inl hgt
      rw [if_pos c, if_pos c']
    · rw [if_neg c]
      split <;> omega

/-- Rounding keeps the order of exact results. -/
theorem roundedUnits_mono {p q p' q' : Nat} (hq : 0 < q) (hq' : 0 < q') (h : p * q' ≤ p' * q) :
    roundedUnits p q ≤ roundedUnits p' q' := by
  rcases Nat.lt_or_ge (stepExp p q) (stepExp p' q') with hk | hk
  · calc roundedUnits p q ≤ 2 ^ 24 * 2 ^ stepExp p q := Nat.mul_le_mul_right _ (steps_le_pow p q)
      _ = 2 ^ 23 * 2 ^ (stepExp p q + 1) := by rw [pow_succ]; ring
      _ ≤ 2 ^ 23 * 2 ^ stepExp p' q' := Nat.mul_le_mul_left _ (Nat.pow_le_pow_right (by norm_num) hk)
      _ ≤ roundedUnits p' q' := Nat.mul_le_mul_right _ (pow_le_steps p' q' (by omega))
  · have hk' : stepExp p q = stepExp p' q' := le_antisymm (stepExp_mono hq hq' h) hk
    unfold roundedUnits
    rw [hk']
    refine Nat.mul_le_mul_right _ ?_
    unfold steps
    dsimp only
    rw [hk']
    refine nearest_mono (by positivity) (by positivity) ?_
    calc p * (q' * 2 ^ stepExp p' q') = p * q' * 2 ^ stepExp p' q' := by ring
      _ ≤ p' * q * 2 ^ stepExp p' q' := Nat.mul_le_mul_right _ h
      _ = p' * (q * 2 ^ stepExp p' q') := by ring

theorem roundedUnits_zero (q : Nat) : roundedUnits 0 q = 0 := by simp [roundedUnits, steps, stepExp]

/-- A whole number of units that a finite value holds is rounded to itself. -/
theorem pack_units (e : Fin 255) (f : BitVec 23) :
    stepExp (units e f) 1 * 2 ^ 23 + steps (units e f) 1 = e.val * 2 ^ 23 + f.toNat := by
  have hf : f.toNat < 2 ^ 23 := f.isLt
  by_cases he : e.val = 0
  · have hu : units e f = f.toNat := by simp [units, he]
    have hk : stepExp f.toNat 1 = 0 := by
      unfold stepExp
      rw [Nat.div_one, Nat.log2_eq_log_two]
      have : Nat.log 2 f.toNat < 24 := by
        rcases Nat.eq_zero_or_pos f.toNat with h | h
        · simp [h]
        · exact Nat.log_lt_of_lt_pow (by omega) (by omega)
      omega
    have hs : steps f.toNat 1 = f.toNat := by simp [steps, hk, Nat.mod_one]
    rw [hu, hk, hs, he]
  · have hu : units e f = (2 ^ 23 + f.toNat) * 2 ^ (e.val - 1) := by simp [units, he]
    have hk : stepExp ((2 ^ 23 + f.toNat) * 2 ^ (e.val - 1)) 1 = e.val - 1 := by
      unfold stepExp
      rw [Nat.div_one, Nat.log2_eq_log_two]
      have : Nat.log 2 ((2 ^ 23 + f.toNat) * 2 ^ (e.val - 1)) = 23 + (e.val - 1) := by
        rw [Nat.log_eq_iff (.inr ⟨by norm_num, by positivity⟩)]
        constructor
        · rw [pow_add]
          exact Nat.mul_le_mul_right _ (by omega)
        · calc (2 ^ 23 + f.toNat) * 2 ^ (e.val - 1) < 2 ^ 24 * 2 ^ (e.val - 1) :=
                Nat.mul_lt_mul_of_pos_right (by omega) (by positivity)
            _ = 2 ^ (23 + (e.val - 1) + 1) := by rw [← pow_add]; congr 1; omega
      omega
    have hs : steps ((2 ^ 23 + f.toNat) * 2 ^ (e.val - 1)) 1 = 2 ^ 23 + f.toNat := by
      have hpos : 0 < 2 ^ (e.val - 1) := by positivity
      simp only [steps, hk, Nat.one_mul, Nat.mul_mod_left, Nat.mul_div_cancel _ hpos]
      rw [if_neg]
      omega
    rw [hu, hk, hs]
    omega

theorem ofMag_pack (neg : Bool) (e : Fin 255) (f : BitVec 23) : ofMag neg (e.val * 2 ^ 23 + f.toNat) = fin neg e f := by
  have hf : f.toNat < 2 ^ 23 := f.isLt
  have hd : (e.val * 2 ^ 23 + f.toNat) / 2 ^ 23 = e.val := by omega
  have hb : BitVec.ofNat 23 (e.val * 2 ^ 23 + f.toNat) = f := by
    apply BitVec.eq_of_toNat_eq
    rw [BitVec.toNat_ofNat]
    omega
  unfold ofMag
  rw [dif_pos (by omega), hb]
  congr 1
  exact Fin.ext hd

/-- Rounding a representable magnitude gives it back. -/
theorem round_units (neg : Bool) (e : Fin 255) (f : BitVec 23) : round neg (units e f) 1 = fin neg e f := by
  rw [round_eq, pack_units, ofMag_pack]

theorem roundedUnits_units (e : Fin 255) (f : BitVec 23) : roundedUnits (units e f) 1 = units e f := by
  have h := rank_round false (units e f) 1
  rw [round_units] at h
  have hlt := units_lt e f
  simp only [rank, signed, Bool.false_eq_true, if_false, Option.some.injEq, Nat.cast_inj] at h
  omega

/-- A whole number of units with at most 24 significant bits is rounded to itself. -/
theorem roundedUnits_mul_pow {k : Nat} (j : Nat) (hk : k < 2 ^ 24) : roundedUnits (k * 2 ^ j) 1 = k * 2 ^ j := by
  rcases Nat.eq_zero_or_pos (k * 2 ^ j) with h0 | h0
  · rw [h0, roundedUnits_zero]
  have hd : 2 ^ stepExp (k * 2 ^ j) 1 ∣ k * 2 ^ j := by
    rcases Nat.lt_or_ge j (stepExp (k * 2 ^ j) 1) with hj | hj
    · exfalso
      have h1 := le_div_step (k * 2 ^ j) 1 (by omega)
      rw [one_mul, Nat.le_div_iff_mul_le (by positivity), ← pow_add] at h1
      have h2 : k * 2 ^ j < 2 ^ (24 + j) := by
        rw [pow_add]
        exact Nat.mul_lt_mul_of_pos_right hk (by positivity)
      exact absurd (h1.trans_lt h2) (Nat.not_lt.2 (Nat.pow_le_pow_right (by norm_num) (by omega)))
    · exact Dvd.dvd.mul_left (pow_dvd_pow 2 hj) k
  have hs : steps (k * 2 ^ j) 1 = k * 2 ^ j / 2 ^ stepExp (k * 2 ^ j) 1 := by
    have hp : 0 < 2 ^ stepExp (k * 2 ^ j) 1 := by positivity
    unfold steps
    dsimp only
    rw [one_mul, Nat.mod_eq_zero_of_dvd hd, if_neg (by omega)]
  rw [roundedUnits, hs, Nat.div_mul_cancel hd]

/-- A result that rounds to less than 2^128 is finite, with the sign given and the rounded magnitude. -/
theorem round_fin (neg : Bool) {p q : Nat} (h : roundedUnits p q < infUnits) :
    ∃ e f, round neg p q = fin neg e f ∧ units e f = roundedUnits p q := by
  have hr := rank_round neg p q
  rw [round_eq] at hr ⊢
  unfold ofMag at hr ⊢
  split
  · rename_i hm
    rw [dif_pos hm] at hr
    refine ⟨_, _, rfl, ?_⟩
    rw [min_eq_left h.le] at hr
    cases neg <;> simp only [rank, signed, Option.some.injEq, if_true, if_false, Bool.false_eq_true] at hr <;> omega
  · rename_i hm
    rw [dif_neg hm, min_eq_left h.le] at hr
    cases neg <;> simp only [rank, signed, Option.some.injEq, if_true, if_false, Bool.false_eq_true] at hr <;> omega

/-- `fmod(p, 1.0)` is exact and keeps the sign (40_oscillator.md R104). -/
theorem fmodOne_fin (s : Bool) (e : Fin 255) (f : BitVec 23) :
    ∃ e' f', (fin s e f).fmodOne = fin s e' f' ∧ units e' f' = units e f % 2 ^ 149 := by
  have hm : ∃ k j, k < 2 ^ 24 ∧ units e f % 2 ^ 149 = k * 2 ^ j := by
    have hf : f.toNat < 2 ^ 23 := f.isLt
    unfold units
    split
    · exact ⟨f.toNat, 0, by omega, by rw [pow_zero, mul_one]; exact Nat.mod_eq_of_lt (by omega)⟩
    · rcases Nat.le_total (e.val - 1) 149 with hj | hj
      · refine ⟨(2 ^ 23 + f.toNat) % 2 ^ (149 - (e.val - 1)), e.val - 1,
          (Nat.mod_le _ _).trans_lt (by omega), ?_⟩
        rw [← Nat.mul_mod_mul_right, ← pow_add, Nat.sub_add_cancel hj]
      · refine ⟨0, 0, by norm_num, ?_⟩
        rw [Nat.mod_eq_zero_of_dvd (Dvd.dvd.mul_left (pow_dvd_pow 2 hj) _)]
        rfl
  obtain ⟨k, j, hk, hkj⟩ := hm
  have hr : roundedUnits (units e f % 2 ^ 149) 1 = units e f % 2 ^ 149 := by rw [hkj, roundedUnits_mul_pow j hk]
  have hi : (2 : Nat) ^ 149 < infUnits := by decide +kernel
  have hlt : units e f % 2 ^ 149 < infUnits := (Nat.mod_lt _ (by positivity)).trans hi
  obtain ⟨e', f', h1, h2⟩ := round_fin s (hr.symm ▸ hlt)
  exact ⟨e', f', h1, h2.trans hr⟩

/-- Rounding an exact whole number of units with a sign. -/
theorem rank_roundInt (z : Bool) (n : Int) :
    (roundInt z n).rank = some (signed (decide (n < 0)) (min (roundedUnits n.natAbs 1) infUnits)) := by
  unfold roundInt
  split
  · rename_i h
    subst h
    cases z <;> simp [zero, rank, units, signed, roundedUnits_zero]
  · exact rank_round _ _ _

/-! ## Signs and bounds -/

theorem signed_nonneg {s : Bool} {m : Nat} (h : 0 ≤ signed s m) : m = 0 ∨ s = false := by
  cases s
  · exact .inr rfl
  · left
    simp [signed] at h
    omega

theorem rank_posZero : posZero.rank = some 0 := by simp [posZero, zero, rank, units, signed]

theorem one_eq : one = fin false 127 0 := by decide

theorem units_one : units 127 0 = 2 ^ 149 := by decide +kernel

theorem rank_one : one.rank = some (2 ^ 149) := by
  rw [one_eq]
  show some (signed false (units 127 0)) = _
  rw [units_one]
  rfl

/-- Not negative: plus infinity, or a finite value of rank at least 0. -/
theorem nonneg_iff (x : F32) : posZero.le x = true ↔ ∃ a, x.rank = some a ∧ 0 ≤ a := by
  rw [le_iff, rank_posZero]
  constructor
  · rintro ⟨a, b, ha, hb, hab⟩
    exact ⟨b, hb, by simp at ha; omega⟩
  · rintro ⟨a, ha, h0⟩
    exact ⟨0, a, rfl, ha, h0⟩

theorem le_one_iff (x : F32) : x.le one = true ↔ ∃ a, x.rank = some a ∧ a ≤ 2 ^ 149 := by
  rw [le_iff, rank_one]
  constructor
  · rintro ⟨a, b, ha, hb, hab⟩
    exact ⟨a, ha, by simp at hb; omega⟩
  · rintro ⟨a, ha, h0⟩
    exact ⟨a, _, ha, rfl, h0⟩

/-- A value in [0,1] is finite, with its magnitude at most one and not negative. -/
theorem unit_iff (x : F32) : (posZero.le x = true ∧ x.le one = true) ↔
    ∃ s e f, x = fin s e f ∧ 0 ≤ signed s (units e f) ∧ units e f ≤ 2 ^ 149 := by
  rw [nonneg_iff, le_one_iff]
  constructor
  · rintro ⟨⟨a, ha, h0⟩, ⟨b, hb, h1⟩⟩
    obtain rfl : a = b := by simpa [ha] using hb
    cases x with
    | nan => simp [rank] at ha
    | inf s =>
      exfalso
      have hi : (2 : Nat) ^ 149 < infUnits := by decide +kernel
      cases s
      · simp only [rank, signed, Bool.false_eq_true, if_false, Option.some.injEq] at ha
        omega
      · simp only [rank, signed, if_true, Option.some.injEq] at ha
        omega
    | fin s e f =>
      simp only [rank, Option.some.injEq] at ha
      subst ha
      refine ⟨s, e, f, rfl, h0, ?_⟩
      rcases signed_nonneg h0 with h | h
      · omega
      · subst h
        simp only [signed, Bool.false_eq_true, if_false] at h1
        exact_mod_cast h1
  · rintro ⟨s, e, f, rfl, h0, h1⟩
    refine ⟨⟨_, rfl, h0⟩, ⟨_, rfl, ?_⟩⟩
    cases s <;> simp only [signed, Bool.false_eq_true, if_false, if_true] <;> omega

/-- A rounded magnitude that is not negative and at most one, exactly, stays so. -/
theorem unit_of_rank_round {x : F32} {neg : Bool} {p q : Nat} (hq : 0 < q) (h0 : p = 0 ∨ neg = false) (h1 : p ≤ 2 ^ 149 * q)
    (hx : x.rank = some (signed neg (min (roundedUnits p q) infUnits))) : posZero.le x = true ∧ x.le one = true := by
  have hb : roundedUnits p q ≤ 2 ^ 149 := by
    calc roundedUnits p q ≤ roundedUnits (2 ^ 149) 1 := roundedUnits_mono hq (by norm_num) (by omega)
      _ = 2 ^ 149 := by rw [← units_one, roundedUnits_units]
  have hz : p = 0 → roundedUnits p q = 0 := by rintro rfl; exact roundedUnits_zero q
  rw [nonneg_iff, le_one_iff]
  refine ⟨⟨_, hx, ?_⟩, ⟨_, hx, ?_⟩⟩
  · rcases h0 with h | h
    · simp [hz h, signed]
    · simp [h, signed]
  · cases neg <;> simp only [signed, Bool.false_eq_true, if_false, if_true] <;> omega

/-- The sum of two values that are not negative is not negative. -/
theorem add_nonneg {x y : F32} (hx : posZero.le x = true) (hy : posZero.le y = true) : posZero.le (x.add y) = true := by
  rw [nonneg_iff] at *
  obtain ⟨a, ha, ha0⟩ := hx
  obtain ⟨b, hb, hb0⟩ := hy
  have hi : 0 < infUnits := by decide +kernel
  have pos : ∀ s, 0 ≤ signed s infUnits → s = false := fun s h => (signed_nonneg h).resolve_left (by omega)
  cases x with
  | nan => simp [rank] at ha
  | inf s =>
    obtain rfl := pos s (by simp only [rank, Option.some.injEq] at ha; omega)
    cases y with
    | nan => simp [rank] at hb
    | inf s' =>
      obtain rfl := pos s' (by simp only [rank, Option.some.injEq] at hb; omega)
      exact ⟨_, rfl, by simp [signed]⟩
    | fin => exact ⟨_, rfl, by simp [signed]⟩
  | fin s e f =>
    cases y with
    | nan => simp [rank] at hb
    | inf s' =>
      obtain rfl := pos s' (by simp only [rank, Option.some.injEq] at hb; omega)
      exact ⟨_, rfl, by simp [signed]⟩
    | fin s' e' f' =>
      simp only [rank, Option.some.injEq] at ha hb
      refine ⟨_, rank_roundInt _ _, ?_⟩
      have : ¬ (signed s (units e f) + signed s' (units e' f') < 0) := by omega
      rw [decide_eq_false this]
      simp [signed]

/-- The product of two values in [0,1] is in [0,1]. -/
theorem mul_unit {x y : F32} (hx : posZero.le x = true ∧ x.le one = true) (hy : posZero.le y = true ∧ y.le one = true) :
    posZero.le (x.mul y) = true ∧ (x.mul y).le one = true := by
  obtain ⟨s, e, f, rfl, h0, h1⟩ := (unit_iff x).1 hx
  obtain ⟨s', e', f', rfl, h0', h1'⟩ := (unit_iff y).1 hy
  refine unit_of_rank_round (by positivity) ?_ (Nat.mul_le_mul h1 h1') (rank_round _ _ _)
  rcases signed_nonneg h0 with h | h <;> rcases signed_nonneg h0' with h' | h' <;> simp [h, h']

/-- One minus a value in [0,1] is in [0,1]. -/
theorem one_sub_unit {x : F32} (hx : posZero.le x = true ∧ x.le one = true) :
    posZero.le (one.sub x) = true ∧ (one.sub x).le one = true := by
  obtain ⟨s, e, f, rfl, h0, h1⟩ := (unit_iff x).1 hx
  rw [one_eq]
  have hn : signed (!s) (units e f) = -signed s (units e f) := by cases s <;> simp [signed]
  have hone : signed false (units 127 0) = 2 ^ 149 := by rw [units_one]; rfl
  have hle : signed s (units e f) ≤ 2 ^ 149 := by
    cases s <;> simp only [signed, Bool.false_eq_true, if_false, if_true] <;> omega
  have hx : (sub (fin false 127 0) (fin s e f)) =
      roundInt (false && !s) (signed false (units 127 0) + signed (!s) (units e f)) := rfl
  rw [hx, hn, hone]
  refine unit_of_rank_round (q := 1) (by norm_num) ?_ ?_ (rank_roundInt _ _)
  · right
    simp
    omega
  · omega

/-- A value that is not negative, divided by a greater one, is in [0,1]. -/
theorem div_unit {x y : F32} (hx : posZero.le x = true) (hxy : x.lt y = true) (hy : y.isFinite = true) :
    posZero.le (x.div y) = true ∧ (x.div y).le one = true := by
  rw [nonneg_iff] at hx
  obtain ⟨a, ha, ha0⟩ := hx
  obtain ⟨a', b, ha', hb, hab⟩ := (lt_iff x y).1 hxy
  obtain rfl : a = a' := by simpa [ha] using ha'
  cases y with
  | nan => simp at hy
  | inf => simp at hy
  | fin s' e' f' =>
    simp only [rank, Option.some.injEq] at hb
    subst hb
    have hs' : s' = false := (signed_nonneg (by omega : 0 ≤ signed s' (units e' f'))).resolve_left (by
      intro h
      rw [h] at hab
      cases s' <;> simp [signed] at hab <;> omega)
    subst hs'
    have hlt := units_lt e' f'
    simp only [signed, Bool.false_eq_true, if_false] at hab
    cases x with
    | nan => simp [rank] at ha
    | inf s =>
      exfalso
      simp only [rank, Option.some.injEq] at ha
      cases s
      · simp only [signed, Bool.false_eq_true, if_false] at ha
        omega
      · have hi : 0 < infUnits := by decide +kernel
        simp only [signed, if_true] at ha
        omega
    | fin s e f =>
      simp only [rank, Option.some.injEq] at ha
      subst ha
      have hpos : units e' f' ≠ 0 := by intro h; rw [h] at hab; omega
      have hle : units e f ≤ units e' f' := by
        rcases signed_nonneg ha0 with h | h
        · omega
        · subst h
          simp only [signed, Bool.false_eq_true, if_false] at hab
          omega
      simp only [div, if_neg hpos, Bool.xor_false]
      refine unit_of_rank_round (by omega) ?_ ?_ (rank_round _ _ _)
      · rcases signed_nonneg ha0 with h | h <;> simp [h]
      · calc units e f * 2 ^ 149 ≤ units e' f' * 2 ^ 149 := Nat.mul_le_mul_right _ hle
          _ = 2 ^ 149 * units e' f' := Nat.mul_comm _ _

end Sys2Proof.F32
end

