-- ==== Sys2Proof/Laws/State.lean ====
section
/-! SUPPORT. One lemma for each field of State under each update of it, so that no later proof unfolds a record
update. -/

namespace Sys2Proof.Machine

/-! ## setSlot -/

@[simp] theorem setSlot_params (s : State) (n : Fin nSlot) (v : Voice) : (setSlot s n v).params = s.params := rfl
@[simp] theorem setSlot_volume (s : State) (n : Fin nSlot) (v : Voice) : (setSlot s n v).volume = s.volume := rfl
@[simp] theorem setSlot_tmpl (s : State) (n : Fin nSlot) (v : Voice) : (setSlot s n v).tmpl = s.tmpl := rfl
@[simp] theorem setSlot_slots (s : State) (n : Fin nSlot) (v : Voice) :
    (setSlot s n v).slots = s.slots.set n (some v) := rfl
@[simp] theorem setSlot_pending (s : State) (n : Fin nSlot) (v : Voice) : (setSlot s n v).pending = s.pending := rfl
@[simp] theorem setSlot_responses (s : State) (n : Fin nSlot) (v : Voice) :
    (setSlot s n v).responses = s.responses := rfl
@[simp] theorem setSlot_draws (s : State) (n : Fin nSlot) (v : Voice) : (setSlot s n v).draws = s.draws := rfl
@[simp] theorem setSlot_config (s : State) (n : Fin nSlot) (v : Voice) : (setSlot s n v).config = s.config := rfl

/-- The slot written holds the voice written. -/
theorem setSlot_self (s : State) (n : Fin nSlot) (v : Voice) : (setSlot s n v).slots[n] = some v := by simp

/-- The other slots are as before. -/
theorem setSlot_other (s : State) {n m : Fin nSlot} (v : Voice) (h : m ≠ n) :
    (setSlot s n v).slots[m] = s.slots[m] := by
  have hv : (n : Nat) ≠ m := fun e => h (Fin.ext e.symm)
  simp [hv]

/-! ## broadcast -/

@[simp] theorem broadcast_params (f : Voice → Voice) (g : VoiceParams → VoiceParams) (s : State) :
    (broadcast f g s).params = s.params := rfl
@[simp] theorem broadcast_volume (f : Voice → Voice) (g : VoiceParams → VoiceParams) (s : State) :
    (broadcast f g s).volume = s.volume := rfl
@[simp] theorem broadcast_slots (f : Voice → Voice) (g : VoiceParams → VoiceParams) (s : State) :
    (broadcast f g s).slots = mapVoices f s.slots := rfl
@[simp] theorem broadcast_pending (f : Voice → Voice) (g : VoiceParams → VoiceParams) (s : State) :
    (broadcast f g s).pending = s.pending := rfl
@[simp] theorem broadcast_responses (f : Voice → Voice) (g : VoiceParams → VoiceParams) (s : State) :
    (broadcast f g s).responses = s.responses := rfl
@[simp] theorem broadcast_draws (f : Voice → Voice) (g : VoiceParams → VoiceParams) (s : State) :
    (broadcast f g s).draws = s.draws := rfl
@[simp] theorem broadcast_config (f : Voice → Voice) (g : VoiceParams → VoiceParams) (s : State) :
    (broadcast f g s).config = s.config := rfl

theorem broadcast_tmpl_current (f : Voice → Voice) (g : VoiceParams → VoiceParams) (s : State)
    (h : s.params.newVoiceInit = .current) : (broadcast f g s).tmpl = g s.tmpl := by simp [broadcast, h]

theorem broadcast_tmpl_defaults (f : Voice → Voice) (g : VoiceParams → VoiceParams) (s : State)
    (h : s.params.newVoiceInit = .defaults) : (broadcast f g s).tmpl = s.tmpl := by simp [broadcast, h]

/-! ## respond -/

@[simp] theorem respond_params (s : State) (p : Port) (w : Word32) : (respond s p w).params = s.params := rfl
@[simp] theorem respond_volume (s : State) (p : Port) (w : Word32) : (respond s p w).volume = s.volume := rfl
@[simp] theorem respond_tmpl (s : State) (p : Port) (w : Word32) : (respond s p w).tmpl = s.tmpl := rfl
@[simp] theorem respond_slots (s : State) (p : Port) (w : Word32) : (respond s p w).slots = s.slots := rfl
@[simp] theorem respond_pending (s : State) (p : Port) (w : Word32) : (respond s p w).pending = s.pending := rfl
@[simp] theorem respond_responses (s : State) (p : Port) (w : Word32) : (respond s p w).responses = ⟨p, w⟩ :: s.responses := rfl
@[simp] theorem respond_draws (s : State) (p : Port) (w : Word32) : (respond s p w).draws = s.draws := rfl

/-! ## sampleWith -/

@[simp] theorem sampleWith_params (order : List (Fin nSlot)) (d : BitVec 23) (s : State) :
    (sampleWith order d s).params = s.params := by unfold sampleWith respond; rfl
@[simp] theorem sampleWith_volume (order : List (Fin nSlot)) (d : BitVec 23) (s : State) :
    (sampleWith order d s).volume = s.volume := by unfold sampleWith respond; rfl
@[simp] theorem sampleWith_tmpl (order : List (Fin nSlot)) (d : BitVec 23) (s : State) :
    (sampleWith order d s).tmpl = s.tmpl := by unfold sampleWith respond; rfl
@[simp] theorem sampleWith_slots (order : List (Fin nSlot)) (d : BitVec 23) (s : State) :
    (sampleWith order d s).slots = mapVoices (fun v => (voiceNext s.config v).1) s.slots := rfl
@[simp] theorem sampleWith_pending (order : List (Fin nSlot)) (d : BitVec 23) (s : State) :
    (sampleWith order d s).pending = s.pending := by unfold sampleWith respond; rfl
@[simp] theorem sampleWith_responses (order : List (Fin nSlot)) (d : BitVec 23) (s : State) :
    (sampleWith order d s).responses = ⟨.sample, (mixedSample s order).toBits d⟩ :: s.responses := rfl
@[simp] theorem sampleWith_draws (order : List (Fin nSlot)) (d : BitVec 23) (s : State) :
    (sampleWith order d s).draws = s.draws + 1 := rfl

/-! ## pushWord and withFetchWord -/

@[simp] theorem pushWord_params (s : State) (w : Word64) : (pushWord s w).params = s.params := rfl
@[simp] theorem pushWord_volume (s : State) (w : Word64) : (pushWord s w).volume = s.volume := rfl
@[simp] theorem pushWord_tmpl (s : State) (w : Word64) : (pushWord s w).tmpl = s.tmpl := rfl
@[simp] theorem pushWord_slots (s : State) (w : Word64) : (pushWord s w).slots = s.slots := rfl
@[simp] theorem pushWord_pending (s : State) (w : Word64) :
    (pushWord s w).pending = wordTransfer .command w :: s.pending := rfl
@[simp] theorem pushWord_responses (s : State) (w : Word64) : (pushWord s w).responses = s.responses := rfl
@[simp] theorem pushWord_draws (s : State) (w : Word64) : (pushWord s w).draws = s.draws := rfl

theorem withFetchWord_eq (s : State) (nbits w : Nat) : s.withFetchWord nbits w = pushWord s (tableWord nbits w) := rfl

/-! ## resetWith -/

@[simp] theorem resetWith_params (p : Params) : (State.resetWith p).params = p := rfl
@[simp] theorem resetWith_volume (p : Params) : (State.resetWith p).volume = resetVolume p := rfl
@[simp] theorem resetWith_tmpl (p : Params) : (State.resetWith p).tmpl = defaultVoiceParams p := rfl
@[simp] theorem resetWith_pending (p : Params) : (State.resetWith p).pending = [] := rfl
@[simp] theorem resetWith_responses (p : Params) : (State.resetWith p).responses = [] := rfl
@[simp] theorem resetWith_draws (p : Params) : (State.resetWith p).draws = 0 := rfl

/-- After reset no slot is allocated. -/
@[simp] theorem resetWith_slots_getElem (p : Params) (n : Nat) (h : n < nSlot) : (State.resetWith p).slots[n] = none := by
  simp [State.resetWith]

end Sys2Proof.Machine
end

