-- ==== Sys2Proof/Laws/Ops.lean ====
section
/-! SUPPORT. What each shared operation can do: reading a slot after a map, a file entry after a change of one entry,
the orders `permuteBy` can choose, and the derived status bits. -/

namespace Sys2Proof.Machine

/-! ## The voice pool -/

@[simp] theorem mapVoices_getElem (f : Voice → Voice) (slots : Vector (Option Voice) nSlot) (n : Nat) (h : n < nSlot) :
    (mapVoices f slots)[n] = (slots[n]).map f := by simp [mapVoices]

theorem mapVoices_id (slots : Vector (Option Voice) nSlot) : mapVoices (fun v => v) slots = slots := by
  ext n hn : 1
  simp

theorem mapVoices_mapVoices (f g : Voice → Voice) (slots : Vector (Option Voice) nSlot) :
    mapVoices f (mapVoices g slots) = mapVoices (fun v => f (g v)) slots := by
  ext n hn : 1
  simp [Option.map_map, Function.comp_def]

/-- Two changes that agree on every allocated voice change the pool alike. -/
theorem mapVoices_congr {f g : Voice → Voice} {slots : Vector (Option Voice) nSlot}
    (h : ∀ n : Fin nSlot, ∀ v, slots[n] = some v → f v = g v) : mapVoices f slots = mapVoices g slots := by
  ext n hn : 1
  rw [mapVoices_getElem, mapVoices_getElem]
  cases hv : slots[n] with
  | none => rfl
  | some v => exact congrArg some (h ⟨n, hn⟩ v hv)

/-- The voice a NOTE_ON works on: the slot's own, or a new one. -/
theorem voiceOrAlloc_some {s : State} {n : Fin nSlot} {v : Voice} (h : s.slots[n] = some v) : voiceOrAlloc s n = v := by
  unfold voiceOrAlloc
  rw [h]

theorem voiceOrAlloc_none {s : State} {n : Fin nSlot} (h : s.slots[n] = none) :
    voiceOrAlloc s n = newVoice (initialParams s) := by
  unfold voiceOrAlloc
  rw [h]

/-! ## Status bits -/

theorem mem_allocated (s : State) (n : Fin nSlot) : n ∈ allocated s ↔ (s.slots[n]).isSome = true := by simp [allocated]

theorem allocated_nodup (s : State) : (allocated s).Nodup := (List.nodup_finRange _).filter _

theorem count_le (s : State) : count s ≤ 128 := by
  unfold count allocated
  refine (List.length_filter_le _ _).trans ?_
  simp

theorem released_iff (v : Voice) : released v = true ↔ v.active = false ∧ v.env.stage = .idle := by simp [released]

theorem playing_iff (s : State) :
    playing s = true ↔ ∃ n : Fin nSlot, ∃ v, s.slots[n] = some v ∧ released v = false := by
  simp [playing, Option.any_eq_true]

/-! ## Entries of a file -/

theorem entry?_of_lt {k : Nat} {i : BitVec 8} (h : i.toNat < k) : entry? k i = some ⟨i.toNat, h⟩ := by
  unfold entry?
  rw [dif_pos h]

theorem entry?_of_ge {k : Nat} {i : BitVec 8} (h : k ≤ i.toNat) : entry? k i = none := by
  unfold entry?
  rw [dif_neg (by omega)]

theorem modifyEntry_of_lt {α : Type} {k : Nat} (v : Vector α k) {i : BitVec 8} (f : α → α) (h : i.toNat < k) :
    modifyEntry v i f = v.set i.toNat (f v[i.toNat]) := by
  unfold modifyEntry
  rw [entry?_of_lt h]
  rfl

theorem modifyEntry_of_ge {α : Type} {k : Nat} (v : Vector α k) {i : BitVec 8} (f : α → α) (h : k ≤ i.toNat) :
    modifyEntry v i f = v := by
  unfold modifyEntry
  rw [entry?_of_ge h]

/-- One entry after a change of entry `i`. -/
theorem modifyEntry_getElem {α : Type} {k : Nat} (v : Vector α k) (i : BitVec 8) (f : α → α) (j : Nat) (hj : j < k) :
    (modifyEntry v i f)[j] = if i.toNat = j then f v[j] else v[j] := by
  rcases Nat.lt_or_ge i.toNat k with h | h
  · rw [modifyEntry_of_lt v f h, Vector.getElem_set]
    split
    · rename_i e
      subst e
      rfl
    · rfl
  · rw [modifyEntry_of_ge v f h, if_neg (by omega)]

theorem modifyEntry_modifyEntry {α : Type} {k : Nat} (v : Vector α k) (i : BitVec 8) (f g : α → α) :
    modifyEntry (modifyEntry v i f) i g = modifyEntry v i fun x => g (f x) := by
  ext j hj : 1
  simp only [modifyEntry_getElem]
  split <;> rfl

theorem modifyEntry_id {α : Type} {k : Nat} (v : Vector α k) (i : BitVec 8) (f : α → α) (h : ∀ x, f x = x) :
    modifyEntry v i f = v := by
  ext j hj : 1
  rw [modifyEntry_getElem, h, ite_self]

/-! ## Orders -/

theorem insertAt_perm {α : Type} (x : α) (k : Nat) (l : List α) : (insertAt x k l).Perm (x :: l) := by
  induction l generalizing k with
  | nil => cases k <;> exact .refl _
  | cons y ys ih =>
    cases k with
    | zero => exact .refl _
    | succ k => exact ((ih k).cons y).trans (.swap x y ys)

theorem permuteBy_perm {α : Type} (pick : Nat → Nat) (l : List α) : (permuteBy pick l).Perm l := by
  induction l with
  | nil => exact .refl _
  | cons x xs ih => exact (insertAt_perm x _ _).trans (ih.cons x)

/-- The order of a SAMPLE holds every allocated slot once. -/
theorem mixOrder_perm (s : State) : (mixOrder s).Perm (allocated s) := permuteBy_perm _ _

/-! ## clamp -/

theorem clamp_eq (x lo hi : F32) : clamp x lo hi = if x.lt lo then lo else if hi.lt x then hi else x := rfl

/-- A second clamp to the same range changes nothing. -/
theorem clamp_clamp (x lo hi : F32) (h : lo.le hi = true) : clamp (clamp x lo hi) lo hi = clamp x lo hi := by
  have hl : lo.lt lo = false := by cases lo <;> simp [F32.lt, F32.rank]
  have hh : hi.lt hi = false := by cases hi <;> simp [F32.lt, F32.rank]
  have hhl : hi.lt lo = false := by
    cases hi <;> cases lo <;> simp_all [F32.le, F32.lt, F32.rank]
  unfold clamp
  by_cases h1 : x.lt lo = true
  · simp [h1, hl, hhl]
  · by_cases h2 : hi.lt x = true
    · simp [h1, h2, hh, hhl]
    · simp [h1, h2]

end Sys2Proof.Machine
end

