-- ==== Sys2Proof/Laws/Step.lean ====
section
/-! SUPPORT. What a command and a step can do, said once: later proofs cite these and unfold neither exec nor step. -/

namespace Sys2Proof.Machine

/-! ## Meanings -/

theorem execNoteOn_eq (note : BitVec 7) (vel : F32) (s : State) :
    exec (.noteOn note vel) s =
      .next (setSlot s (noteSlot note) (voiceNoteOn s.config (voiceOrAlloc s (noteSlot note)) (noteSlot note) vel)) := rfl

theorem execNoteOff_some {note : BitVec 7} {s : State} {v : Voice} (h : s.slots[noteSlot note] = some v) :
    exec (.noteOff note) s = .next (setSlot s (noteSlot note) (voiceNoteOff v)) := by
  simp only [exec, execNoteOff, h]

theorem execNoteOff_none {note : BitVec 7} {s : State} (h : s.slots[noteSlot note] = none) :
    exec (.noteOff note) s = .next s := by
  simp only [exec, execNoteOff, h]

theorem execSample_eq (s : State) : exec .sample s = .next (sampleWith (mixOrder s) (Config.nanDraw s.draws) s) := rfl

/-- The change a global setter makes in a voice, with SR given; the identity for the other commands. -/
def voiceEdit (sr : F32) : Instr → Voice → Voice
  | .setBlend x, v => blSetBlend v x
  | .setCutoff x, v => { v with flt := fltSetCutoff sr v.flt x }
  | .setResonance x, v => { v with flt := fltSetRes v.flt x }
  | .setAttack x, v => { v with env := envSetAttack v.env x }
  | .setDecay x, v => { v with env := envSetDecay v.env x }
  | .setSustain x, v => { v with env := envSetSustain v.env x }
  | .setRelease x, v => { v with env := envSetRelease v.env x }
  | .setHarmAmp j a, v => { v with add := addSetHarmAmp v.add j a }
  | .toggleHarm j, v => { v with add := addToggleHarm v.add j }
  | .setOpRatio j r, v => { v with fm := fmSetOpRatio v.fm j r }
  | .setOpAmp j a, v => { v with fm := fmSetOpAmp v.fm j a }
  | .setOpFeedback j fb, v => { v with fm := fmSetOpFeedback v.fm j fb }
  | .toggleOp j, v => { v with fm := fmToggleOp v.fm j }
  | .noteOn _ _, v => v
  | .noteOff _, v => v
  | .sample, v => v
  | .queryPlaying, v => v
  | .setVolume _, v => v

/-- The same change in the template. -/
def tmplEdit (sr : F32) : Instr → VoiceParams → VoiceParams
  | .setBlend x, P => tmplSetBlend P x
  | .setCutoff x, P => tmplSetCutoff sr P x
  | .setResonance x, P => tmplSetRes P x
  | .setAttack x, P => tmplSetAttack P x
  | .setDecay x, P => tmplSetDecay P x
  | .setSustain x, P => tmplSetSustain P x
  | .setRelease x, P => tmplSetRelease P x
  | .setHarmAmp j a, P => tmplSetHarmAmp P j a
  | .toggleHarm j, P => tmplToggleHarm P j
  | .setOpRatio j r, P => tmplSetOpRatio P j r
  | .setOpAmp j a, P => tmplSetOpAmp P j a
  | .setOpFeedback j fb, P => tmplSetOpFeedback P j fb
  | .toggleOp j, P => tmplToggleOp P j
  | .noteOn _ _, P => P
  | .noteOff _, P => P
  | .sample, P => P
  | .queryPlaying, P => P
  | .setVolume _, P => P

/-- The thirteen commands that broadcast (47_commands.md R245). -/
def broadcasts : Instr → Bool
  | .noteOn _ _ => false
  | .noteOff _ => false
  | .sample => false
  | .queryPlaying => false
  | .setVolume _ => false
  | .setBlend _ => true
  | .setCutoff _ => true
  | .setResonance _ => true
  | .setAttack _ => true
  | .setDecay _ => true
  | .setSustain _ => true
  | .setRelease _ => true
  | .setHarmAmp _ _ => true
  | .toggleHarm _ => true
  | .setOpRatio _ _ => true
  | .setOpAmp _ _ => true
  | .setOpFeedback _ _ => true
  | .toggleOp _ => true

theorem exec_broadcast {i : Instr} (s : State) (h : broadcasts i = true) :
    exec i s = .next (broadcast (voiceEdit s.params.sr i) (tmplEdit s.params.sr i) s) := by
  cases i <;> first | rfl | simp [broadcasts] at h

/-- Everything a command can do to the block. -/
theorem exec_cases {i : Instr} {s t : State} (h : exec i s = .next t) :
    (∃ note vel, i = .noteOn note vel ∧
      t = setSlot s (noteSlot note) (voiceNoteOn s.config (voiceOrAlloc s (noteSlot note)) (noteSlot note) vel)) ∨
    (∃ note v, i = .noteOff note ∧ s.slots[noteSlot note] = some v ∧ t = setSlot s (noteSlot note) (voiceNoteOff v)) ∨
    (∃ note, i = .noteOff note ∧ s.slots[noteSlot note] = none ∧ t = s) ∨
    (i = .sample ∧ t = sampleWith (mixOrder s) (Config.nanDraw s.draws) s) ∨
    (i = .queryPlaying ∧ t = respond s .command (if playing s then 1 else 0)) ∨
    (∃ x, i = .setVolume x ∧ t = { s with volume := clampUnit x }) ∨
    (broadcasts i = true ∧ t = broadcast (voiceEdit s.params.sr i) (tmplEdit s.params.sr i) s) := by
  cases hb : broadcasts i with
  | true =>
    rw [exec_broadcast s hb] at h
    cases h
    simp
  | false =>
    cases i <;> first | (simp [broadcasts] at hb; done) | skip
    case noteOn => cases h; simp
    case noteOff note =>
      cases hv : s.slots[noteSlot note] with
      | none =>
        rw [execNoteOff_none hv] at h
        cases h
        exact .inr (.inr (.inl ⟨note, rfl, hv, rfl⟩))
      | some v =>
        rw [execNoteOff_some hv] at h
        cases h
        exact .inr (.inl ⟨note, v, rfl, hv, rfl⟩)
    case sample => cases h; simp
    case queryPlaying => cases h; simp
    case setVolume => cases h; simp

/-! ## Steps -/

theorem step_idle {s : State} (h : s.pending = []) : step s = .next s := by
  unfold step
  rw [h]

theorem step_refused {s : State} {t : Transfer} {rest : List Transfer} {e : DecodeError} (h : s.pending = t :: rest)
    (hd : decodeTransfer t = .error e) : step s = .refused (refusalOf e) := by
  unfold step
  rw [h]
  simp only [hd]

/-- Everything a step that is taken can do: nothing is pending and nothing changes, or one command runs. -/
theorem step_cases {s t : State} (h : step s = .next t) :
    (s.pending = [] ∧ t = s) ∨
    ∃ tr rest i, s.pending = tr :: rest ∧ decodeTransfer tr = .ok i ∧ exec i { s with pending := rest } = .next t := by
  unfold step at h
  cases hp : s.pending with
  | nil =>
    rw [hp] at h
    cases h
    exact .inl ⟨rfl, rfl⟩
  | cons tr rest =>
    rw [hp] at h
    cases hd : decodeTransfer tr with
    | error e => simp [hd] at h
    | ok i => exact .inr ⟨tr, rest, i, rfl, hd, by simpa [hd] using h⟩

/-- One more step in front of a run. -/
theorem core_run_succ (k : Nat) {s u : State} (h : step s = .next u) : core.run (k + 1) s = core.run k u := by
  have h' : core.step s = .next u := h
  refine (Host.Core.run.eq_2 core s k).trans ?_
  rw [h']

end Sys2Proof.Machine
end

