-- ==== Sys2Proof/Laws/Components.lean ====
section
/-! SUPPORT. What each component of a voice can do to its fields (40_oscillator.md to 46_voice.md), said once. -/

namespace Sys2Proof.Machine

/-! ## Legal values -/

theorem voiceParams_legal_iff (sr : F32) (P : VoiceParams) : P.legal sr = true ↔ LegalParamSet sr P := decide_eq_true_iff
theorem voice_legal_iff (sr : F32) (v : Voice) : v.legal sr = true ↔ LegalVoice sr v := decide_eq_true_iff

/-! ## Oscillator -/

@[simp] theorem oscNext_freq (C : Config) (o : Osc) : (oscNext C o).1.freq = o.freq := by rw [oscNext]
@[simp] theorem oscNext_amp (C : Config) (o : Osc) : (oscNext C o).1.amp = o.amp := by rw [oscNext]
theorem oscNext_phase (C : Config) (o : Osc) : (oscNext C o).1.phase = wrap1 (o.phase.add (o.freq.div C.sr)) := by
  rw [oscNext, oscAdvance]
theorem oscNext_snd (C : Config) (o : Osc) :
    (oscNext C o).2 = o.amp.mul (C.sin32 (F32.tau.mul (wrap1 (o.phase.add (o.freq.div C.sr))))) := by
  rw [oscNext, oscAdvance]

/-! ## Additive engine -/

@[simp] theorem addNext_harm (C : Config) (a : Additive) : (addNext C a).1.harm = a.harm := by rw [addNext]

@[simp] theorem addNext_osc (C : Config) (a : Additive) (i : Nat) (h : i < nHarm) :
    (addNext C a).1.osc[i] = (oscNext C a.osc[i]).1 := by simp [addNext]

theorem addNext_snd (C : Config) (a : Additive) :
    (addNext C a).2 =
      ((List.finRange nHarm).foldl (fun s i => s.add (oscNext C a.osc[i]).2) F32.posZero).div (F32.ofInt 64) := by
  rw [addNext]

@[simp] theorem addSetBase_harm (a : Additive) (f : F32) : (addSetBase a f).harm = a.harm := by rw [addSetBase]

@[simp] theorem addSetBase_osc (a : Additive) (f : F32) (i : Nat) (h : i < nHarm) :
    (addSetBase a f).osc[i] = ⟨(a.osc[i]).phase, f.mul (a.harm[i]).mult, harmAmp a.harm[i]⟩ := by
  simp [addSetBase, oscSetAmp, oscSetFreq]

theorem addModifyHarm_of_lt (a : Additive) {i : BitVec 8} (g : Harm → Harm) (h : i.toNat < nHarm) :
    addModifyHarm a i g =
      { harm := a.harm.set i.toNat (g a.harm[i.toNat])
        osc := a.osc.set i.toNat (oscSetAmp a.osc[i.toNat] (harmAmp (g a.harm[i.toNat]))) } := by
  unfold addModifyHarm
  rw [entry?_of_lt h]
  rfl

theorem addModifyHarm_of_ge (a : Additive) {i : BitVec 8} (g : Harm → Harm) (h : nHarm ≤ i.toNat) :
    addModifyHarm a i g = a := by
  unfold addModifyHarm
  rw [entry?_of_ge h]

theorem addModifyHarm_harm (a : Additive) (i : BitVec 8) (g : Harm → Harm) :
    (addModifyHarm a i g).harm = modifyEntry a.harm i g := by
  rcases Nat.lt_or_ge i.toNat nHarm with h | h
  · rw [addModifyHarm_of_lt a g h, modifyEntry_of_lt a.harm g h]
  · rw [addModifyHarm_of_ge a g h, modifyEntry_of_ge a.harm g h]

theorem addModifyHarm_osc (a : Additive) (i : BitVec 8) (g : Harm → Harm) (j : Nat) (hj : j < nHarm) :
    (addModifyHarm a i g).osc[j] = if i.toNat = j then oscSetAmp a.osc[j] (harmAmp (g a.harm[j])) else a.osc[j] := by
  rcases Nat.lt_or_ge i.toNat nHarm with h | h
  · rw [addModifyHarm_of_lt a g h]
    simp only [Vector.getElem_set]
    split
    · rename_i e
      subst e
      rfl
    · rfl
  · rw [addModifyHarm_of_ge a g h, if_neg (by omega)]

/-! ## FM engine -/

@[simp] theorem fmSetBase_op (m : Fm) (f : F32) : (fmSetBase m f).op = m.op := rfl
@[simp] theorem fmSetBase_fbuf (m : Fm) (f : F32) : (fmSetBase m f).fbuf = m.fbuf := rfl
@[simp] theorem fmSetBase_base (m : Fm) (f : F32) : (fmSetBase m f).base = f := rfl

@[simp] theorem fmSetBase_osc (m : Fm) (f : F32) (i : Nat) (h : i < nOp) :
    (fmSetBase m f).osc[i] = ⟨(m.osc[i]).phase, f.mul (m.op[i]).ratio, (m.osc[i]).amp⟩ := by simp [fmSetBase, oscSetFreq]

/-- One turn of FM_NEXT writes the turn's oscillator phase and buffer, and only when the operator is enabled. -/
theorem fmStep_spec (C : Config) (acc : Fm × F32) (i : Fin nOp) :
    (fmStep C acc i).1.op = acc.1.op ∧ (fmStep C acc i).1.base = acc.1.base ∧
    ∀ (j : Nat) (hj : j < nOp),
      (fmStep C acc i).1.osc[j] =
        (if i.val = j ∧ (acc.1.op[j]).en = true then (oscNext C acc.1.osc[j]).1 else acc.1.osc[j]) ∧
      (¬ (i.val = j ∧ (acc.1.op[j]).en = true) → (fmStep C acc i).1.fbuf[j] = acc.1.fbuf[j]) := by
  obtain ⟨i, hi⟩ := i
  by_cases h : (acc.1.op[i]).en = true
  · have hs : fmStep C acc ⟨i, hi⟩ =
        ((fmOperatorNext C acc.1 ⟨i, hi⟩).1, acc.2.add (fmOperatorNext C acc.1 ⟨i, hi⟩).2) := by
      rw [fmStep, if_pos (by exact h)]
    rw [hs, fmOperatorNext]
    refine ⟨rfl, rfl, fun j hj => ?_⟩
    by_cases e : i = j
    · subst e
      simp [h]
    · simp [e]
  · have hs : fmStep C acc ⟨i, hi⟩ = acc := by rw [fmStep, if_neg (by exact h)]
    rw [hs]
    refine ⟨rfl, rfl, fun j hj => ⟨?_, fun _ => rfl⟩⟩
    have : ¬ (i = j ∧ (acc.1.op[j]).en = true) := by
      rintro ⟨rfl, h'⟩
      exact h h'
    simp only [this, if_false]

/-- A list of turns of FM_NEXT, each operator at most once. -/
theorem fmSteps_spec (C : Config) (l : List (Fin nOp)) (acc : Fm × F32) (hnd : l.Nodup) :
    (l.foldl (fmStep C) acc).1.op = acc.1.op ∧ (l.foldl (fmStep C) acc).1.base = acc.1.base ∧
    ∀ (j : Nat) (hj : j < nOp),
      (l.foldl (fmStep C) acc).1.osc[j] =
        (if ⟨j, hj⟩ ∈ l ∧ (acc.1.op[j]).en = true then (oscNext C acc.1.osc[j]).1 else acc.1.osc[j]) ∧
      ((acc.1.op[j]).en = false → (l.foldl (fmStep C) acc).1.fbuf[j] = acc.1.fbuf[j]) := by
  induction l generalizing acc with
  | nil => simp
  | cons i is ih =>
    obtain ⟨hni, hnd⟩ := List.nodup_cons.1 hnd
    obtain ⟨h1, h2, h3⟩ := fmStep_spec C acc i
    obtain ⟨k1, k2, k3⟩ := ih (fmStep C acc i) hnd
    rw [List.foldl_cons]
    refine ⟨k1.trans h1, k2.trans h2, fun j hj => ?_⟩
    obtain ⟨k3, k4⟩ := k3 j hj
    obtain ⟨h3, h4⟩ := h3 j hj
    simp only [h1] at k3 k4
    refine ⟨?_, fun he => (k4 he).trans (h4 fun hc => by rw [he] at hc; simp at hc)⟩
    rw [k3, h3]
    by_cases e : i.val = j
    · have : (⟨j, hj⟩ : Fin nOp) = i := Fin.ext e.symm
      simp [this, hni, e]
    · have : (⟨j, hj⟩ : Fin nOp) ≠ i := fun h => e (congrArg Fin.val h).symm
      simp [this, e]

/-- A list of turns of FM_NEXT writes the buffers of its own operators only. -/
theorem fmSteps_fbuf_of_notMem (C : Config) (l : List (Fin nOp)) (acc : Fm × F32) {j : Fin nOp} (h : j ∉ l) :
    (l.foldl (fmStep C) acc).1.fbuf[j] = acc.1.fbuf[j] := by
  induction l generalizing acc with
  | nil => rfl
  | cons i is ih =>
    rw [List.foldl_cons, ih _ fun hj => h (List.mem_cons_of_mem _ hj)]
    refine ((fmStep_spec C acc i).2.2 j j.2).2 fun hc => h ?_
    rw [← Fin.ext hc.1]
    exact List.mem_cons_self

theorem fmNext_fst (C : Config) (m : Fm) :
    (fmNext C m).1 = ((List.finRange nOp).foldl (fmStep C) (m, F32.posZero)).1 := by rw [fmNext]

/-- FM_NEXT writes oscillator phases and buffers of enabled operators only. -/
theorem fmNext_spec (C : Config) (m : Fm) :
    (fmNext C m).1.op = m.op ∧ (fmNext C m).1.base = m.base ∧
    ∀ (j : Nat) (hj : j < nOp),
      (fmNext C m).1.osc[j] = (if (m.op[j]).en = true then (oscNext C m.osc[j]).1 else m.osc[j]) ∧
      ((m.op[j]).en = false → (fmNext C m).1.fbuf[j] = m.fbuf[j]) := by
  have h := fmSteps_spec C (List.finRange nOp) (m, F32.posZero) (List.nodup_finRange _)
  simp only [List.mem_finRange, true_and, ← fmNext_fst] at h
  exact h

@[simp] theorem fmNext_op (C : Config) (m : Fm) : (fmNext C m).1.op = m.op := (fmNext_spec C m).1
@[simp] theorem fmNext_base (C : Config) (m : Fm) : (fmNext C m).1.base = m.base := (fmNext_spec C m).2.1

/-! ## Envelope -/

/-- The parameters and the gate are kept, and the value written is the value returned. -/
theorem envNext_frame (sr : F32) (e : Env) :
    (envNext sr e).1.A = e.A ∧ (envNext sr e).1.D = e.D ∧ (envNext sr e).1.S = e.S ∧ (envNext sr e).1.R = e.R ∧
    (envNext sr e).1.gate = e.gate ∧ (envNext sr e).1.value = (envNext sr e).2 := by
  unfold envNext envStage
  dsimp only
  cases e.stage <;> dsimp only <;> (try split) <;> simp

/-- The elapsed time of this sample. -/
def elapsedNow (sr : F32) (e : Env) : F32 := e.elapsed.add (samplePeriod sr)

/-- Everything one sample of the envelope can do, stage by stage (44_envelope.md R176-R181). -/
theorem envNext_cases (sr : F32) (e : Env) :
    (e.stage = .attack ∧ e.A.le (elapsedNow sr e) = true ∧
      envNext sr e = ({ e with stage := .decay, elapsed := F32.posZero, value := F32.one }, F32.one)) ∨
    (e.stage = .attack ∧ e.A.le (elapsedNow sr e) = false ∧
      envNext sr e = ({ e with elapsed := elapsedNow sr e, value := (elapsedNow sr e).div e.A },
        (elapsedNow sr e).div e.A)) ∨
    (e.stage = .decay ∧ e.D.le (elapsedNow sr e) = true ∧
      envNext sr e = ({ e with stage := .sustain, elapsed := F32.posZero, value := e.S }, e.S)) ∨
    (e.stage = .decay ∧ e.D.le (elapsedNow sr e) = false ∧
      envNext sr e = ({ e with elapsed := elapsedNow sr e, value := decayRamp e (elapsedNow sr e) },
        decayRamp e (elapsedNow sr e))) ∨
    (e.stage = .sustain ∧ e.gate = true ∧
      envNext sr e = ({ e with elapsed := elapsedNow sr e, value := e.S }, e.S)) ∨
    (e.stage = .sustain ∧ e.gate = false ∧
      envNext sr e = ({ e with stage := .release, elapsed := F32.posZero, value := e.S }, e.S)) ∨
    (e.stage = .release ∧ e.R.le (elapsedNow sr e) = true ∧
      envNext sr e = ({ e with stage := .idle, elapsed := F32.posZero, value := F32.posZero }, F32.posZero)) ∨
    (e.stage = .release ∧ e.R.le (elapsedNow sr e) = false ∧
      envNext sr e = ({ e with elapsed := elapsedNow sr e, value := releaseRamp e (elapsedNow sr e) },
        releaseRamp e (elapsedNow sr e))) ∨
    (e.stage = .idle ∧ envNext sr e = ({ e with elapsed := elapsedNow sr e, value := F32.posZero }, F32.posZero)) := by
  obtain ⟨A, D, S, R, stage, elapsed, value, gate⟩ := e
  cases stage with
  | attack =>
    cases h : A.le (elapsed.add (samplePeriod sr)) <;>
      simp [envNext, envStage, elapsedNow, attackRamp, h]
  | decay =>
    cases h : D.le (elapsed.add (samplePeriod sr)) <;>
      simp [envNext, envStage, elapsedNow, decayRamp, h]
  | sustain => cases gate <;> simp [envNext, envStage, elapsedNow]
  | release =>
    cases h : R.le (elapsed.add (samplePeriod sr)) <;>
      simp [envNext, envStage, elapsedNow, releaseRamp, h]
  | idle => simp [envNext, envStage, elapsedNow]

/-! ## Filter -/

@[simp] theorem fltProcess_cutoff (C : Config) (f : Flt) (x : F32) : (fltProcess C f x).1.cutoff = f.cutoff := by
  rw [fltProcess]
@[simp] theorem fltProcess_q (C : Config) (f : Flt) (x : F32) : (fltProcess C f x).1.q = f.q := by rw [fltProcess]
@[simp] theorem fltProcess_buf1 (C : Config) (f : Flt) (x : F32) : (fltProcess C f x).1.buf1 = f.buf0 := by
  rw [fltProcess]
@[simp] theorem fltProcess_buf0 (C : Config) (f : Flt) (x : F32) : (fltProcess C f x).1.buf0 = (fltProcess C f x).2 := by
  rw [fltProcess]
theorem fltProcess_snd (C : Config) (f : Flt) (x : F32) :
    (fltProcess C f x).2 = biquad (fltCoeffs C f) x f.buf0 f.buf1 := by rw [fltProcess]

/-- A NaN in a tap reaches the output through the recurrence. -/
theorem biquad_nan_tap (k : Coeffs) (x b0 b1 : F32) (h : b0 = .nan ∨ b1 = .nan) : biquad k x b0 b1 = .nan := by
  have add_nan : ∀ y : F32, y.add .nan = .nan := by intro y; cases y <;> rfl
  have nan_add : ∀ y : F32, F32.nan.add y = .nan := fun _ => rfl
  have mul_nan : ∀ y : F32, y.mul .nan = .nan := by intro y; cases y <;> rfl
  have nan_sub : ∀ y : F32, F32.nan.sub y = .nan := fun _ => rfl
  have nan_div : ∀ y : F32, F32.nan.div y = .nan := fun _ => rfl
  unfold biquad
  rcases h with rfl | rfl <;> simp only [mul_nan, add_nan, nan_add, nan_sub, nan_div]

/-! ## Voice -/

/-- A released voice under P_SHORT_CIRCUIT. -/
theorem voiceNext_released {C : Config} {v : Voice} (h : (C.shortCircuit && released v) = true) :
    voiceNext C v = (v, F32.posZero) := by rw [voiceNext, if_pos h]

/-- Every other voice runs the chain. -/
theorem voiceNext_chain {C : Config} {v : Voice} (h : (C.shortCircuit && released v) = false) :
    voiceNext C v =
      ({ v with
          add := (addNext C v.add).1
          fm := (fmNext C v.fm).1
          env := (envNext C.sr v.env).1
          flt := (fltProcess C v.flt ((crossfade v.blend (addNext C v.add).2 (fmNext C v.fm).2).mul
            (envNext C.sr v.env).2)).1 },
        (fltProcess C v.flt ((crossfade v.blend (addNext C v.add).2 (fmNext C v.fm).2).mul
          (envNext C.sr v.env).2)).2.mul v.velocity) := by
  rw [voiceNext, if_neg (by rw [h]; decide)]
  rfl

/-- The chain keeps velocity, active flag and the parameters. -/
theorem voiceNext_frame (C : Config) (v : Voice) :
    (voiceNext C v).1.velocity = v.velocity ∧ (voiceNext C v).1.active = v.active ∧
    (voiceNext C v).1.blend = v.blend ∧ (voiceNext C v).1.add.harm = v.add.harm ∧ (voiceNext C v).1.fm.op = v.fm.op ∧
    (voiceNext C v).1.fm.base = v.fm.base := by
  unfold voiceNext
  split
  · simp
  · simp [voiceChain, blNext]

/-- A global setter writes the parameters of a voice as it writes the template (47_commands.md R245). -/
theorem voiceEdit_paramSet (sr : F32) (i : Instr) (v : Voice) :
    (voiceEdit sr i v).paramSet = tmplEdit sr i v.paramSet := by
  cases i
  case setHarmAmp j a =>
    simp only [voiceEdit, tmplEdit, Voice.paramSet, tmplSetHarmAmp, addSetHarmAmp, addModifyHarm_harm,
      VoiceParams.mk.injEq, true_and, and_true]
    ext k hk : 1
    simp only [Vector.getElem_ofFn, modifyEntry_getElem]
    simp only [Fin.getElem_fin, modifyEntry_getElem]
    split <;> rfl
  case toggleHarm j =>
    simp only [voiceEdit, tmplEdit, Voice.paramSet, tmplToggleHarm, addToggleHarm, addModifyHarm_harm,
      VoiceParams.mk.injEq, true_and, and_true]
    ext k hk : 1
    simp only [Vector.getElem_ofFn, modifyEntry_getElem]
    simp only [Fin.getElem_fin, modifyEntry_getElem]
    split <;> rfl
  all_goals rfl

/-- A new voice holds the parameters it was made from (70_reset_and_hazards.md R331). -/
theorem newVoice_paramSet (P : VoiceParams) : (newVoice P).paramSet = P := by
  obtain ⟨blend, harm, op, A, D, S, R, cutoff, q⟩ := P
  simp only [newVoice, Voice.paramSet, newAdditive, newFm, VoiceParams.mk.injEq, true_and, and_true]
  ext k hk : 1
  simp

@[simp] theorem voiceNoteOn_paramSet (C : Config) (v : Voice) (n : Fin nSlot) (vel : F32) :
    (voiceNoteOn C v n vel).paramSet = v.paramSet := by
  simp [voiceNoteOn, blSetFreq, Voice.paramSet, envNoteOn]

/-- What VOICE_NOTE_OFF does (46_voice.md R223, 44_envelope.md R175): ENV_NOTE_OFF, and the active flag false. -/
theorem voiceNoteOff_spec (v : Voice) :
    (voiceNoteOff v).env = envNoteOff v.env ∧ (voiceNoteOff v).active = false ∧
    (voiceNoteOff v).env.stage = .release ∧ (voiceNoteOff v).env.gate = false ∧
    (voiceNoteOff v).env.elapsed = F32.posZero := ⟨rfl, rfl, rfl, rfl, rfl⟩

@[simp] theorem voiceNoteOff_paramSet (v : Voice) : (voiceNoteOff v).paramSet = v.paramSet := by
  simp [voiceNoteOff, Voice.paramSet, envNoteOff]

end Sys2Proof.Machine
end

