-- ==== Sys2Proof/Laws/Decode.lean ====
section
/-! SUPPORT. Laws of the decoder: the byte order of a transfer, and what a word that decodes can be. -/

namespace Sys2Proof

/-- The bytes of a word, in the order sent, put together again (20_memory.md R52). -/
theorem wordOfBytes_bytes (w : Word64) :
    wordOfBytes (w.extractLsb' 0 8) (w.extractLsb' 8 8) (w.extractLsb' 16 8) (w.extractLsb' 24 8)
      (w.extractLsb' 32 8) (w.extractLsb' 40 8) (w.extractLsb' 48 8) (w.extractLsb' 56 8) = w := by
  apply BitVec.eq_of_getLsbD_eq
  intro i hi
  simp only [wordOfBytes, BitVec.getLsbD_append, BitVec.getLsbD_extractLsb']
  interval_cases i <;> simp

/-- A whole, timely transfer is decoded as its word. -/
theorem decodeTransfer_wordTransfer (port : Port) (w : Word64) : decodeTransfer (wordTransfer port w) = decodeWord port w := by
  simp [decodeTransfer, wordTransfer, bytesOfWord, wordOfBytes_bytes]

/-- The bytes of a command word are eight. -/
@[simp] theorem bytesOfWord_length (w : Word64) : (bytesOfWord w).length = 8 := rfl

theorem Opcode.mem_all (o : Opcode) : o ∈ Opcode.all := by cases o <;> decide

theorem Opcode.ofCode_code (o : Opcode) : Opcode.ofCode o.code = some o := by cases o <;> decide

/-- The row found for a code has that code. -/
theorem Opcode.code_of_ofCode {c : BitVec 8} {o : Opcode} (h : Opcode.ofCode c = some o) : o.code = c := by
  have := List.find?_some h
  simpa using this

/-- A word that decodes has a row, passes every check, and gives the command of its fields. -/
theorem decodeWord_ok {port : Port} {w : Word64} {i : Instr} (h : decodeWord port w = .ok i) :
    ∃ o : Opcode, o.code = opcField w ∧ (port = .sample → o = .sample) ∧ rsvField w = 0 ∧
      (o.idxUse = .none → idxField w = 0) ∧ (o.idxUse = .note → (idxField w).msb = false) ∧
      (o.usesVal = false → valField w = 0) ∧
      (o.usesVal = true → (F32.ofBits (valField w)).isFinite = true) ∧
      i = o.build (idxField w) (F32.ofBits (valField w)) := by
  unfold decodeWord at h
  split at h
  · cases h
  rename_i hport
  split at h
  · cases h
  rename_i o ho
  have hcode := Opcode.code_of_ofCode ho
  repeat (split at h; · cases h)
  rename_i h1 h2 h3 h4 h5
  cases h
  refine ⟨o, hcode, ?_, ?_, ?_, ?_, ?_, ?_, rfl⟩
  · intro hp
    rw [hp, ← hcode] at hport
    cases o <;> first | rfl | (simp [Opcode.code] at hport)
  · simpa using h1
  · intro h; simpa [h] using h2
  · intro h; simpa [h] using h3
  · intro h; simpa [h] using h4
  · intro h; simpa [h] using h5

end Sys2Proof
end

