-- ==== Sys2Proof/Laws/PerInstr.lean ====
section
/-! SUPPORT. A statement about every instruction as syntax, one lemma per constructor: the word of a command matches a
row of spec/opcode_table.json, and the row uses VAL exactly when the command has a value operand. -/

namespace Sys2Proof.Laws

/-- The fields of a command's word under a mask given by fields. -/
theorem encode_and (i : Instr) (a b : BitVec 8) (c : BitVec 16) (d : Word32) :
    encode i &&& (a ++ (b ++ (c ++ d)) : BitVec (8 + (8 + (16 + 32)))) =
      (i.opcode.code &&& a) ++ ((i.idx &&& b) ++ ((0#16 &&& c) ++ (i.val &&& d))) := by
  refine (BitVec.and_append (w := 8) (v := 56)).trans (congrArg (_ ++ ·) ?_)
  exact (BitVec.and_append (w := 8) (v := 48)).trans (congrArg (_ ++ ·) BitVec.and_append)

end Sys2Proof.Laws

namespace Sys2Proof.Laws.MatchesItsRow

/-- The word matches a row of the opcode table that uses VAL as the command does. -/
def Statement (i : Instr) : Prop :=
  ∃ row ∈ Machine.tableRows, encode i &&& row.mask = row.pattern ∧ row.usesVal = i.value?.isSome

/-- A word without operands in the masked bits. -/
theorem of_row {i : Instr} (row : Machine.TableRow) (a b : BitVec 8) (d : Word32) (hmem : row ∈ Machine.tableRows)
    (hmask : row.mask = (a ++ (b ++ (0xFFFF#16 ++ d)) : BitVec (8 + (8 + (16 + 32)))))
    (hpat : row.pattern = (i.opcode.code &&& a) ++ ((i.idx &&& b) ++ ((0#16 &&& 0xFFFF#16) ++ (i.val &&& d))))
    (hval : row.usesVal = i.value?.isSome) : Statement i :=
  ⟨row, hmem, by rw [hmask, hpat]; exact encode_and i a b _ d, hval⟩

/-- A note's IDX field under the mask of its row: bit 7 is zero. -/
theorem note_and (n : BitVec 7) : (0#1 ++ n : BitVec (1 + 7)) &&& (0x80#8) = 0#8 := by
  refine (BitVec.and_append (w := 1) (v := 7) (x₂ := 1#1) (y₂ := 0#7)).trans ?_
  rw [BitVec.and_zero]
  decide

theorem noteOn (n : BitVec 7) (x : F32) : Statement (.noteOn n x) :=
  of_row ⟨0xFF80FFFF00000000#64, 0x0100000000000000#64, true⟩ 0xFF#8 0x80#8 0x00000000#32 (by decide) (by decide)
    (by simp only [Instr.idx, note_and, Instr.opcode, Opcode.code, Instr.val, Instr.value?, BitVec.and_zero]; decide) rfl

theorem noteOff (n : BitVec 7) : Statement (.noteOff n) :=
  of_row ⟨0xFF80FFFFFFFFFFFF#64, 0x0200000000000000#64, false⟩ 0xFF#8 0x80#8 0xFFFFFFFF#32 (by decide) (by decide)
    (by simp only [Instr.idx, note_and, Instr.opcode, Opcode.code, Instr.val, Instr.value?]; decide) rfl

theorem sample : Statement (.sample) :=
  of_row ⟨0xFFFFFFFFFFFFFFFF#64, 0x0300000000000000#64, false⟩ 0xFF#8 0xFF#8 0xFFFFFFFF#32 (by decide) (by decide)
    (by simp only [Instr.idx, Instr.opcode, Opcode.code, Instr.val, Instr.value?]; decide) rfl

theorem queryPlaying : Statement (.queryPlaying) :=
  of_row ⟨0xFFFFFFFFFFFFFFFF#64, 0x0400000000000000#64, false⟩ 0xFF#8 0xFF#8 0xFFFFFFFF#32 (by decide) (by decide)
    (by simp only [Instr.idx, Instr.opcode, Opcode.code, Instr.val, Instr.value?]; decide) rfl

theorem setVolume (x : F32) : Statement (.setVolume x) :=
  of_row ⟨0xFFFFFFFF00000000#64, 0x1000000000000000#64, true⟩ 0xFF#8 0xFF#8 0x00000000#32 (by decide) (by decide)
    (by simp only [Instr.idx, Instr.opcode, Opcode.code, Instr.val, Instr.value?, BitVec.and_zero]; decide) rfl

theorem setBlend (x : F32) : Statement (.setBlend x) :=
  of_row ⟨0xFFFFFFFF00000000#64, 0x1100000000000000#64, true⟩ 0xFF#8 0xFF#8 0x00000000#32 (by decide) (by decide)
    (by simp only [Instr.idx, Instr.opcode, Opcode.code, Instr.val, Instr.value?, BitVec.and_zero]; decide) rfl

theorem setCutoff (x : F32) : Statement (.setCutoff x) :=
  of_row ⟨0xFFFFFFFF00000000#64, 0x1200000000000000#64, true⟩ 0xFF#8 0xFF#8 0x00000000#32 (by decide) (by decide)
    (by simp only [Instr.idx, Instr.opcode, Opcode.code, Instr.val, Instr.value?, BitVec.and_zero]; decide) rfl

theorem setResonance (x : F32) : Statement (.setResonance x) :=
  of_row ⟨0xFFFFFFFF00000000#64, 0x1300000000000000#64, true⟩ 0xFF#8 0xFF#8 0x00000000#32 (by decide) (by decide)
    (by simp only [Instr.idx, Instr.opcode, Opcode.code, Instr.val, Instr.value?, BitVec.and_zero]; decide) rfl

theorem setAttack (x : F32) : Statement (.setAttack x) :=
  of_row ⟨0xFFFFFFFF00000000#64, 0x1400000000000000#64, true⟩ 0xFF#8 0xFF#8 0x00000000#32 (by decide) (by decide)
    (by simp only [Instr.idx, Instr.opcode, Opcode.code, Instr.val, Instr.value?, BitVec.and_zero]; decide) rfl

theorem setDecay (x : F32) : Statement (.setDecay x) :=
  of_row ⟨0xFFFFFFFF00000000#64, 0x1500000000000000#64, true⟩ 0xFF#8 0xFF#8 0x00000000#32 (by decide) (by decide)
    (by simp only [Instr.idx, Instr.opcode, Opcode.code, Instr.val, Instr.value?, BitVec.and_zero]; decide) rfl

theorem setSustain (x : F32) : Statement (.setSustain x) :=
  of_row ⟨0xFFFFFFFF00000000#64, 0x1600000000000000#64, true⟩ 0xFF#8 0xFF#8 0x00000000#32 (by decide) (by decide)
    (by simp only [Instr.idx, Instr.opcode, Opcode.code, Instr.val, Instr.value?, BitVec.and_zero]; decide) rfl

theorem setRelease (x : F32) : Statement (.setRelease x) :=
  of_row ⟨0xFFFFFFFF00000000#64, 0x1700000000000000#64, true⟩ 0xFF#8 0xFF#8 0x00000000#32 (by decide) (by decide)
    (by simp only [Instr.idx, Instr.opcode, Opcode.code, Instr.val, Instr.value?, BitVec.and_zero]; decide) rfl

theorem setHarmAmp (j : BitVec 8) (x : F32) : Statement (.setHarmAmp j x) :=
  of_row ⟨0xFF00FFFF00000000#64, 0x2000000000000000#64, true⟩ 0xFF#8 0x00#8 0x00000000#32 (by decide) (by decide)
    (by simp only [Instr.idx, Instr.opcode, Opcode.code, Instr.val, Instr.value?, BitVec.and_zero]; decide) rfl

theorem toggleHarm (j : BitVec 8) : Statement (.toggleHarm j) :=
  of_row ⟨0xFF00FFFFFFFFFFFF#64, 0x2100000000000000#64, false⟩ 0xFF#8 0x00#8 0xFFFFFFFF#32 (by decide) (by decide)
    (by simp only [Instr.idx, Instr.opcode, Opcode.code, Instr.val, Instr.value?, BitVec.and_zero]; decide) rfl

theorem setOpRatio (j : BitVec 8) (x : F32) : Statement (.setOpRatio j x) :=
  of_row ⟨0xFF00FFFF00000000#64, 0x2800000000000000#64, true⟩ 0xFF#8 0x00#8 0x00000000#32 (by decide) (by decide)
    (by simp only [Instr.idx, Instr.opcode, Opcode.code, Instr.val, Instr.value?, BitVec.and_zero]; decide) rfl

theorem setOpAmp (j : BitVec 8) (x : F32) : Statement (.setOpAmp j x) :=
  of_row ⟨0xFF00FFFF00000000#64, 0x2900000000000000#64, true⟩ 0xFF#8 0x00#8 0x00000000#32 (by decide) (by decide)
    (by simp only [Instr.idx, Instr.opcode, Opcode.code, Instr.val, Instr.value?, BitVec.and_zero]; decide) rfl

theorem setOpFeedback (j : BitVec 8) (x : F32) : Statement (.setOpFeedback j x) :=
  of_row ⟨0xFF00FFFF00000000#64, 0x2A00000000000000#64, true⟩ 0xFF#8 0x00#8 0x00000000#32 (by decide) (by decide)
    (by simp only [Instr.idx, Instr.opcode, Opcode.code, Instr.val, Instr.value?, BitVec.and_zero]; decide) rfl

theorem toggleOp (j : BitVec 8) : Statement (.toggleOp j) :=
  of_row ⟨0xFF00FFFFFFFFFFFF#64, 0x2B00000000000000#64, false⟩ 0xFF#8 0x00#8 0xFFFFFFFF#32 (by decide) (by decide)
    (by simp only [Instr.idx, Instr.opcode, Opcode.code, Instr.val, Instr.value?, BitVec.and_zero]; decide) rfl

end Sys2Proof.Laws.MatchesItsRow
end

