-- ==== Sys2Proof/Tests/Slice0.lean ====
section
/-! SUPPORT. Tests whose expected values come from spec/ (30_encoding.md, 95_test_vectors.md and the rules named), and a
witness for every statement of Obligations.lean that has hypotheses. -/

namespace Sys2Proof.Tests

open Sys2Proof Sys2Proof.Machine

-- The kernel evaluations run one after another, so that their memory does not add up.
set_option Elab.async false

/-! ## Well-formedness smoke -/

theorem test_wf_refuses_nan : (Instr.setBlend .nan).wellFormed = false := by decide
theorem test_wf_refuses_inf : (Instr.noteOn 127#7 (.inf false)).wellFormed = false := by decide
theorem test_wf_refuses_negative_inf : (Instr.setOpRatio 0#8 (.inf true)).wellFormed = false := by decide
theorem test_wf_accepts_no_value : (Instr.toggleOp 255#8).wellFormed = true := by decide
theorem test_wf_refuses_no_samples : (Pseudo.samples 0).wellFormed = false := by decide
theorem test_wf_refuses_nan_sustain : (Pseudo.setAdsr F32.one F32.one .nan F32.one).wellFormed = false := by decide

/-! ## Decoding: OPC and IDX in bits, then RSV, then VAL (30_encoding.md R71, R74) -/

theorem test_decode_noteOn : decodeWord .command (0b0000000101000101#16 ++ (0x0000#16 ++ 0x3F800000#32)) =
    .ok (.noteOn 69#7 F32.one) := by decide +kernel
theorem test_decode_noteOff : decodeWord .command (0b0000001001111111#16 ++ (0x0000#16 ++ 0x00000000#32)) =
    .ok (.noteOff 127#7) := by decide +kernel
theorem test_decode_sample : decodeWord .sample (0b0000001100000000#16 ++ (0x0000#16 ++ 0x00000000#32)) =
    .ok .sample := by decide +kernel
theorem test_decode_queryPlaying : decodeWord .command (0b0000010000000000#16 ++ (0x0000#16 ++ 0x00000000#32)) =
    .ok .queryPlaying := by decide +kernel
theorem test_decode_setVolume : decodeWord .command (0b0001000000000000#16 ++ (0x0000#16 ++ 0x80000000#32)) =
    .ok (.setVolume (F32.zero true)) := by decide +kernel
theorem test_decode_setBlend : decodeWord .command (0b0001000100000000#16 ++ (0x0000#16 ++ 0x3F000000#32)) =
    .ok (.setBlend F32.half) := by decide +kernel
theorem test_decode_setCutoff : decodeWord .command (0b0001001000000000#16 ++ (0x0000#16 ++ 0x462C4400#32)) =
    .ok (.setCutoff (F32.ofInt 11025)) := by decide +kernel
theorem test_decode_setResonance : decodeWord .command (0b0001001100000000#16 ++ (0x0000#16 ++ 0x3F800000#32)) =
    .ok (.setResonance F32.one) := by decide +kernel
theorem test_decode_setAttack : decodeWord .command (0b0001010000000000#16 ++ (0x0000#16 ++ 0x00000000#32)) =
    .ok (.setAttack F32.posZero) := by decide +kernel
theorem test_decode_setDecay : decodeWord .command (0b0001010100000000#16 ++ (0x0000#16 ++ 0x40000000#32)) =
    .ok (.setDecay F32.two) := by decide +kernel
theorem test_decode_setSustain : decodeWord .command (0b0001011000000000#16 ++ (0x0000#16 ++ 0xBF800000#32)) =
    .ok (.setSustain (F32.ofInt (-1))) := by decide +kernel
theorem test_decode_setRelease : decodeWord .command (0b0001011100000000#16 ++ (0x0000#16 ++ 0x00000001#32)) =
    .ok (.setRelease (.fin false 0 1#23)) := by decide +kernel
theorem test_decode_setHarmAmp : decodeWord .command (0b0010000000111111#16 ++ (0x0000#16 ++ 0x7F7FFFFF#32)) =
    .ok (.setHarmAmp 63#8 (.fin false 254 0x7FFFFF#23)) := by decide +kernel
theorem test_decode_toggleHarm : decodeWord .command (0b0010000111111111#16 ++ (0x0000#16 ++ 0x00000000#32)) =
    .ok (.toggleHarm 255#8) := by decide +kernel
theorem test_decode_setOpRatio : decodeWord .command (0b0010100000000001#16 ++ (0x0000#16 ++ 0x40000000#32)) =
    .ok (.setOpRatio 1#8 F32.two) := by decide +kernel
theorem test_decode_setOpAmp : decodeWord .command (0b0010100100000101#16 ++ (0x0000#16 ++ 0x41A00000#32)) =
    .ok (.setOpAmp 5#8 F32.twenty) := by decide +kernel
theorem test_decode_setOpFeedback : decodeWord .command (0b0010101010000000#16 ++ (0x0000#16 ++ 0x3F000000#32)) =
    .ok (.setOpFeedback 128#8 F32.half) := by decide +kernel
theorem test_decode_toggleOp : decodeWord .command (0b0010101100000001#16 ++ (0x0000#16 ++ 0x00000000#32)) =
    .ok (.toggleOp 1#8) := by decide +kernel

/-- The refused words of V-DEC (95_test_vectors.md). -/
theorem test_decode_refusals :
    decodeWord .sample 0x014500003F800000#64 = .error .reservedEncoding ∧
    decodeWord .command 0x0500000000000000#64 = .error .reservedEncoding ∧
    decodeWord .command 0x2C00000000000000#64 = .error .reservedEncoding ∧
    decodeWord .command 0xFF00000000000000#64 = .error .reservedEncoding ∧
    decodeWord .command 0x0301000000000000#64 = .error .reservedEncoding ∧
    decodeWord .command 0x1001000000000000#64 = .error .reservedEncoding ∧
    decodeWord .command 0x02450000000000FF#64 = .error .reservedEncoding ∧
    decodeWord .command 0x0400000000000001#64 = .error .reservedEncoding ∧
    decodeWord .command 0x017F00007F800000#64 = .error .nonFiniteOperand ∧
    decodeWord .command 0x120000007F800000#64 = .error .nonFiniteOperand ∧
    decodeWord .command 0x0001000100000000#64 = .error .reservedEncoding := by decide +kernel

/-! ## Assembling (30_encoding.md R78, R80) -/

theorem test_assemble_decimal : Assembly.words? "NOTE_ON 60, 0.8 ; comment".toList = some [0x013C00003F4CCCCD#64] := by
  decide +kernel
theorem test_assemble_bits :
    Assembly.words? "SET_OP_FEEDBACK 0, 0f:3F000000\nTOGGLE_HARM 64".toList =
      some [0x2A0000003F000000#64, 0x2140000000000000#64] := by decide +kernel

/-- The model's own choice (log 18): 2^24 + 1 lies halfway, and the value with the even last bit is 2^24. -/
theorem test_assemble_tie : Assembly.float? "16777217".toList = some (F32.ofBits 0x4B800000#32) := by decide +kernel

/-! ## Values (95_test_vectors.md V-OSC, V-ENV, V-FLT, V-L1-1) -/

theorem test_wrap1 : wrap1 F32.one = F32.posZero ∧ wrap1 (F32.ofBits 0xBE800000#32) = F32.ofBits 0x3F400000#32 ∧
    wrap1 (F32.ofBits 0x40200000#32) = F32.half ∧ wrap1 (F32.zero true) = F32.zero true ∧
    wrap1 (F32.ofInt (-1)) = F32.zero true ∧ wrap1 (F32.ofBits 0xB0800000#32) = F32.posZero := by decide +kernel

/-- 440 / 44100, from V-OSC row 1; and the negative frequency of row 3. -/
theorem test_phase_advance :
    oscAdvance defaultParams.sr ⟨F32.posZero, F32.ofInt 440, F32.one⟩ = F32.ofBits 0x3C2377EE#32 ∧
    oscAdvance defaultParams.sr ⟨F32.posZero, F32.ofInt (-440), F32.one⟩ = F32.ofBits 0x3F7D7220#32 := by
  decide +kernel

theorem test_infinite_frequency :
    oscAdvance defaultParams.sr ⟨F32.posZero, .inf false, F32.one⟩ = .nan := by decide +kernel

/-- The coefficients listed under V-FLT, from the sn and c listed there. -/
theorem test_coefficients_alpha : coeffsOf (F32.ofBits 0x3E1166F5#32) (F32.ofBits 0x3F7D6C6E#32) =
    ⟨F32.ofBits 0x3BA4E480#32, F32.ofBits 0x3C24E480#32, F32.ofBits 0x3BA4E480#32, F32.ofBits 0x3F922CDF#32,
      F32.ofBits 0xBFFD6C6E#32, F32.ofBits 0x3F5BA643#32⟩ := by decide +kernel

/-! ## Commands -/

/-- Reset, then NOTE_ON 69, 1.0. -/
def on69 : State :=
  setSlot State.reset 69 (voiceNoteOn State.reset.config (newVoice (defaultVoiceParams defaultParams)) 69 F32.one)

/-- The voice of slot 69 after a command. -/
def voice69 (o : Host.Outcome State Fault Refusal) : Option Voice :=
  match o with
  | .next t => t.slots[(69 : Fin nSlot)]
  | .fault _ => none
  | .refused _ => none

/-- The newest response after a command. -/
def answer (o : Host.Outcome State Fault Refusal) : Option Response :=
  match o with
  | .next t => t.responses.head?
  | .fault _ => none
  | .refused _ => none

theorem on69_eq : exec (.noteOn 69#7 F32.one) State.reset = .next on69 := rfl

/-- V-L1-1 and V-E2E: A4 is 440 Hz, its second harmonic 880 Hz, the first operator 440 Hz. -/
theorem test_noteOn_frequencies :
    (voice69 (exec (.noteOn 69#7 F32.one) State.reset)).map (fun v => (v.add.osc[0].freq, v.add.osc[1].freq, v.fm.osc[0].freq))
      = some (F32.ofBits 0x43DC0000#32, F32.ofBits 0x445C0000#32, F32.ofBits 0x43DC0000#32) := by decide +kernel

/-- V-VOICE: velocity 2.0 is stored as 1.0. -/
theorem test_noteOn_clamps_velocity :
    (voice69 (exec (.noteOn 69#7 F32.two) State.reset)).map (·.velocity) = some F32.one := by decide +kernel

theorem test_noteOff_releases :
    (voice69 (exec (.noteOff 69#7) on69)).map (fun v => (v.active, v.env.gate, v.env.stage)) =
      some (false, false, .release) := by decide +kernel

/-- V-CMD row 1: NOTE_OFF does not allocate. -/
theorem test_noteOff_does_not_allocate : voice69 (exec (.noteOff 69#7) State.reset) = none := by decide +kernel

/-- V-ENV row 2 and V-OSC row 1: the first SAMPLE of a note. -/
theorem test_sample_first_gain :
    (voice69 (exec .sample on69)).map (fun v => v.env.value) = some (F32.ofBits 0x3B149B93#32) := by decide +kernel

theorem test_sample_first_phase :
    (voice69 (exec .sample on69)).map (fun v => (v.add.osc[0].phase, v.fm.osc[0].phase)) =
      some (F32.ofBits 0x3C2377EE#32, F32.ofBits 0x3C2377EE#32) := by decide +kernel

/-- V-CMD row 8: a voice in Release still plays. -/
theorem test_queryPlaying_reset : answer (exec .queryPlaying State.reset) = some ⟨.command, 0x00000000#32⟩ := by decide +kernel
theorem test_queryPlaying_release :
    answer (exec .queryPlaying (setSlot on69 69 (voiceNoteOff (voiceOrAlloc on69 69)))) = some ⟨.command, 0x00000001#32⟩ := by
  decide +kernel

/-- V-DEC: SET_VOLUME -0.0 stores -0.0; 00_scope.md R10: 2.0 is stored as 1.0. -/
theorem test_setVolume : exec (.setVolume (F32.zero true)) on69 = .next { on69 with volume := F32.ofBits 0x80000000#32 } := rfl
theorem test_setVolume_clamps : clampUnit F32.two = F32.one := by decide +kernel

/-- V-BL. -/
theorem test_setBlend : (voice69 (exec (.setBlend F32.two) on69)).map (·.blend) = some F32.one := by decide +kernel

/-- V-FLT, clamping: 5.0 stores 20.0, 1e9 stores 22050.0. -/
theorem test_setCutoff_low :
    (voice69 (exec (.setCutoff (F32.ofInt 5)) on69)).map (·.flt.cutoff) = some (F32.ofBits 0x41A00000#32) := by
  decide +kernel
theorem test_setCutoff_high :
    (voice69 (exec (.setCutoff (F32.ofBits 0x4E6E6B28#32)) on69)).map (·.flt.cutoff) = some (F32.ofBits 0x46AC4400#32) := by
  decide +kernel

/-- V-FLT row 10. -/
theorem test_setResonance :
    (voice69 (exec (.setResonance (F32.zero true)) on69)).map (·.flt.q) = some (F32.ofBits 0x80000000#32) := by
  decide +kernel

theorem test_setAttack :
    (voice69 (exec (.setAttack (F32.ofInt (-1))) on69)).map (fun v => (v.env.A, v.env.D)) =
      some (F32.ofInt (-1), F32.ofBits 0x3DCCCCCD#32) := by decide +kernel
theorem test_setDecay :
    (voice69 (exec (.setDecay F32.posZero) on69)).map (fun v => (v.env.D, v.env.R)) =
      some (F32.posZero, F32.ofBits 0x3E4CCCCD#32) := by decide +kernel
theorem test_setSustain :
    (voice69 (exec (.setSustain (F32.ofInt (-1))) on69)).map (·.env.S) = some F32.posZero := by decide +kernel
theorem test_setRelease :
    (voice69 (exec (.setRelease F32.posZero) on69)).map (fun v => (v.env.R, v.env.S)) =
      some (F32.posZero, F32.ofBits 0x3F333333#32) := by decide +kernel

/-- V-ADD row 4: a disabled harmonic's oscillator keeps amplitude 0.0. -/
theorem test_setHarmAmp :
    (voice69 (exec (.setHarmAmp 1#8 F32.half) on69)).map (fun v => (v.add.harm[1].amp, v.add.osc[1].amp)) =
      some (F32.half, F32.posZero) := by decide +kernel

/-- V-ADD row 5. -/
theorem test_toggleHarm :
    (voice69 (exec (.toggleHarm 0#8) on69)).map (fun v => (v.add.harm[0].en, v.add.osc[0].amp)) =
      some (false, F32.posZero) := by decide +kernel

/-- V-FM row 2: ratio 1 = 2.0 gives osc[1].freq = 880.0. -/
theorem test_setOpRatio :
    (voice69 (exec (.setOpRatio 1#8 F32.two) on69)).map (fun v => (v.fm.op[1].ratio, v.fm.osc[1].freq)) =
      some (F32.two, F32.ofBits 0x445C0000#32) := by decide +kernel
theorem test_setOpAmp :
    (voice69 (exec (.setOpAmp 5#8 F32.half) on69)).map (fun v => (v.fm.op[5].amp, v.fm.osc[5].amp)) =
      some (F32.half, F32.one) := by decide +kernel
theorem test_setOpFeedback :
    (voice69 (exec (.setOpFeedback 0#8 F32.half) on69)).map (fun v => (v.fm.op[0].fbk, v.fm.op[1].fbk)) =
      some (F32.half, F32.posZero) := by decide +kernel
theorem test_toggleOp :
    (voice69 (exec (.toggleOp 1#8) on69)).map (fun v => (v.fm.op[0].en, v.fm.op[1].en)) = some (true, true) := by
  decide +kernel

/-- The first instruction after reset runs. -/
theorem test_first_step : (voice69 (step (State.reset.withFetchWord 64 0x014500003F800000))).map (·.active) = some true := by
  decide +kernel

/-! ## Witnesses for the hypotheses of the statements -/

theorem witness_DecodeInvertsEncode :
    (Instr.noteOn 127#7 (.fin true 254 0x7FFFFF#23)).wellFormed = true ∧ (Instr.toggleOp 255#8).wellFormed = true ∧
    (Instr.setBlend (F32.zero true)).wellFormed = true := by decide

theorem witness_EncodeInvertsDecode : decodeWord .command 0x017F0000FF7FFFFF#64 = .ok (.noteOn 127#7 (.fin true 254 0x7FFFFF#23)) ∧
    decodeWord .sample 0x0300000000000000#64 = .ok .sample := by decide +kernel

theorem witness_ReservedWordsAreRefused :
    (pushWord State.reset 0x2C00000000000000#64).pending = wordTransfer .command 0x2C00000000000000#64 :: [] ∧
    reservedForm .command 0x2C00000000000000#64 ∧ nonFiniteVal 0x110000007FC00000#64 :=
  ⟨rfl, by unfold reservedForm reservedOpc; decide, by unfold nonFiniteVal; decide⟩

theorem witness_PartialOrOverlappingTransferIsRefused :
    (∃ s : State, ∃ t : Transfer, s.pending = t :: [] ∧ t.bytes.length = 7) ∧
    (∃ s : State, ∃ t : Transfer, s.pending = t :: [] ∧ t.bytes.length = 9) ∧
    (∃ s : State, ∃ t : Transfer, s.pending = t :: [] ∧ t.overlaps = true) :=
  ⟨⟨{ State.reset with pending := [⟨.command, List.replicate 7 0#8, false⟩] }, _, rfl, rfl⟩,
   ⟨{ State.reset with pending := [⟨.command, List.replicate 9 0#8, false⟩] }, _, rfl, rfl⟩,
   ⟨{ State.reset with pending := [⟨.sample, bytesOfWord 0x0300000000000000#64, true⟩] }, _, rfl, rfl⟩⟩

theorem witness_PseudoInstructionsExpand : 1 ≤ 1 ∧ (Pseudo.samples 1).expand = [.sample] := by decide

theorem witness_StepRunsTheDecodedCommand :
    (pushWord on69 0x0400000000000000#64).pending = wordTransfer .command 0x0400000000000000#64 :: on69.pending ∧
    decodeTransfer (wordTransfer .command 0x0400000000000000#64) = .ok .queryPlaying := ⟨rfl, by decide +kernel⟩

theorem witness_StoredWordRunsNext : (Instr.setHarmAmp 63#8 F32.half).wellFormed = true := by decide

theorem witness_IdleBlockHoldsItsState : on69.pending = [] := rfl

theorem witness_StreamIsAppliedInOrder : ∀ i ∈ [Instr.noteOn 69#7 F32.one, .sample, .noteOff 69#7], i.wellFormed = true := by
  decide

theorem witness_NoCommandWritesTheConfiguration : exec (.noteOn 69#7 F32.one) State.reset = .next on69 := rfl

theorem witness_OnlySampleAndQueryRespond :
    (∃ t, exec .sample on69 = .next t) ∧ (∃ t, exec .queryPlaying on69 = .next t) ∧
    exec (.noteOn 69#7 F32.one) State.reset = .next on69 := ⟨⟨_, rfl⟩, ⟨_, rfl⟩, rfl⟩

theorem witness_OnlyNoteOnAllocates :
    exec (.noteOn 69#7 F32.one) State.reset = .next on69 ∧ (State.reset.slots[(69 : Fin nSlot)]).isSome = false ∧
    (on69.slots[(69 : Fin nSlot)]).isSome = true ∧
    (∃ t, exec .sample on69 = .next t ∧ (on69.slots[(69 : Fin nSlot)]).isSome = true) :=
  ⟨rfl, by decide +kernel, by decide +kernel, ⟨_, rfl, by decide +kernel⟩⟩

theorem witness_CountGrowsOnFirstNoteOn :
    exec (.noteOn 69#7 F32.one) State.reset = .next on69 ∧ State.reset.slots[noteSlot 69#7] = none ∧
    (∃ t, exec (.noteOn 69#7 F32.half) on69 = .next t) ∧ on69.slots[noteSlot 69#7] ≠ none :=
  ⟨rfl, by decide +kernel, ⟨_, rfl⟩, by decide +kernel⟩

/-- Two blocks with different voices and volumes that agree on slot 60. -/
theorem witness_SlotsDoNotInterfere :
    on69.params = State.reset.params ∧ on69.tmpl = State.reset.tmpl ∧
    on69.slots[(60 : Fin nSlot)] = State.reset.slots[(60 : Fin nSlot)] ∧
    on69.slots[(69 : Fin nSlot)] ≠ State.reset.slots[(69 : Fin nSlot)] ∧
    (∃ t, exec (.noteOn 60#7 F32.one) on69 = .next t) ∧ (∃ t, exec (.noteOn 60#7 F32.one) State.reset = .next t) :=
  ⟨rfl, rfl, by decide +kernel, by decide +kernel, ⟨_, rfl⟩, ⟨_, rfl⟩⟩

theorem witness_ResetIsAnEmptyPool : legalParams defaultParams = true := by decide +kernel

/-- For NoteOnRetriggersAnAllocatedSlot, NoteOffReleasesOrDoesNothing and NoteCommandsMakeTheBlockPlay. -/
theorem witness_allocated_slot : ∃ v, on69.slots[noteSlot 69#7] = some v := ⟨_, setSlot_self _ _ _⟩

/-- For NoteOnAllocatesAFreshVoice and NoteOffReleasesOrDoesNothing, at the ends of the note range. -/
theorem witness_unallocated_slot : on69.slots[noteSlot 0#7] = none ∧ on69.slots[noteSlot 127#7] = none := by
  decide +kernel

theorem witness_NoteCommandsMakeTheBlockPlay :
    (on69.slots[noteSlot 69#7]).isSome = true ∧ (∃ t, exec (.noteOff 69#7) on69 = .next t) ∧
    exec (.noteOn 69#7 F32.one) State.reset = .next on69 :=
  ⟨by decide +kernel, ⟨_, execNoteOff_some (setSlot_self _ _ _)⟩, rfl⟩

theorem witness_HarmonicCommandsWriteOneHarmonic : (0#8).toNat < 64 ∧ (63#8).toNat < 64 := by decide
theorem witness_OperatorCommandsWriteOneOperator : (0#8).toNat < 6 ∧ (5#8).toNat < 6 := by decide
theorem witness_OutOfRangeIndexIsANoOp : 64 ≤ (64#8).toNat ∧ 64 ≤ (255#8).toNat ∧ 6 ≤ (6#8).toNat ∧ 6 ≤ (255#8).toNat := by
  decide

theorem witness_StoringSettersAreIdempotent :
    Instr.setHarmAmp 1#8 F32.half ∈ [Instr.setVolume F32.half, .setBlend F32.half, .setCutoff F32.half,
      .setResonance F32.half, .setAttack F32.half, .setDecay F32.half, .setSustain F32.half, .setRelease F32.half,
      .setHarmAmp 1#8 F32.half, .setOpRatio 1#8 F32.half, .setOpAmp 1#8 F32.half, .setOpFeedback 1#8 F32.half] ∧
    ∃ t, exec (.setHarmAmp 1#8 F32.half) on69 = .next t := ⟨by decide, ⟨_, rfl⟩⟩

theorem on69_inv : on69.Inv := by decide +kernel

theorem witness_TogglesInARowCancel :
    on69.Inv ∧ Instr.toggleHarm 1#8 ∈ [Instr.toggleHarm 1#8, .toggleOp 1#8] ∧
    (∃ t, exec (.toggleHarm 1#8) on69 = .next t) ∧ ∃ t, exec (.toggleOp 1#8) on69 = .next t :=
  ⟨on69_inv, by decide, ⟨_, rfl⟩, ⟨_, rfl⟩⟩

theorem witness_BroadcastToNoVoiceChangesNothing :
    State.reset.params.newVoiceInit = .defaults ∧ (∀ n : Fin nSlot, State.reset.slots[n] = none) ∧
    (∀ note vel, Instr.setBlend F32.half ≠ .noteOn note vel) ∧ Instr.setBlend F32.half ≠ .sample ∧
    Instr.setBlend F32.half ≠ .queryPlaying ∧ ∀ x, Instr.setBlend F32.half ≠ .setVolume x :=
  ⟨rfl, fun n => resetWith_slots_getElem _ n n.2, fun _ _ => nofun, nofun, nofun, fun _ => nofun⟩

theorem witness_ClampKeepsTheRange :
    F32.posZero.le F32.one = true ∧ F32.ofBits 0x7F7FFFFF#32 ≠ .nan ∧ F32.twenty.le F32.twenty = true := by
  decide +kernel

theorem witness_ConfigurationFunctionsHaveTheirProperties :
    0 ≤ 253 ∧ 253 ≤ 253 ∧ F32.nan.isFinite = false ∧ (F32.inf true).isFinite = false := by decide

/-- A sum that ties (2^24 + 1), one that overflows, and a divisor that is not zero. -/
theorem witness_ArithmeticRoundsToNearestEven :
    (F32.ofInt 16777216).isFinite = true ∧ F32.one.isFinite = true ∧
    (F32.ofInt 16777216).add F32.one = F32.ofInt 16777216 ∧
    |exactUnits (F32.ofInt 16777216) - (exactUnits (F32.ofInt 16777216) + exactUnits F32.one)| =
      |exactUnits (F32.ofInt 16777218) - (exactUnits (F32.ofInt 16777216) + exactUnits F32.one)| ∧
    (F32.ofBits 0x7F7FFFFF#32).add (F32.ofBits 0x7F7FFFFF#32) = .inf false ∧
    exactUnits (F32.ofInt (-3)) ≠ 0 := by decide +kernel

theorem witness_BitPatternsOfValues :
    F32.ofBits 0x80000000#32 ≠ .nan ∧ F32.ofBits 0x7F800000#32 ≠ .nan ∧ F32.ofBits 0x00000001#32 ≠ .nan := by decide

theorem witness_WrapStaysInTheUnitInterval :
    (F32.ofInt (-1)).isFinite = true ∧ (F32.ofBits 0xB0800000#32).isFinite = true ∧ (F32.inf true).isFinite = false := by
  decide +kernel

theorem witness_InfiniteFrequencyPoisonsThePhase :
    legalParams on69.params = true ∧ (∃ b, (Osc.mk F32.half (.inf false) F32.one).freq = .inf b) ∧
    (Osc.mk .nan F32.one F32.one).phase = .nan := ⟨by decide +kernel, ⟨_, rfl⟩, rfl⟩

/-- Six operators, those below `n` enabled. -/
def fmOf (n : Nat) : Fm where
  op := Vector.ofFn fun i => ⟨F32.one, F32.one, F32.half, decide (i.val < n)⟩
  osc := Vector.ofFn fun _ => ⟨F32.half, F32.ofInt 440, F32.one⟩
  fbuf := Vector.ofFn fun _ => F32.half
  base := F32.ofInt 440

theorem witness_DisabledOperatorsAreFrozen :
    ((fmOf 1).op[(1 : Fin nOp)]).en = false ∧ ∀ i : Fin nOp, ((fmOf 0).op[i]).en = false := by decide +kernel

/-- Every operator can be the enabled one, with the others enabled and with those above it disabled. -/
theorem witness_FeedbackIsReadInPlace :
    ∀ i : Fin nOp, ((fmOf 6).op[i]).en = true ∧ ((fmOf (i.val + 1)).op[i]).en = true ∧
      ∀ j : Fin nOp, i < j → ((fmOf (i.val + 1)).op[j]).en = false := by decide +kernel

/-- An envelope in the given stage, with elapsed time 0.0 and the given duration of the three timed stages. -/
def envOf (duration : F32) (stage : Stage) : Env :=
  ⟨duration, duration, F32.half, duration, stage, F32.posZero, F32.posZero, true⟩

/-- Each timed stage on both sides of its end: a duration of one sample period ends it, one of 1.0 does not; and a
duration of zero or less. -/
theorem witness_ZeroLengthStagesLastOneSample :
    (let dt := F32.one.div defaultParams.sr
     ∀ st ∈ [Stage.attack, .decay, .sustain, .release, .idle],
      (envOf dt st).stage = st ∧ (envOf dt st).A.le ((envOf dt st).elapsed.add dt) = true ∧
      (envOf dt st).D.le ((envOf dt st).elapsed.add dt) = true ∧ (envOf dt st).R.le ((envOf dt st).elapsed.add dt) = true ∧
      (envOf F32.one st).A.le ((envOf F32.one st).elapsed.add dt) = false ∧
      (envOf F32.one st).D.le ((envOf F32.one st).elapsed.add dt) = false ∧
      (envOf F32.one st).R.le ((envOf F32.one st).elapsed.add dt) = false) ∧
    legalParams defaultParams = true ∧ F32.posZero.le (envOf (F32.zero true) .attack).elapsed = true ∧
    (envOf (F32.zero true) .attack).A.le F32.posZero = true ∧ (envOf (F32.ofInt (-1)) .decay).D.le F32.posZero = true ∧
    (envOf F32.posZero .release).R.le F32.posZero = true := by decide +kernel

theorem witness_EnvelopeOutputIsInTheUnitInterval :
    legalParams defaultParams = true ∧ F32.posZero.le (envOf F32.one .decay).elapsed = true ∧
    InUnit (envOf F32.one .decay).S ∧ (envOf F32.one .decay).A.isFinite = true ∧
    (envOf F32.one .decay).D.isFinite = true ∧ (envOf F32.one .decay).R.isFinite = true := by decide +kernel

/-- Both cases of the first Release sample. -/
theorem witness_ReleaseStartsFromSustain :
    legalParams defaultParams = true ∧
    (envOf F32.posZero .sustain).R.le (F32.one.div defaultParams.sr) = true ∧
    (envOf F32.one .sustain).R.le (F32.one.div defaultParams.sr) = false := by decide +kernel

/-- Stopped time in Attack, Decay and Release (V-ENV row 11). -/
theorem witness_StoppedTimeNeverEndsAStage :
    (F32.ofInt 512).add (F32.one.div (F32.ofInt 44100)) = F32.ofInt 512 ∧ (F32.ofInt 1000).le (F32.ofInt 512) = false ∧
    ∀ st ∈ [Stage.attack, .decay, .release],
      ({ envOf (F32.ofInt 1000) st with elapsed := F32.ofInt 512 } : Env).stage = st := by decide +kernel

theorem witness_ZeroResonanceOrNaNTapGivesNaN :
    (Flt.mk F32.twenty (F32.zero false) F32.half F32.half).q = F32.zero false ∧
    (Flt.mk F32.twenty (F32.zero true) F32.half F32.half).q = F32.zero true ∧
    (Flt.mk F32.twenty F32.half .nan F32.half).buf0 = .nan ∧
    (Flt.mk F32.twenty F32.half F32.half .nan).buf1 = .nan := ⟨rfl, rfl, rfl, rfl⟩

/-- The default parameters with P_SHORT_CIRCUIT and CURRENT. -/
def otherParams : Params := { defaultParams with shortCircuit := true, newVoiceInit := .current, mixDivisor := .active }

theorem witness_ShortCircuitFreezesReleasedVoices :
    (configOf otherParams).shortCircuit = true ∧ (newVoice (defaultVoiceParams otherParams)).active = false ∧
    (newVoice (defaultVoiceParams otherParams)).env.stage = .idle ∧
    ¬ ((configOf defaultParams).shortCircuit = true ∧ (newVoice (defaultVoiceParams otherParams)).active = false ∧
      (newVoice (defaultVoiceParams otherParams)).env.stage = .idle) := ⟨rfl, rfl, rfl, fun h => by cases h.1⟩

theorem witness_StagesMoveAlongTheStateGraph :
    ∃ v w t, exec (.noteOff 69#7) on69 = .next t ∧ on69.slots[(69 : Fin nSlot)] = some v ∧
      t.slots[(69 : Fin nSlot)] = some w :=
  ⟨_, _, _, execNoteOff_some (setSlot_self _ _ _), setSlot_self _ _ _, setSlot_self _ _ _⟩

theorem witness_InvariantHoldsAtReset : legalParams otherParams = true := by decide +kernel

theorem witness_EveryStepKeepsTheInvariant : on69.Inv ∧ step on69 = .next on69 ∧
    (pushWord on69 0x0300000000000000#64).Inv ∧ ∃ t, step (pushWord on69 0x0300000000000000#64) = .next t := by
  refine ⟨on69_inv, rfl, on69_inv, ?_⟩
  have h : decodeTransfer (wordTransfer .command 0x0300000000000000#64) = .ok .sample := by decide +kernel
  exact ⟨_, by unfold step; simp only [pushWord, h]; rfl⟩

/-- Under CURRENT, a voice made from a template that is not DEF. -/
def current69 : State :=
  let P : VoiceParams := { defaultVoiceParams otherParams with blend := F32.one }
  setSlot { State.resetWith otherParams with tmpl := P } 69 (newVoice P)

theorem witness_CurrentVoicesShareTheTemplate :
    current69.params.newVoiceInit = .current ∧ current69.TemplateShared ∧ step current69 = .next current69 ∧
    current69.tmpl ≠ defaultVoiceParams otherParams := by
  refine ⟨rfl, ?_, rfl, by decide +kernel⟩
  intro _ n v hv
  by_cases e : n = 69
  · subst e
    rw [show current69.slots[(69 : Fin nSlot)] = some (newVoice current69.tmpl) from setSlot_self _ _ _] at hv
    cases hv
    exact newVoice_paramSet _
  · rw [show current69.slots[n] = none from
      (setSlot_other _ _ e).trans (resetWith_slots_getElem otherParams n n.2)] at hv
    cases hv

/-- A block whose only voice is poisoned. -/
def poisoned69 : State :=
  setSlot State.reset 69 { newVoice (defaultVoiceParams defaultParams) with flt := ⟨F32.twenty, F32.half, .nan, F32.posZero⟩ }

theorem witness_PoisonedFilterIsPermanent :
    poisoned69.Poisoned 69 ∧ step poisoned69 = .next poisoned69 ∧ poisoned69.params.shortCircuit = false ∧
    ∃ t, exec .sample poisoned69 = .next t := ⟨⟨_, setSlot_self _ _ _, rfl⟩, rfl, rfl, ⟨_, rfl⟩⟩

theorem witness_ZeroResonancePoisonsEveryVoice :
    on69.params.shortCircuit = false ∧ (F32.zero true).le F32.posZero = true ∧ (F32.ofInt (-1)).le F32.posZero = true ∧
    (∃ t u, exec (.setResonance (F32.ofInt (-1))) on69 = .next t ∧ exec .sample t = .next u) ∧
    (on69.slots[(69 : Fin nSlot)]).isSome = true :=
  ⟨rfl, by decide +kernel, by decide +kernel, ⟨_, _, rfl, rfl⟩, by decide +kernel⟩

end Sys2Proof.Tests
end

section
/-! Clamp, the bit patterns and the configuration functions (00_scope.md R8-R11). -/

namespace Sys2Proof.F32

/-! ## Bit patterns -/

/-- The bit pattern with the given sign, exponent field and fraction field. -/
def packBits (s : Bool) (e : BitVec 8) (f : BitVec 23) : Word32 := BitVec.ofBool s ++ (e ++ f)

theorem toNat_packBits (s : Bool) (e : BitVec 8) (f : BitVec 23) :
    (packBits s e f).toNat = s.toNat * 2 ^ 31 + (e.toNat * 2 ^ 23 + f.toNat) := by
  rw [packBits, BitVec.toNat_append, ← Nat.shiftLeft_add_eq_or_of_lt (e ++ f).isLt, BitVec.toNat_append,
    ← Nat.shiftLeft_add_eq_or_of_lt f.isLt]
  simp [Nat.shiftLeft_eq]

@[simp] theorem msb_packBits (s : Bool) (e : BitVec 8) (f : BitVec 23) : (packBits s e f).msb = s := by
  have := e.isLt
  have := f.isLt
  rw [BitVec.msb_eq_decide, toNat_packBits]
  cases s <;> simp only [Bool.toNat_true, Bool.toNat_false, decide_eq_true_eq, decide_eq_false_iff_not] <;> omega

@[simp] theorem extractExp_packBits (s : Bool) (e : BitVec 8) (f : BitVec 23) :
    (packBits s e f).extractLsb' 23 8 = e := by
  have := e.isLt
  have := f.isLt
  apply BitVec.eq_of_toNat_eq
  rw [BitVec.extractLsb'_toNat, toNat_packBits, Nat.shiftRight_eq_div_pow]
  omega

@[simp] theorem extractFrac_packBits (s : Bool) (e : BitVec 8) (f : BitVec 23) :
    (packBits s e f).extractLsb' 0 23 = f := by
  have := f.isLt
  apply BitVec.eq_of_toNat_eq
  rw [BitVec.extractLsb'_toNat, toNat_packBits, Nat.shiftRight_zero]
  omega

/-- A word is made of its three fields. -/
theorem packBits_fields (w : Word32) : packBits w.msb (w.extractLsb' 23 8) (w.extractLsb' 0 23) = w := by
  have hw := w.isLt
  apply BitVec.eq_of_toNat_eq
  rw [toNat_packBits, BitVec.extractLsb'_toNat, BitVec.extractLsb'_toNat, BitVec.msb_eq_decide,
    Nat.shiftRight_eq_div_pow, Nat.shiftRight_zero]
  by_cases h : 2 ^ (32 - 1) ≤ w.toNat
  · rw [decide_eq_true h, Bool.toNat_true]
    omega
  · rw [decide_eq_false h, Bool.toNat_false]
    omega

/-! ### What `toBits` and `ofBits` do, field by field -/

theorem toBits_nan (d : BitVec 23) : nan.toBits d = packBits d.msb 0xFF#8 (1#1 ++ d.extractLsb' 0 22) := rfl
theorem toBits_inf (d : BitVec 23) (s : Bool) : (inf s).toBits d = packBits s 0xFF#8 0#23 := rfl
theorem toBits_fin (d : BitVec 23) (s : Bool) (e : Fin 255) (f : BitVec 23) :
    (fin s e f).toBits d = packBits s (BitVec.ofNat 8 e) f := rfl

theorem ofBits_packBits (s : Bool) (e : BitVec 8) (f : BitVec 23) :
    ofBits (packBits s e f) =
      if h : e.toNat < 255 then fin s ⟨e.toNat, h⟩ f else if f = 0#23 then inf s else nan := by
  simp only [ofBits, extractExp_packBits, extractFrac_packBits, msb_packBits, BitVec.ofNat_eq_ofNat]

/-- Below the exponent field 255, the word of a finite datum. -/
theorem ofBits_packBits_fin (s : Bool) (e : Fin 255) (f : BitVec 23) :
    ofBits (packBits s (BitVec.ofNat 8 e) f) = fin s e f := by
  have he : (BitVec.ofNat 8 e.val).toNat = e.val := by rw [BitVec.toNat_ofNat]; omega
  rw [ofBits_packBits, dif_pos (by omega)]
  congr 1
  exact Fin.ext he

theorem toNat_quietFrac (p : BitVec 22) : (1#1 ++ p : BitVec 23).toNat = 2 ^ 22 + p.toNat := by
  rw [BitVec.toNat_append, ← Nat.shiftLeft_add_eq_or_of_lt p.isLt]
  simp [Nat.shiftLeft_eq]

theorem quietFrac_ne_zero (p : BitVec 22) : (1#1 ++ p : BitVec 23) ≠ 0#23 := by
  intro h
  have := toNat_quietFrac p
  rw [h, BitVec.toNat_ofNat] at this
  omega

/-- A value is returned by its bit pattern, whatever the payload drawn for a NaN. -/
theorem ofBits_toBits (d : BitVec 23) (x : F32) : ofBits (x.toBits d) = x := by
  cases x with
  | nan => rw [toBits_nan, ofBits_packBits, dif_neg (by decide), if_neg (quietFrac_ne_zero _)]
  | inf s => rw [toBits_inf, ofBits_packBits, dif_neg (by decide), if_pos rfl]
  | fin s e f => rw [toBits_fin, ofBits_packBits_fin]

/-- A word that is not a NaN's is returned by its value. -/
theorem toBits_ofBits (d : BitVec 23) {w : Word32} (h : ofBits w ≠ nan) : (ofBits w).toBits d = w := by
  rw [← packBits_fields w] at h ⊢
  generalize w.msb = s, w.extractLsb' 23 8 = e, w.extractLsb' 0 23 = f at h ⊢
  rw [ofBits_packBits] at h ⊢
  have he := e.isLt
  by_cases hfin : e.toNat < 255
  · rw [dif_pos hfin, toBits_fin, BitVec.ofNat_toNat, BitVec.setWidth_eq]
  · rw [dif_neg hfin] at h ⊢
    have hff : e = 0xFF#8 := BitVec.eq_of_toNat_eq (by simp; omega)
    by_cases hf : f = 0#23
    · rw [if_pos hf, toBits_inf, hff, hf]
    · exact absurd (if_neg hf) h

/-- Exponent field and quiet bit of a NaN's word. -/
theorem quiet_toBits_nan (d : BitVec 23) : (nan.toBits d).extractLsb' 22 9 = 0x1FF#9 := by
  have := (d.extractLsb' 0 22).isLt
  apply BitVec.eq_of_toNat_eq
  rw [toBits_nan, BitVec.extractLsb'_toNat, toNat_packBits, Nat.shiftRight_eq_div_pow, toNat_quietFrac,
    BitVec.toNat_ofNat, BitVec.toNat_ofNat]
  omega

/-- On words below the exponent field 255, `ofBits` is `ofMag` of the plus sign. -/
theorem ofBits_ofNat {m : Nat} (h : m / 2 ^ 23 < 255) : ofBits (BitVec.ofNat 32 m) = ofMag false m := by
  have hw : BitVec.ofNat 32 m = packBits false (BitVec.ofNat 8 (m / 2 ^ 23)) (BitVec.ofNat 23 m) := by
    apply BitVec.eq_of_toNat_eq
    simp only [toNat_packBits, BitVec.toNat_ofNat, Bool.toNat_false]
    omega
  rw [hw, ofMag, dif_pos h]
  exact ofBits_packBits_fin false ⟨m / 2 ^ 23, h⟩ _

/-! ## Small integers -/

theorem signed_natAbs (k : Int) : signed (decide (k < 0)) k.natAbs = k := by
  simp only [signed, decide_eq_true_eq]
  split <;> omega

/-- `f32(k)` for |k| < 2^24: the finite value of magnitude |k|, negative exactly when k is. -/
theorem ofInt_fin {k : Int} (hk : k.natAbs < 2 ^ 24) :
    ∃ e f, ofInt k = fin (decide (k < 0)) e f ∧ units e f = k.natAbs * 2 ^ 149 := by
  have hr := roundedUnits_mul_pow 149 hk
  have hlt : k.natAbs * 2 ^ 149 < infUnits :=
    calc k.natAbs * 2 ^ 149 < 2 ^ 24 * 2 ^ 149 := Nat.mul_lt_mul_of_pos_right hk (by positivity)
      _ ≤ infUnits := by decide +kernel
  obtain ⟨e, f, h, hu⟩ := round_fin (decide (k < 0)) (hr.symm ▸ hlt)
  exact ⟨e, f, h, hu.trans hr⟩

end Sys2Proof.F32

namespace Sys2Proof.Machine

/-! ## Clamp -/

theorem clamp_nan (lo hi : F32) : clamp .nan lo hi = .nan := by
  have hlt : F32.lt .nan lo = false := rfl
  have hgt : hi.lt .nan = false := by cases hi <;> rfl
  rw [clamp_eq, hlt, hgt]
  rfl

/-- A number is clamped into the range. -/
theorem clamp_inRange {x lo hi : F32} (h : lo.le hi = true) (hx : x ≠ .nan) : InRange lo hi (clamp x lo hi) := by
  have hlo : lo ≠ .nan := F32.ne_nan_of_le_left h
  have hhi : hi ≠ .nan := F32.ne_nan_of_le_right h
  rw [clamp_eq]
  split
  · exact ⟨F32.le_refl hlo, h⟩
  · rename_i hge
    have hge : lo.le x = true := F32.le_of_not_lt hlo hx (Bool.eq_false_iff.2 hge)
    split
    · exact ⟨h, F32.le_refl hhi⟩
    · rename_i hle
      exact ⟨hge, F32.le_of_not_lt hx hhi (Bool.eq_false_iff.2 hle)⟩

/-! ## Configuration functions -/

theorem sin32_zero (s : Bool) : sin32 (F32.zero s) = F32.zero s := rfl
theorem cos32_zero (s : Bool) : cos32 (F32.zero s) = F32.one := rfl

/-- The integer read off `f32(k)` is k. -/
theorem intValue?_ofInt {k : Int} (hk : k.natAbs < 2 ^ 24) : intValue? (F32.ofInt k) = some k := by
  obtain ⟨e, f, h, hu⟩ := F32.ofInt_fin hk
  have hzero : ¬ (F32.units e f = 0 ∧ decide (k < 0) = true) := by
    rw [hu, decide_eq_true_iff]
    omega
  have hmod : F32.units e f % 2 ^ 149 = 0 := by rw [hu]; exact Nat.mul_mod_left _ _
  have hdiv : F32.units e f / 2 ^ 149 = k.natAbs := by rw [hu]; exact Nat.mul_div_cancel _ (by positivity)
  rw [h, intValue?]
  rw [if_pos ⟨hmod, hzero⟩, hdiv, F32.signed_natAbs]

theorem exp2_32_of_intValue {x : F32} {k : Int} (h : intValue? x = some k) (hlo : -126 ≤ k) (hhi : k ≤ 127) :
    exp2_32 x = F32.ofMag false ((k + 127).toNat * 2 ^ 23) := by
  cases x with
  | nan => simp [intValue?] at h
  | inf s => simp [intValue?] at h
  | fin s e f => simp only [exp2_32, h, if_pos (And.intro hlo hhi)]

/-- A power of two of an exponent in range is the value whose exponent field is the exponent plus 127. -/
theorem exp2_32_ofInt {k : Nat} (hk : k ≤ 253) :
    exp2_32 (F32.ofInt ((k : Int) - 126)) = F32.ofBits (BitVec.ofNat 32 ((k + 1) * 2 ^ 23)) := by
  have hbits : (((k : Int) - 126) + 127).toNat = k + 1 := by omega
  rw [exp2_32_of_intValue (intValue?_ofInt (by omega)) (by omega) (by omega), hbits, F32.ofBits_ofNat (by omega)]

/-- NaN and the infinities are sent to NaN by each of the three. -/
theorem configFunctions_nonFinite {x : F32} (h : x.isFinite = false) :
    sin32 x = .nan ∧ cos32 x = .nan ∧ exp2_32 x = .nan := by
  cases x with
  | nan => exact ⟨rfl, rfl, rfl⟩
  | inf s => exact ⟨rfl, rfl, rfl⟩
  | fin s e f => simp at h

/-! ## The obligations -/

/-- Settles O43, through the three fields of a word. -/
theorem bitPatternsOfValues : Obligations.BitPatternsOfValues :=
  ⟨F32.ofBits_toBits, F32.quiet_toBits_nan, fun _ d h => F32.toBits_ofBits d h⟩

/-- Settles O39. -/
theorem clampKeepsTheRange : Obligations.ClampKeepsTheRange :=
  ⟨clamp_eq, fun lo hi _ => clamp_nan lo hi, by decide +kernel, fun _ _ _ => clamp_inRange⟩

/-- Settles O40: every configuration holds the three functions of Machine/ConfigFunctions. -/
theorem configurationFunctionsHaveTheirProperties : Obligations.ConfigurationFunctionsHaveTheirProperties := fun _ =>
  ⟨sin32_zero false, sin32_zero true, cos32_zero false, cos32_zero true, fun _ hk => exp2_32_ofInt hk,
    fun _ h => configFunctions_nonFinite h⟩

end Sys2Proof.Machine
end

section
/-! Rounding is to the nearest finite value, ties to even, with the overflow bound (00_scope.md R7, log 16). -/

namespace Sys2Proof.F32

/-! ## Signs -/

theorem signed_not (s : Bool) (m : Nat) : signed (!s) m = -signed s m := by cases s <;> simp [signed]

theorem signed_mul (s t : Bool) (m n : Nat) : signed s m * signed t n = signed (s ^^ t) (m * n) := by
  cases s <;> cases t <;> simp [signed]

theorem signed_mul_natCast (s : Bool) (m n : Nat) : signed s (m * n) = signed s m * n := by cases s <;> simp [signed]

theorem abs_signed (s : Bool) (m : Nat) : |signed s m| = m := by cases s <;> simp [signed]

/-! ## Nearest whole number -/

/-- `p` divided by `d`, to the nearest whole number, ties to even. -/
def nearestDiv (p d : Nat) : Nat :=
  if d < 2 * (p % d) ∨ (2 * (p % d) = d ∧ p / d % 2 = 1) then p / d + 1 else p / d

theorem steps_eq_nearestDiv (p q : Nat) : steps p q = nearestDiv p (q * 2 ^ stepExp p q) := rfl

/-- The quotient, with at most half of `d` left over, or one more, with at least half of `d` left over. -/
theorem nearestDiv_cases (p d : Nat) :
    nearestDiv p d = p / d ∧ 2 * (p % d) ≤ d ∨ nearestDiv p d = p / d + 1 ∧ d ≤ 2 * (p % d) := by
  unfold nearestDiv
  split <;> omega

theorem nearestDiv_even_of_tie {p d : Nat} (h : 2 * (p % d) = d) : nearestDiv p d % 2 = 0 := by
  unfold nearestDiv
  split <;> omega

theorem eq_div_mul_add_mod (p d : Nat) : (p : Int) = (p / d : Nat) * d + (p % d : Nat) := by
  exact_mod_cast (Nat.div_add_mod' p d).symm

/-- The distance to the nearest multiple is what is left over on the nearer side. -/
theorem dist_nearestDiv (p : Nat) {d : Nat} (hd : 0 < d) :
    |(nearestDiv p d : Int) * d - p| = min ((p % d : Nat) : Int) (d - (p % d : Nat)) := by
  have hp := eq_div_mul_add_mod p d
  have hr : p % d < d := Nat.mod_lt p hd
  rcases nearestDiv_cases p d with ⟨hm, h⟩ | ⟨hm, h⟩
  · have hdist : ((p / d : Nat) : Int) * d - p = -(p % d : Nat) := by linarith
    rw [hm, hdist, abs_neg, Nat.abs_cast]
    omega
  · have hdist : ((p / d + 1 : Nat) : Int) * d - p = d - (p % d : Nat) := by push_cast at *; linarith
    rw [hm, hdist, abs_of_pos (by omega)]
    omega

/-- No multiple of `d` is nearer to `p`, and another one equally near makes the quotient even. -/
theorem nearestDiv_nearest (p : Nat) {d : Nat} (hd : 0 < d) (a : Int) :
    |(nearestDiv p d : Int) * d - p| ≤ |a * d - p| ∧
      (|(nearestDiv p d : Int) * d - p| = |a * d - p| → a ≠ nearestDiv p d → nearestDiv p d % 2 = 0) := by
  have hcases := nearestDiv_cases p d
  have htie := nearestDiv_even_of_tie (p := p) (d := d)
  have hr : p % d < d := Nat.mod_lt p hd
  have ha : a * d - p = (a - (p / d : Nat)) * d - (p % d : Nat) := by linarith [eq_div_mul_add_mod p d]
  rw [dist_nearestDiv p hd, ha]
  generalize nearestDiv p d = m, p % d = r, p / d = n at *
  rcases lt_trichotomy a n with hlt | rfl | hgt
  · have : (a - n) * d ≤ -d := by nlinarith
    rw [abs_of_neg (by omega)]
    omega
  · rw [sub_self, zero_mul, zero_sub, abs_neg, Nat.abs_cast]
    omega
  · rcases (show a = n + 1 ∨ n + 2 ≤ a by omega) with rfl | h2
    · rw [add_sub_cancel_left, one_mul, abs_of_pos (by omega)]
      omega
    · have : 2 * (d : Int) ≤ (a - n) * d := by nlinarith
      rw [abs_of_pos (by omega)]
      omega

/-! ## Rounding of a magnitude -/

theorem roundedUnits_mul (p q : Nat) :
    (roundedUnits p q : Int) * q = (steps p q : Int) * (q * 2 ^ stepExp p q : Nat) := by
  rw [roundedUnits]
  push_cast
  ring

/-- A number of at most 24 bits, in units finer than the step of rounding, lies below the whole steps of `p / q`. -/
theorem fine_lt_div_step {p q j : Nat} {a : Int} (hq : 0 < q) (ha : a < 2 ^ 24) (hj : j < stepExp p q) :
    a * 2 ^ j * q < ((p / (q * 2 ^ stepExp p q) : Nat) : Int) * (q * 2 ^ stepExp p q : Nat) := by
  have hn : ((2 ^ 23 : Nat) : Int) ≤ (p / (q * 2 ^ stepExp p q) : Nat) := by exact_mod_cast le_div_step p q (by omega)
  have hpow : (2 : Int) ^ (j + 1) ≤ 2 ^ stepExp p q := pow_le_pow_right₀ (by norm_num) hj
  have hq' : (0 : Int) < q := by exact_mod_cast hq
  calc a * 2 ^ j * q < 2 ^ 24 * 2 ^ j * q := by gcongr
    _ = 2 ^ 23 * (q * 2 ^ (j + 1)) := by ring
    _ ≤ 2 ^ 23 * (q * 2 ^ stepExp p q) := by gcongr
    _ ≤ _ := by push_cast at hn ⊢; gcongr

/-- No value of at most 24 bits is nearer to `p / q` than the rounded one, and another one equally near makes its last
bit 0. -/
theorem roundedUnits_nearest (p j : Nat) {q : Nat} {a : Int} (hq : 0 < q) (ha : a < 2 ^ 24) :
    |(roundedUnits p q : Int) * q - p| ≤ |a * 2 ^ j * q - p| ∧
      (|(roundedUnits p q : Int) * q - p| = |a * 2 ^ j * q - p| → a * 2 ^ j ≠ roundedUnits p q →
        steps p q % 2 = 0) := by
  have hd : 0 < q * 2 ^ stepExp p q := by positivity
  rw [roundedUnits_mul, steps_eq_nearestDiv]
  rcases Nat.lt_or_ge j (stepExp p q) with hj | hj
  · -- the value lies below the floor of `p / q` in steps, which is already no nearer than the rounded one
    have hfloor := (nearestDiv_nearest p hd (p / (q * 2 ^ stepExp p q) : Nat)).1
    have hle : ((p / (q * 2 ^ stepExp p q) : Nat) : Int) * (q * 2 ^ stepExp p q : Nat) ≤ p := by
      exact_mod_cast Nat.div_mul_le_self _ _
    have hlt := fine_lt_div_step hq ha hj
    rw [abs_of_nonpos (sub_nonpos.2 hle)] at hfloor
    rw [abs_of_neg (a := a * 2 ^ j * q - p) (by linarith)]
    exact ⟨by linarith, fun h => by linarith⟩
  · -- the value is a whole number of steps
    have hval : a * 2 ^ j = a * 2 ^ (j - stepExp p q) * 2 ^ stepExp p q := by
      rw [mul_assoc, ← pow_add, Nat.sub_add_cancel hj]
    have hmul : a * 2 ^ j * q = a * 2 ^ (j - stepExp p q) * (q * 2 ^ stepExp p q : Nat) := by
      rw [hval]
      push_cast
      ring
    obtain ⟨hle, htie⟩ := nearestDiv_nearest p hd (a * 2 ^ (j - stepExp p q))
    rw [hmul]
    refine ⟨hle, fun h hne => htie h fun heq => hne ?_⟩
    rw [hval, heq, roundedUnits, steps_eq_nearestDiv]
    push_cast
    rfl

/-! ## Overflow -/

theorem roundedUnits_overflow : roundedUnits Machine.overflowUnits 1 = infUnits := by decide +kernel

/-- Below half a step above the largest finite value, that value is the nearer one, not 2^128. -/
theorem roundedUnits_lt_infUnits {p q : Nat} (hq : 0 < q) (h : p < Machine.overflowUnits * q) :
    roundedUnits p q < infUnits := by
  by_contra! hge
  have hmax := (roundedUnits_nearest p 253 (a := 2 ^ 24 - 1) hq (by norm_num)).1
  have hover : ((Machine.overflowUnits * q : Nat) : Int) = (2 ^ 25 - 1) * (2 ^ 252 * q) := by
    rw [Machine.overflowUnits]
    push_cast
    ring
  have hinf : ((infUnits * q : Nat) : Int) = 2 ^ 25 * (2 ^ 252 * q) := by
    rw [infUnits]
    push_cast
    ring
  have hval : ((2 ^ 24 - 1) * 2 ^ 253 * q : Int) = (2 ^ 25 - 2) * (2 ^ 252 * q) := by ring
  have hR : ((infUnits * q : Nat) : Int) ≤ (roundedUnits p q : Int) * q := by
    exact_mod_cast Nat.mul_le_mul_right q hge
  have hp : (p : Int) < (Machine.overflowUnits * q : Nat) := by exact_mod_cast h
  rw [hval] at hmax
  rw [hinf] at hR
  rw [hover] at hp
  generalize (2 ^ 252 * q : Int) = half at *
  have hlow := le_abs_self ((roundedUnits p q : Int) * q - p)
  rcases abs_cases ((2 ^ 25 - 2) * half - p) with ⟨heq, -⟩ | ⟨heq, -⟩ <;> linarith

/-- A magnitude is rounded to 2^128 or beyond exactly from half a step above the largest finite value on. -/
theorem infUnits_le_roundedUnits {p q : Nat} (hq : 0 < q) :
    infUnits ≤ roundedUnits p q ↔ Machine.overflowUnits * q ≤ p := by
  constructor
  · intro h
    by_contra! hlt
    exact absurd (roundedUnits_lt_infUnits hq hlt) (Nat.not_lt.2 h)
  · intro h
    rw [← roundedUnits_overflow]
    exact roundedUnits_mono (by norm_num) hq (by omega)

/-! ## The rounded value -/

theorem isFinite_round (neg : Bool) (p q : Nat) :
    (round neg p q).isFinite = false ↔ infUnits ≤ roundedUnits p q := by
  constructor
  · intro h
    by_contra! hlt
    obtain ⟨e, f, hx, -⟩ := round_fin neg hlt
    simp [hx] at h
  · intro h
    have hr := rank_round neg p q
    rw [min_eq_right h] at hr
    generalize round neg p q = x at *
    cases x with
    | nan => rfl
    | inf s => rfl
    | fin s e f =>
      have hu := congrArg abs (Option.some.inj hr)
      rw [abs_signed, abs_signed] at hu
      have := units_lt e f
      omega

theorem exactUnits_round {neg : Bool} {p q : Nat} (h : (round neg p q).isFinite = true) :
    Machine.exactUnits (round neg p q) = signed neg (roundedUnits p q) := by
  have hlt : roundedUnits p q < infUnits := by
    by_contra! hge
    rw [(isFinite_round neg p q).2 hge] at h
    cases h
  obtain ⟨e, f, hx, hu⟩ := round_fin neg hlt
  rw [hx, ← hu]
  rfl

/-- The last bit of a finite value given by its magnitude bits. -/
theorem lastBit_ofMag {neg : Bool} {m : Nat} (h : (ofMag neg m).isFinite = true) :
    ((ofMag neg m).toBits 0).getLsbD 0 = decide (m % 2 = 1) := by
  unfold ofMag at h ⊢
  split at h
  · rename_i hm
    rw [dif_pos hm, toBits_fin, BitVec.getLsbD, Nat.testBit_zero, toNat_packBits, BitVec.toNat_ofNat,
      BitVec.toNat_ofNat]
    congr 1
    simp only [eq_iff_iff]
    omega
  · simp at h

theorem lastBit_round {neg : Bool} {p q : Nat} (h : (round neg p q).isFinite = true) (hev : steps p q % 2 = 0) :
    ((round neg p q).toBits 0).getLsbD 0 = false := by
  rw [round_eq] at h ⊢
  rw [lastBit_ofMag h, decide_eq_false_iff_not]
  omega

/-- A finite magnitude is a number of at most 24 bits times a power of two. -/
theorem units_eq_mul_pow (e : Fin 255) (f : BitVec 23) : ∃ m j, m < 2 ^ 24 ∧ units e f = m * 2 ^ j := by
  have hf : f.toNat < 2 ^ 23 := f.isLt
  unfold units
  split
  · exact ⟨f.toNat, 0, by omega, by ring⟩
  · exact ⟨2 ^ 23 + f.toNat, e.val - 1, by omega, rfl⟩

/-- The value of a datum, with either sign, is a number of at most 24 bits times a power of two. -/
theorem exactUnits_grid (neg : Bool) (z : F32) :
    ∃ (a : Int) (j : Nat), a < 2 ^ 24 ∧ signed neg 1 * Machine.exactUnits z = a * 2 ^ j := by
  cases z with
  | nan => exact ⟨0, 0, by norm_num, by simp [Machine.exactUnits]⟩
  | inf s => exact ⟨0, 0, by norm_num, by simp [Machine.exactUnits]⟩
  | fin s e f =>
    obtain ⟨m, j, hm, hu⟩ := units_eq_mul_pow e f
    refine ⟨signed (neg ^^ s) m, j, ?_, ?_⟩
    · have := le_abs_self (signed (neg ^^ s) m)
      rw [abs_signed] at this
      omega
    · rw [Machine.exactUnits, signed_mul, hu, one_mul, signed_mul_natCast]
      push_cast
      rfl

/-! ## What rounding means for an operation -/

/-- `r` is the exact result `exact / scale` rounded to nearest, as far as the finite value `z` can tell: infinite from
the overflow bound on; otherwise at least as near as `z`, and with last bit 0 when `z` is another value as near. -/
def RoundsTo (exact scale : Int) (r z : F32) : Prop :=
  (r.isFinite = false ↔ (Machine.overflowUnits : Int) * |scale| ≤ |exact|) ∧
  (r.isFinite = true →
    |Machine.exactUnits r * scale - exact| ≤ |Machine.exactUnits z * scale - exact| ∧
    (|Machine.exactUnits r * scale - exact| = |Machine.exactUnits z * scale - exact| →
      Machine.exactUnits z ≠ Machine.exactUnits r → ((r.toBits 0).getLsbD 0) = false))

/-- The quotient is the same with both signs changed. -/
theorem RoundsTo.neg {exact scale : Int} {r z : F32} (h : RoundsTo exact scale r z) :
    RoundsTo (-exact) (-scale) r z := by
  have hdist : ∀ a : Int, |a * -scale - -exact| = |a * scale - exact| := fun a => by rw [← abs_neg]; congr 1; ring
  unfold RoundsTo at *
  rwa [abs_neg, abs_neg, hdist, hdist]

/-- Distances seen from the side of the sign. -/
theorem dist_signed (neg : Bool) (a : Int) (p q : Nat) :
    |a * q - signed neg p| = |signed neg 1 * a * q - p| := by
  cases neg
  · simp [signed]
  · have hneg : a * q - signed true p = -(signed true 1 * a * q - p) := by
      simp only [signed, if_true]
      push_cast
      ring
    rw [hneg, abs_neg]

/-- `round` rounds the exact magnitude `p / q`, with its sign, to nearest with ties to even. -/
theorem round_roundsTo (neg : Bool) (p : Nat) {q : Nat} (hq : 0 < q) (z : F32) :
    RoundsTo (signed neg p) q (round neg p q) z := by
  refine ⟨?_, fun hfin => ?_⟩
  · rw [isFinite_round, infUnits_le_roundedUnits hq, abs_signed, Nat.abs_cast]
    norm_cast
  · obtain ⟨a, j, ha, hz⟩ := exactUnits_grid neg z
    obtain ⟨hle, htie⟩ := roundedUnits_nearest p j hq ha
    have hr : signed neg 1 * Machine.exactUnits (round neg p q) = roundedUnits p q := by
      rw [exactUnits_round hfin, signed_mul, Bool.xor_self, one_mul]
      rfl
    rw [dist_signed, dist_signed, hr, hz]
    refine ⟨hle, fun h hne => lastBit_round hfin (htie h fun heq => hne ?_)⟩
    rw [← hz, ← hr] at heq
    exact mul_left_cancel₀ (by cases neg <;> decide) heq

theorem roundInt_zero (z : Bool) : roundInt z 0 = round z 0 1 := by cases z <;> decide

theorem roundInt_roundsTo (negZero : Bool) (n : Int) (z : F32) : RoundsTo n 1 (roundInt negZero n) z := by
  by_cases h : n = 0
  · subst h
    rw [roundInt_zero]
    have := round_roundsTo negZero 0 one_pos z
    cases negZero <;> exact this
  · rw [roundInt, if_neg h]
    have := round_roundsTo (decide (n < 0)) n.natAbs one_pos z
    rwa [signed_natAbs] at this

end Sys2Proof.F32

namespace Sys2Proof.Machine

theorem exists_fin_of_isFinite {x : F32} (h : x.isFinite = true) : ∃ s e f, x = .fin s e f := by
  cases x with
  | nan => cases h
  | inf s => cases h
  | fin s e f => exact ⟨s, e, f, rfl⟩

theorem exactUnits_fin (s : Bool) (e : Fin 255) (f : BitVec 23) :
    exactUnits (.fin s e f) = F32.signed s (F32.units e f) := rfl

theorem add_roundsTo {x y : F32} (hx : x.isFinite = true) (hy : y.isFinite = true) (z : F32) :
    F32.RoundsTo (exactUnits x + exactUnits y) 1 (x.add y) z := by
  obtain ⟨sx, ex, fx, rfl⟩ := exists_fin_of_isFinite hx
  obtain ⟨sy, ey, fy, rfl⟩ := exists_fin_of_isFinite hy
  exact F32.roundInt_roundsTo _ _ z

theorem mul_roundsTo {x y : F32} (hx : x.isFinite = true) (hy : y.isFinite = true) (z : F32) :
    F32.RoundsTo (exactUnits x * exactUnits y) (2 ^ 149) (x.mul y) z := by
  obtain ⟨sx, ex, fx, rfl⟩ := exists_fin_of_isFinite hx
  obtain ⟨sy, ey, fy, rfl⟩ := exists_fin_of_isFinite hy
  rw [exactUnits_fin, exactUnits_fin, F32.signed_mul]
  exact_mod_cast F32.round_roundsTo (sx ^^ sy) (F32.units ex fx * F32.units ey fy) (by positivity : 0 < 2 ^ 149) z

theorem div_roundsTo {x y : F32} (hx : x.isFinite = true) (hy : y.isFinite = true) (h0 : exactUnits y ≠ 0) (z : F32) :
    F32.RoundsTo (exactUnits x * 2 ^ 149) (exactUnits y) (x.div y) z := by
  obtain ⟨sx, ex, fx, rfl⟩ := exists_fin_of_isFinite hx
  obtain ⟨sy, ey, fy, rfl⟩ := exists_fin_of_isFinite hy
  have hu : F32.units ey fy ≠ 0 := by
    intro h
    rw [exactUnits_fin, h] at h0
    cases sy <;> exact h0 rfl
  have hx : exactUnits (.fin sx ex fx) * 2 ^ 149 = F32.signed sx (F32.units ex fx * 2 ^ 149) := by
    rw [exactUnits_fin, F32.signed_mul_natCast]
    norm_cast
  have hr := F32.round_roundsTo (sx ^^ sy) (F32.units ex fx * 2 ^ 149) (Nat.pos_of_ne_zero hu) z
  rw [hx, F32.div, if_neg hu, exactUnits_fin]
  cases sy
  · rwa [Bool.xor_false] at hr ⊢
  · rw [Bool.xor_true, F32.signed_not] at hr
    rw [Bool.xor_true]
    simpa [F32.signed] using hr.neg

/-- Settles O42: an operation rounds its exact result once, by `round`, and `round` is nearest. -/
theorem arithmeticRoundsToNearestEven : Obligations.ArithmeticRoundsToNearestEven := by
  intro x y r z hx hy _
  refine ⟨?_, ?_, ?_⟩
  · rintro rfl
    exact add_roundsTo hx hy z
  · rintro rfl
    exact mul_roundsTo hx hy z
  · rintro rfl h0
    exact div_roundsTo hx hy h0 z

end Sys2Proof.Machine
end
section
/-! What one command does to one slot, to the template, to the configuration and to the volume (47_commands.md
R240-R259), and what follows for the voice pool: allocation, COUNT and the independence of slots. -/

namespace Sys2Proof.Machine

/-! ## One slot and the template -/

/-- The parameter set a voice allocated under the configuration `p` and the template `P` starts from
(70_reset_and_hazards.md R331): `initialParams` without the rest of the block. -/
def startParams (p : Params) (P : VoiceParams) : VoiceParams :=
  match p.newVoiceInit with
  | .defaults => defaultVoiceParams p
  | .current => P

theorem initialParams_eq (s : State) : initialParams s = startParams s.params s.tmpl := rfl

theorem voiceOrAlloc_eq (s : State) (n : Fin nSlot) :
    voiceOrAlloc s n = (s.slots[n]).getD (newVoice (startParams s.params s.tmpl)) := by
  cases h : s.slots[n] with
  | some v => exact voiceOrAlloc_some h
  | none => exact (voiceOrAlloc_none h).trans (congrArg newVoice (initialParams_eq s))

/-- Slot `n` after a command, from the configuration, the template and the slot itself. -/
def slotAfter (p : Params) (P : VoiceParams) (n : Fin nSlot) (slot : Option Voice) : Instr → Option Voice
  | .noteOn note vel =>
    if noteSlot note = n then some (voiceNoteOn (configOf p) (slot.getD (newVoice (startParams p P))) n vel) else slot
  | .noteOff note => if noteSlot note = n then slot.map voiceNoteOff else slot
  | .sample => slot.map fun v => (voiceNext (configOf p) v).1
  | i => slot.map (voiceEdit p.sr i)

/-- The template after a command, from the configuration and the template. -/
def tmplAfter (p : Params) (P : VoiceParams) (i : Instr) : VoiceParams :=
  match p.newVoiceInit with
  | .defaults => P
  | .current => tmplEdit p.sr i P

theorem slotAfter_edit {i : Instr} (p : Params) (P : VoiceParams) (n : Fin nSlot) (slot : Option Voice)
    (h : broadcasts i = true) : slotAfter p P n slot i = slot.map (voiceEdit p.sr i) := by
  cases i with
  | noteOn | noteOff | sample => cases h
  | _ => rfl

theorem tmplEdit_of_not_broadcasts {i : Instr} (sr : F32) (P : VoiceParams) (h : broadcasts i = false) :
    tmplEdit sr i P = P := by
  cases i with
  | noteOn | noteOff | sample | queryPlaying | setVolume => rfl
  | _ => cases h

theorem tmplAfter_of_not_broadcasts {i : Instr} (p : Params) (P : VoiceParams) (h : broadcasts i = false) :
    tmplAfter p P i = P := by
  unfold tmplAfter
  cases p.newVoiceInit with
  | defaults => rfl
  | current => exact tmplEdit_of_not_broadcasts p.sr P h

/-- A command reaches slot `n` as `slotAfter` says. -/
theorem exec_slot {i : Instr} {s t : State} (h : exec i s = .next t) (n : Fin nSlot) :
    t.slots[n] = slotAfter s.params s.tmpl n s.slots[n] i := by
  rcases exec_cases h with ⟨note, vel, rfl, rfl⟩ | ⟨note, v, rfl, hv, rfl⟩ | ⟨note, rfl, hv, rfl⟩ | ⟨rfl, rfl⟩ |
    ⟨rfl, rfl⟩ | ⟨x, rfl, rfl⟩ | ⟨hb, rfl⟩
  · by_cases e : noteSlot note = n
    · subst e
      rw [setSlot_self, slotAfter, if_pos rfl, voiceOrAlloc_eq]
      rfl
    · rw [setSlot_other _ _ (Ne.symm e), slotAfter, if_neg e]
  · by_cases e : noteSlot note = n
    · subst e
      rw [setSlot_self, slotAfter, if_pos rfl, hv, Option.map_some]
    · rw [setSlot_other _ _ (Ne.symm e), slotAfter, if_neg e]
  · by_cases e : noteSlot note = n
    · subst e
      rw [slotAfter, if_pos rfl, hv, Option.map_none]
    · rw [slotAfter, if_neg e]
  · exact mapVoices_getElem _ _ _ _
  · exact Option.map_id'.symm
  · exact Option.map_id'.symm
  · rw [slotAfter_edit _ _ _ _ hb]
    exact mapVoices_getElem _ _ _ _

/-- A command reaches the template as `tmplAfter` says. -/
theorem exec_tmpl {i : Instr} {s t : State} (h : exec i s = .next t) : t.tmpl = tmplAfter s.params s.tmpl i := by
  rcases exec_cases h with ⟨note, vel, rfl, rfl⟩ | ⟨note, v, rfl, hv, rfl⟩ | ⟨note, rfl, hv, rfl⟩ | ⟨rfl, rfl⟩ |
    ⟨rfl, rfl⟩ | ⟨x, rfl, rfl⟩ | ⟨hb, rfl⟩
  · rw [setSlot_tmpl, tmplAfter_of_not_broadcasts _ _ rfl]
  · rw [setSlot_tmpl, tmplAfter_of_not_broadcasts _ _ rfl]
  · rw [tmplAfter_of_not_broadcasts _ _ rfl]
  · rw [sampleWith_tmpl, tmplAfter_of_not_broadcasts _ _ rfl]
  · rw [respond_tmpl, tmplAfter_of_not_broadcasts _ _ rfl]
  · rw [tmplAfter_of_not_broadcasts _ _ rfl]
  · rfl

/-! ## Configuration and volume -/

theorem exec_params {i : Instr} {s t : State} (h : exec i s = .next t) : t.params = s.params := by
  rcases exec_cases h with ⟨note, vel, -, rfl⟩ | ⟨note, v, -, -, rfl⟩ | ⟨note, -, -, rfl⟩ | ⟨-, rfl⟩ | ⟨-, rfl⟩ |
    ⟨x, -, rfl⟩ | ⟨-, rfl⟩ <;> simp

/-- Only SET_VOLUME writes the volume. -/
theorem exec_volume {i : Instr} {s t : State} (h : exec i s = .next t) :
    t.volume = s.volume ∨ ∃ x, i = .setVolume x ∧ t.volume = clampUnit x := by
  rcases exec_cases h with ⟨note, vel, -, rfl⟩ | ⟨note, v, -, -, rfl⟩ | ⟨note, -, -, rfl⟩ | ⟨-, rfl⟩ | ⟨-, rfl⟩ |
    ⟨x, rfl, rfl⟩ | ⟨-, rfl⟩
  case inr.inr.inr.inr.inr.inl => exact .inr ⟨x, rfl, rfl⟩
  all_goals simp

/-! ## Allocation -/

/-- After a command a slot is allocated when it was before, or when the command is NOTE_ON of its note. -/
theorem slotAfter_isSome (p : Params) (P : VoiceParams) (n : Fin nSlot) (slot : Option Voice) (i : Instr) :
    (slotAfter p P n slot i).isSome = true ↔
      slot.isSome = true ∨ ∃ note vel, i = .noteOn note vel ∧ noteSlot note = n := by
  cases i
  case noteOn note vel => by_cases e : noteSlot note = n <;> simp [slotAfter, e]
  case noteOff note => by_cases e : noteSlot note = n <;> simp [slotAfter, e]
  all_goals simp [slotAfter]

/-- The notes allocated after a NOTE_ON: those before it, and its own. -/
theorem mem_allocated_noteOn {note : BitVec 7} {vel : F32} {s t : State} (h : exec (.noteOn note vel) s = .next t)
    (n : Fin nSlot) : n ∈ allocated t ↔ n = noteSlot note ∨ n ∈ allocated s := by
  rw [mem_allocated, mem_allocated, exec_slot h, slotAfter_isSome]
  constructor
  · rintro (hs | ⟨_, _, ⟨⟩, e⟩)
    · exact .inr hs
    · exact .inl e.symm
  · rintro (rfl | hs)
    · exact .inr ⟨note, vel, rfl, rfl⟩
    · exact .inl hs

theorem count_noteOn_of_none {note : BitVec 7} {vel : F32} {s t : State} (h : exec (.noteOn note vel) s = .next t)
    (hn : s.slots[noteSlot note] = none) : count t = count s + 1 := by
  have hmem : noteSlot note ∉ allocated s := by simp [mem_allocated, hn]
  have hperm : (allocated t).Perm (noteSlot note :: allocated s) :=
    (List.perm_ext_iff_of_nodup (allocated_nodup t) (List.nodup_cons.2 ⟨hmem, allocated_nodup s⟩)).2 fun n => by
      rw [mem_allocated_noteOn h, List.mem_cons]
  exact hperm.length_eq

theorem count_noteOn_of_some {note : BitVec 7} {vel : F32} {s t : State} (h : exec (.noteOn note vel) s = .next t)
    (hn : s.slots[noteSlot note] ≠ none) : count t = count s := by
  have hmem : noteSlot note ∈ allocated s := (mem_allocated s _).2 (Option.isSome_iff_ne_none.2 hn)
  have hperm : (allocated t).Perm (allocated s) :=
    (List.perm_ext_iff_of_nodup (allocated_nodup t) (allocated_nodup s)).2 fun n => by
      rw [mem_allocated_noteOn h, or_iff_right_of_imp]
      rintro rfl
      exact hmem
  exact hperm.length_eq

/-! ## The obligations -/

/-- Settles O18: a slot is allocated afterwards exactly when it was, or its NOTE_ON ran. -/
theorem onlyNoteOnAllocates : Obligations.OnlyNoteOnAllocates := by
  intro i s t h n
  rw [exec_slot h n, slotAfter_isSome]
  refine ⟨.inl, fun hn hsome => hsome.resolve_left ?_⟩
  rw [hn]
  exact Bool.false_ne_true

/-- Settles O19: the notes allocated after NOTE_ON are those before it and its own. -/
theorem countGrowsOnFirstNoteOn : Obligations.CountGrowsOnFirstNoteOn := fun _ _ _ t h =>
  ⟨count_noteOn_of_none h, count_noteOn_of_some h, count_le t⟩

/-- Settles O20: the slot and the template afterwards are functions of the configuration, the template and the slot. -/
theorem slotsDoNotInterfere : Obligations.SlotsDoNotInterfere := by
  intro i s t s' t' n hp hP hn hs ht
  rw [exec_slot hs, exec_slot ht, exec_tmpl hs, exec_tmpl ht, hp, hP, hn]
  exact ⟨rfl, rfl⟩

end Sys2Proof.Machine
end

section
/-! Values the invariant bounds: phases after WRAP1, the sample period, the clamped values and the default parameter
set (00_scope.md R5, R10; 40_oscillator.md R104; 44_envelope.md R176; 45_filter.md R201). -/

namespace Sys2Proof.F32

theorem signed_false (m : Nat) : signed false m = m := rfl

theorem round_nonneg (p q : Nat) : posZero.le (round false p q) = true :=
  (nonneg_iff _).2 ⟨_, rank_round false p q, Int.natCast_nonneg _⟩

theorem roundInt_nonneg (z : Bool) {n : Int} (h : 0 ≤ n) : posZero.le (roundInt z n) = true := by
  refine (nonneg_iff _).2 ⟨_, rank_roundInt z n, ?_⟩
  rw [decide_eq_false (by omega)]
  exact Int.natCast_nonneg _

theorem posZero_le_posZero : posZero.le posZero = true := by decide +kernel
theorem posZero_le_one : posZero.le one = true := by decide +kernel
theorem posZero_lt_one : posZero.lt one = true := by decide +kernel

/-- A finite value of positive rank has the sign +, and its magnitude is its rank. -/
theorem exists_fin_of_rank_pos {x : F32} {a : Int} (hx : x.isFinite = true) (hrank : x.rank = some a) (ha : 0 < a) :
    ∃ e f, x = fin false e f ∧ (units e f : Int) = a := by
  obtain ⟨s, e, f, rfl⟩ := Machine.exists_fin_of_isFinite hx
  obtain rfl : signed s (units e f) = a := Option.some.inj hrank
  cases s with
  | false => exact ⟨e, f, rfl, rfl⟩
  | true => simp only [signed, if_true] at ha; omega

end Sys2Proof.F32

namespace Sys2Proof.Machine

/-! ## Phases -/

/-- The remainder, made not negative, is still a number: adding 1.0 to a value above -1.0 gives no negative one. -/
theorem wrapRemainder_inRange {s : Bool} {e : Fin 255} {f : BitVec 23} (h : F32.units e f < 2 ^ 149) :
    F32.posZero.le (wrapRemainder (.fin s e f)) = true ∧ (wrapRemainder (.fin s e f)).lt F32.one = true := by
  have key : F32.posZero.le (if (F32.fin s e f).lt F32.posZero = true then (F32.fin s e f).add F32.one else .fin s e f)
      = true := by
    split
    · have hone : F32.signed false (F32.units 127 0) = 2 ^ 149 := by rw [F32.units_one]; rfl
      have hge : 0 ≤ F32.signed s (F32.units e f) + F32.signed false (F32.units 127 0) := by
        rw [hone]
        cases s <;> simp only [F32.signed, Bool.false_eq_true, if_false, if_true] <;> omega
      rw [F32.one_eq]
      exact F32.roundInt_nonneg _ hge
    · rename_i hlt
      exact F32.le_of_not_lt (by decide) (by simp) (Bool.eq_false_iff.2 hlt)
  unfold wrapRemainder
  dsimp only
  generalize (if (F32.fin s e f).lt F32.posZero = true then (F32.fin s e f).add F32.one else .fin s e f) = r at key
  split
  · exact ⟨F32.posZero_le_posZero, F32.posZero_lt_one⟩
  · rename_i hle
    exact ⟨key, F32.lt_of_not_le (F32.ne_nan_of_le_right key) (by decide) (Bool.eq_false_iff.2 hle)⟩

/-- WRAP1 of a finite value is in [0,1) (40_oscillator.md R104). -/
theorem wrap1_inRange {p : F32} (h : p.isFinite = true) :
    F32.posZero.le (wrap1 p) = true ∧ (wrap1 p).lt F32.one = true := by
  obtain ⟨s, e, f, rfl⟩ := exists_fin_of_isFinite h
  obtain ⟨e', f', hr, hu⟩ := F32.fmodOne_fin s e f
  rw [wrap1, if_pos h, hr]
  exact wrapRemainder_inRange (hu ▸ Nat.mod_lt _ (by positivity))

theorem wrap1_phaseOk (p : F32) : PhaseOk (wrap1 p) := by
  cases h : p.isFinite with
  | false => exact .inl (if_neg (Bool.eq_false_iff.1 h))
  | true => exact .inr (wrap1_inRange h)

theorem posZero_phaseOk : PhaseOk F32.posZero := .inr ⟨F32.posZero_le_posZero, F32.posZero_lt_one⟩

/-! ## Clamped values -/

theorem posZero_inUnit : InUnit F32.posZero := ⟨F32.posZero_le_posZero, F32.posZero_le_one⟩
theorem half_inUnit : InUnit F32.half := by decide +kernel
theorem one_inUnit : InUnit F32.one := ⟨F32.posZero_le_one, by decide +kernel⟩

theorem clampUnit_inUnit {x : F32} (h : x ≠ .nan) : InUnit (clampUnit x) := clamp_inRange F32.posZero_le_one h

/-- What the range of SR in 00_scope.md R5 is used for. -/
def LegalRate (sr : F32) : Prop := sr.isFinite = true ∧ (F32.ofInt 40).le sr = true

theorem LegalRate.exists_fin {sr : F32} (h : LegalRate sr) :
    ∃ e f, sr = .fin false e f ∧ 40 * 2 ^ 149 ≤ F32.units e f := by
  have hrank : (F32.ofInt 40).rank = some (40 * 2 ^ 149) := by decide +kernel
  obtain ⟨a, b, ha, hb, hab⟩ := (F32.le_iff _ _).1 h.2
  obtain rfl : 40 * 2 ^ 149 = a := Option.some.inj (hrank.symm.trans ha)
  obtain ⟨e, f, hsr, hu⟩ := F32.exists_fin_of_rank_pos h.1 hb (by omega)
  exact ⟨e, f, hsr, by omega⟩

/-- The cutoff range of 45_filter.md R201 is not empty. -/
theorem LegalRate.twenty_le_nyquist {sr : F32} (h : LegalRate sr) : F32.twenty.le (nyquist sr) = true := by
  obtain ⟨e, f, rfl, hu⟩ := h.exists_fin
  have htwo : F32.two = .fin false 128 0 := by decide
  have hunits : F32.units 128 0 = 2 ^ 150 := by decide +kernel
  have hdiv : nyquist (.fin false e f) = F32.round false (F32.units e f * 2 ^ 149) (2 ^ 150) := by
    rw [nyquist, htwo, F32.div, hunits, if_neg (by norm_num)]
    rfl
  have hlow : 20 * 2 ^ 149 ≤ F32.roundedUnits (F32.units e f * 2 ^ 149) (2 ^ 150) := by
    calc 20 * 2 ^ 149 = F32.roundedUnits (20 * 2 ^ 149) 1 := (F32.roundedUnits_mul_pow 149 (by norm_num)).symm
      _ ≤ _ := F32.roundedUnits_mono (by norm_num) (by norm_num) (by omega)
  have hinf : 20 * 2 ^ 149 ≤ F32.infUnits := by decide +kernel
  have hrank : F32.twenty.rank = some (20 * 2 ^ 149) := by decide +kernel
  rw [F32.le_iff, hdiv]
  exact ⟨_, _, hrank, F32.rank_round _ _ _, by rw [F32.signed_false]; omega⟩

theorem LegalRate.clampCutoff_inRange {sr x : F32} (h : LegalRate sr) (hx : x ≠ .nan) :
    InRange F32.twenty (nyquist sr) (clampCutoff sr x) := clamp_inRange h.twenty_le_nyquist hx

theorem LegalRate.samplePeriod_nonneg {sr : F32} (h : LegalRate sr) : F32.posZero.le (samplePeriod sr) = true := by
  obtain ⟨e, f, rfl, hu⟩ := h.exists_fin
  rw [samplePeriod, F32.one_eq, F32.div, if_neg (by omega)]
  exact F32.round_nonneg _ _

/-! ## The configuration -/

theorem legalParams_rate {p : Params} (h : legalParams p = true) : LegalRate p.sr := by
  simp only [legalParams, Bool.and_eq_true] at h
  obtain ⟨⟨⟨⟨⟨⟨⟨⟨hfin, h40⟩, -⟩, -⟩, -⟩, -⟩, -⟩, -⟩, -⟩ := h
  exact ⟨hfin, h40⟩

theorem defaultAttack_isFinite : defaultAttack.isFinite = true := by decide +kernel

theorem defaultOperators_isFinite : ∀ i : Fin nOp, (defaultOperators[i]).ratio.isFinite = true ∧
    (defaultOperators[i]).amp.isFinite = true ∧ (defaultOperators[i]).fbk.isFinite = true := by decide +kernel

/-- The default parameter set is legal in every legal configuration (10_state.md R31, R35). -/
theorem defaultVoiceParams_legal {p : Params} (h : legalParams p = true) : LegalParamSet p.sr (defaultVoiceParams p) := by
  have hrate := legalParams_rate h
  simp only [legalParams, within, Bool.and_eq_true, List.all_eq_true] at h
  obtain ⟨⟨⟨⟨⟨⟨⟨-, hD⟩, hS⟩, hR⟩, hcut⟩, -, hres⟩, -⟩, hharm⟩ := h
  refine ⟨half_inUnit, hrate.clampCutoff_inRange (F32.ne_nan_of_isFinite hcut),
    clampUnit_inUnit (F32.ne_nan_of_le_left hres), hS, ⟨defaultAttack_isFinite, hD, hR⟩,
    fun i => hharm i (List.mem_finRange i), defaultOperators_isFinite⟩

end Sys2Proof.Machine
end

section
/-! The invariant, component by component: each operation on a voice keeps the voice legal (10_state.md R24-R35). -/

namespace Sys2Proof.Machine

/-! ## Engines -/

theorem oscNext_phaseOk (C : Config) (o : Osc) : PhaseOk (oscNext C o).1.phase := by
  rw [oscNext_phase]
  exact wrap1_phaseOk _

theorem addNext_legal (C : Config) {base : F32} {a : Additive} (h : LegalAdditive base a) :
    LegalAdditive base (addNext C a).1 := by
  intro i
  obtain ⟨hmult, hamp, hfreq, -⟩ := h i
  simp only [Fin.getElem_fin, addNext_harm, addNext_osc, oscNext_amp, oscNext_freq] at hmult hamp hfreq ⊢
  exact ⟨hmult, hamp, hfreq, oscNext_phaseOk C _⟩

/-- A change of one harmonic's amplitude or enable bit, which keeps the multipliers. -/
theorem addModifyHarm_legal {base : F32} {a : Additive} (i : BitVec 8) {g : Harm → Harm}
    (hg : ∀ x, (g x).mult = x.mult) (h : LegalAdditive base a) : LegalAdditive base (addModifyHarm a i g) := by
  intro j
  obtain ⟨hmult, hamp, hfreq, hphase⟩ := h j
  simp only [Fin.getElem_fin, addModifyHarm_harm, modifyEntry_getElem, addModifyHarm_osc] at hmult hamp hfreq hphase ⊢
  split
  · exact ⟨(hg _).trans hmult, rfl, hfreq, hphase⟩
  · exact ⟨hmult, hamp, hfreq, hphase⟩

theorem fmNext_legal (C : Config) {m : Fm} (h : LegalFm m) : LegalFm (fmNext C m).1 := by
  intro j
  obtain ⟨hamp, hfreq, hphase⟩ := h j
  obtain ⟨hosc, -⟩ := (fmNext_spec C m).2.2 j j.2
  simp only [Fin.getElem_fin, fmNext_op, fmNext_base, hosc] at hamp hfreq hphase ⊢
  split
  · exact ⟨(oscNext_amp C _).trans hamp, (oscNext_freq C _).trans hfreq, oscNext_phaseOk C _⟩
  · exact ⟨hamp, hfreq, hphase⟩

/-- A change of an operator that keeps its ratio. -/
theorem modifyOp_legal {m : Fm} (i : BitVec 8) {g : Operator → Operator} (hg : ∀ x, (g x).ratio = x.ratio)
    (h : LegalFm m) : LegalFm { m with op := modifyEntry m.op i g } := by
  intro j
  obtain ⟨hamp, hfreq, hphase⟩ := h j
  simp only [Fin.getElem_fin, modifyEntry_getElem] at hamp hfreq hphase ⊢
  split
  · exact ⟨hamp, hfreq.trans (congrArg _ (hg _).symm), hphase⟩
  · exact ⟨hamp, hfreq, hphase⟩

theorem fmSetOpRatio_legal {m : Fm} (i : BitVec 8) (r : F32) (h : LegalFm m) : LegalFm (fmSetOpRatio m i r) := by
  intro j
  obtain ⟨hamp, hfreq, hphase⟩ := h j
  simp only [fmSetOpRatio, Fin.getElem_fin, modifyEntry_getElem] at hamp hfreq hphase ⊢
  split
  · exact ⟨hamp, rfl, hphase⟩
  · exact ⟨hamp, hfreq, hphase⟩

/-! ## Envelope -/

/-- The part of a timed stage that has passed, before the stage's end (44_envelope.md R177, R178, R180). -/
theorem elapsedFraction_inUnit {t d : F32} (ht : F32.posZero.le t = true) (hd : d.isFinite = true)
    (h : d.le t = false) : InUnit (t.div d) :=
  F32.div_unit ht (F32.lt_of_not_le (F32.ne_nan_of_le_right ht) (F32.ne_nan_of_isFinite hd) h) hd

theorem elapsedNow_nonneg {sr : F32} {e : Env} (hrate : LegalRate sr) (h : F32.posZero.le e.elapsed = true) :
    F32.posZero.le (elapsedNow sr e) = true := F32.add_nonneg h hrate.samplePeriod_nonneg

/-- One sample of a legal envelope with legal parameters: the value stays in [0,1], the time not negative, and the gate
true in Attack, Decay and Sustain only, since Sustain ends by the gate alone (44_envelope.md R176-R183). -/
theorem envNext_legal {sr : F32} {e : Env} (hrate : LegalRate sr) (hS : InUnit e.S)
    (htimes : e.A.isFinite = true ∧ e.D.isFinite = true ∧ e.R.isFinite = true) (h : LegalEnv e) :
    LegalEnv (envNext sr e).1 := by
  obtain ⟨helapsed, -, hgate⟩ := h
  obtain ⟨hA, hD, hR⟩ := htimes
  have hnow := elapsedNow_nonneg hrate helapsed
  rcases envNext_cases sr e with ⟨hs, -, he⟩ | ⟨hs, hlt, he⟩ | ⟨hs, -, he⟩ | ⟨hs, hlt, he⟩ | ⟨hs, -, he⟩ |
    ⟨hs, hoff, -⟩ | ⟨hs, -, he⟩ | ⟨hs, hlt, he⟩ | ⟨hs, he⟩
  case inr.inr.inr.inr.inr.inl =>
    rw [hs, hoff] at hgate
    cases hgate
  all_goals rw [he]
  · exact ⟨F32.posZero_le_posZero, one_inUnit, by rw [hgate, hs]; rfl⟩
  · exact ⟨hnow, elapsedFraction_inUnit hnow hA hlt, hgate⟩
  · exact ⟨F32.posZero_le_posZero, hS, by rw [hgate, hs]; rfl⟩
  · exact ⟨hnow, F32.one_sub_unit (F32.mul_unit (F32.one_sub_unit hS) (elapsedFraction_inUnit hnow hD hlt)), hgate⟩
  · exact ⟨hnow, hS, hgate⟩
  · exact ⟨F32.posZero_le_posZero, posZero_inUnit, by rw [hgate, hs]; rfl⟩
  · exact ⟨hnow, F32.mul_unit hS (F32.one_sub_unit (elapsedFraction_inUnit hnow hR hlt)), hgate⟩
  · exact ⟨hnow, posZero_inUnit, hgate⟩

/-! ## Sample and note commands on a voice -/

theorem voiceNext_paramSet (C : Config) (v : Voice) : (voiceNext C v).1.paramSet = v.paramSet := by
  cases h : C.shortCircuit && released v with
  | true => rw [voiceNext_released h]
  | false =>
    obtain ⟨hA, hD, hS, hR, -, -⟩ := envNext_frame C.sr v.env
    rw [voiceNext_chain h]
    simp only [Voice.paramSet, addNext_harm, fmNext_op, fltProcess_cutoff, fltProcess_q, hA, hD, hS, hR]

theorem voiceNext_legal (C : Config) {v : Voice} (hrate : LegalRate C.sr) (h : LegalVoice C.sr v) :
    LegalVoice C.sr (voiceNext C v).1 := by
  cases hshort : C.shortCircuit && released v with
  | true => rwa [voiceNext_released hshort]
  | false =>
    have hparams := voiceNext_paramSet C v
    obtain ⟨hlegal, hvel, hadd, hfm, henv, hactive⟩ := h
    have ⟨_, _, _, hS, htimes, _, _⟩ := hlegal
    obtain ⟨-, -, -, -, hgate, -⟩ := envNext_frame C.sr v.env
    refine ⟨hparams ▸ hlegal, ?_⟩
    rw [voiceNext_chain hshort]
    refine ⟨hvel, ?_, fmNext_legal C hfm, envNext_legal hrate hS htimes henv, hactive.trans hgate.symm⟩
    dsimp only
    rw [fmNext_base]
    exact addNext_legal C hadd

theorem voiceNoteOff_legal {sr : F32} {v : Voice} (h : LegalVoice sr v) : LegalVoice sr (voiceNoteOff v) := by
  obtain ⟨hlegal, hvel, hadd, hfm, ⟨-, hvalue, -⟩, -⟩ := h
  exact ⟨(voiceNoteOff_paramSet v).symm ▸ hlegal, hvel, hadd, hfm, ⟨F32.posZero_le_posZero, hvalue, rfl⟩, rfl⟩

/-- What NOTE_ON needs of the voice it triggers. A new voice has it and is not yet legal: its FM frequencies are not
the products with the base +0.0 when a ratio is negative. -/
structure Triggerable (sr : F32) (v : Voice) : Prop where
  params : LegalParamSet sr v.paramSet
  mult : ∀ i : Fin nHarm, (v.add.harm[i]).mult = F32.ofInt (i.val + 1)
  addPhase : ∀ i : Fin nHarm, PhaseOk (v.add.osc[i]).phase
  fmAmp : ∀ i : Fin nOp, (v.fm.osc[i]).amp = F32.one
  fmPhase : ∀ i : Fin nOp, PhaseOk (v.fm.osc[i]).phase
  value : InUnit v.env.value

theorem LegalVoice.triggerable {sr : F32} {v : Voice} (h : LegalVoice sr v) : Triggerable sr v := by
  obtain ⟨hlegal, -, hadd, hfm, ⟨-, hvalue, -⟩, -⟩ := h
  exact ⟨hlegal, fun i => (hadd i).1, fun i => (hadd i).2.2.2, fun i => (hfm i).1, fun i => (hfm i).2.2, hvalue⟩

theorem newVoice_triggerable {sr : F32} {P : VoiceParams} (h : LegalParamSet sr P) : Triggerable sr (newVoice P) where
  params := (newVoice_paramSet P).symm ▸ h
  mult i := by simp [newVoice, newAdditive]
  addPhase i := by simpa [newVoice, newAdditive] using posZero_phaseOk
  fmAmp i := by simp [newVoice, newFm]
  fmPhase i := by simpa [newVoice, newFm] using posZero_phaseOk
  value := posZero_inUnit

/-- NOTE_ON writes every derived field anew (46_voice.md R222, 41_additive.md R121, 42_fm.md R141). -/
theorem Triggerable.voiceNoteOn_legal {sr : F32} {v : Voice} (h : Triggerable sr v) (C : Config) (n : Fin nSlot)
    {vel : F32} (hvel : vel ≠ .nan) : LegalVoice sr (voiceNoteOn C v n vel) := by
  refine ⟨(voiceNoteOn_paramSet C v n vel).symm ▸ h.params, clampUnit_inUnit hvel, fun i => ?_, fun i => ?_,
    ⟨F32.posZero_le_posZero, h.value, rfl⟩, rfl⟩
  · simp only [voiceNoteOn, blSetFreq, Fin.getElem_fin, addSetBase_harm, addSetBase_osc, fmSetBase_base]
    exact ⟨h.mult i, rfl, congrArg _ (h.mult i), h.addPhase i⟩
  · simp only [voiceNoteOn, blSetFreq, Fin.getElem_fin, fmSetBase_osc, fmSetBase_base, fmSetBase_op, true_and]
    exact ⟨h.fmAmp i, h.fmPhase i⟩

/-! ## Setters -/

theorem modifyEntry_forall {α : Type} {k : Nat} {q : α → Prop} {v : Vector α k} (i : BitVec 8) {f : α → α}
    (hf : ∀ x, q x → q (f x)) (h : ∀ j : Fin k, q v[j]) (j : Fin k) : q (modifyEntry v i f)[j] := by
  rw [Fin.getElem_fin, modifyEntry_getElem]
  split
  · exact hf _ (h j)
  · exact h j

/-- Every setting of an operator is a finite value (10_state.md R35). -/
def OperatorFinite (o : Operator) : Prop :=
  o.ratio.isFinite = true ∧ o.amp.isFinite = true ∧ o.fbk.isFinite = true

theorem legalParamSet_modifyHarm {sr : F32} {P : VoiceParams} (j : BitVec 8) {g : HarmParam → HarmParam}
    (hg : ∀ x, x.amp.isFinite = true → (g x).amp.isFinite = true) (h : LegalParamSet sr P) :
    LegalParamSet sr { P with harm := modifyEntry P.harm j g } := by
  obtain ⟨hblend, hcut, hq, hS, htimes, hharm, hop⟩ := h
  exact ⟨hblend, hcut, hq, hS, htimes,
    modifyEntry_forall (q := fun x : HarmParam => x.amp.isFinite = true) j hg hharm, hop⟩

theorem legalParamSet_modifyOp {sr : F32} {P : VoiceParams} (j : BitVec 8) {g : Operator → Operator}
    (hg : ∀ x, OperatorFinite x → OperatorFinite (g x)) (h : LegalParamSet sr P) :
    LegalParamSet sr { P with op := modifyEntry P.op j g } := by
  obtain ⟨hblend, hcut, hq, hS, htimes, hharm, hop⟩ := h
  exact ⟨hblend, hcut, hq, hS, htimes, hharm, modifyEntry_forall (q := OperatorFinite) j hg hop⟩

/-- The column "legal after write" of 10_state.md R35: every setter stores a clamped or a finite value. -/
theorem tmplEdit_legal {sr : F32} {P : VoiceParams} (hrate : LegalRate sr) {i : Instr} (hi : i.wellFormed = true)
    (h : LegalParamSet sr P) : LegalParamSet sr (tmplEdit sr i P) := by
  have ⟨hblend, hcut, hq, hS, ⟨hA, hD, hR⟩, hrest⟩ := h
  cases i with
  | setBlend x => exact ⟨clampUnit_inUnit (F32.ne_nan_of_isFinite hi), hcut, hq, hS, ⟨hA, hD, hR⟩, hrest⟩
  | setCutoff x =>
    exact ⟨hblend, hrate.clampCutoff_inRange (F32.ne_nan_of_isFinite hi), hq, hS, ⟨hA, hD, hR⟩, hrest⟩
  | setResonance x => exact ⟨hblend, hcut, clampUnit_inUnit (F32.ne_nan_of_isFinite hi), hS, ⟨hA, hD, hR⟩, hrest⟩
  | setSustain x => exact ⟨hblend, hcut, hq, clampUnit_inUnit (F32.ne_nan_of_isFinite hi), ⟨hA, hD, hR⟩, hrest⟩
  | setAttack x => exact ⟨hblend, hcut, hq, hS, ⟨hi, hD, hR⟩, hrest⟩
  | setDecay x => exact ⟨hblend, hcut, hq, hS, ⟨hA, hi, hR⟩, hrest⟩
  | setRelease x => exact ⟨hblend, hcut, hq, hS, ⟨hA, hD, hi⟩, hrest⟩
  | setHarmAmp j a => exact legalParamSet_modifyHarm j (fun _ _ => hi) h
  | toggleHarm j => exact legalParamSet_modifyHarm j (fun _ hx => hx) h
  | setOpRatio j r => exact legalParamSet_modifyOp j (fun _ hx => ⟨hi, hx.2⟩) h
  | setOpAmp j a => exact legalParamSet_modifyOp j (fun _ ⟨hratio, _, hfbk⟩ => ⟨hratio, hi, hfbk⟩) h
  | setOpFeedback j fb => exact legalParamSet_modifyOp j (fun _ ⟨hratio, hamp, _⟩ => ⟨hratio, hamp, hi⟩) h
  | toggleOp j => exact legalParamSet_modifyOp j (fun _ hx => hx) h
  | noteOn | noteOff | sample | queryPlaying | setVolume => exact h

/-- A setter leaves velocity, base frequency, the envelope's running fields and the active flag as they are. -/
theorem voiceEdit_frame (sr : F32) (i : Instr) (v : Voice) :
    (voiceEdit sr i v).velocity = v.velocity ∧ (voiceEdit sr i v).active = v.active ∧
    (voiceEdit sr i v).fm.base = v.fm.base ∧ (voiceEdit sr i v).env.stage = v.env.stage ∧
    (voiceEdit sr i v).env.elapsed = v.env.elapsed ∧ (voiceEdit sr i v).env.value = v.env.value ∧
    (voiceEdit sr i v).env.gate = v.env.gate := by
  cases i <;> exact ⟨rfl, rfl, rfl, rfl, rfl, rfl, rfl⟩

theorem voiceEdit_additive_legal (sr : F32) (i : Instr) {base : F32} {v : Voice} (h : LegalAdditive base v.add) :
    LegalAdditive base (voiceEdit sr i v).add := by
  cases i with
  | setHarmAmp j a => exact addModifyHarm_legal j (fun _ => rfl) h
  | toggleHarm j => exact addModifyHarm_legal j (fun _ => rfl) h
  | _ => exact h

theorem voiceEdit_fm_legal (sr : F32) (i : Instr) {v : Voice} (h : LegalFm v.fm) : LegalFm (voiceEdit sr i v).fm := by
  cases i with
  | setOpRatio j r => exact fmSetOpRatio_legal j r h
  | setOpAmp j a => exact modifyOp_legal j (fun _ => rfl) h
  | setOpFeedback j fb => exact modifyOp_legal j (fun _ => rfl) h
  | toggleOp j => exact modifyOp_legal j (fun _ => rfl) h
  | _ => exact h

theorem voiceEdit_legal {sr : F32} {v : Voice} (hrate : LegalRate sr) {i : Instr} (hi : i.wellFormed = true)
    (h : LegalVoice sr v) : LegalVoice sr (voiceEdit sr i v) := by
  obtain ⟨hlegal, hvel, hadd, hfm, henv, hactive⟩ := h
  obtain ⟨evel, eactive, ebase, estage, eelapsed, evalue, egate⟩ := voiceEdit_frame sr i v
  refine ⟨(voiceEdit_paramSet sr i v).symm ▸ tmplEdit_legal hrate hi hlegal, evel.symm ▸ hvel,
    ebase.symm ▸ voiceEdit_additive_legal sr i hadd, voiceEdit_fm_legal sr i hfm, ?_,
    eactive.trans (hactive.trans egate.symm)⟩
  rw [LegalEnv, estage, eelapsed, evalue, egate]
  exact henv

end Sys2Proof.Machine
end

section
/-! Every step keeps the invariant of the block. -/

namespace Sys2Proof

theorem Opcode.build_wellFormed (o : Opcode) (idx : BitVec 8) (x : F32) :
    (o.build idx x).wellFormed = (!o.usesVal || x.isFinite) := by
  cases o <;> rfl

/-- A transfer that decodes gives a well-formed command: a used VAL is finite (30_encoding.md R73, R76). -/
theorem decodeTransfer_wellFormed {t : Transfer} {i : Instr} (h : decodeTransfer t = .ok i) : i.wellFormed = true := by
  unfold decodeTransfer at h
  split at h
  · cases h
  split at h
  · obtain ⟨o, -, -, -, -, -, -, hval, rfl⟩ := decodeWord_ok h
    rw [Opcode.build_wellFormed]
    cases hu : o.usesVal with
    | false => rfl
    | true => exact hval hu
  · cases h

end Sys2Proof

namespace Sys2Proof.Machine

theorem startParams_legal {p : Params} {P : VoiceParams} (hp : legalParams p = true) (hP : LegalParamSet p.sr P) :
    LegalParamSet p.sr (startParams p P) := by
  unfold startParams
  cases p.newVoiceInit with
  | defaults => exact defaultVoiceParams_legal hp
  | current => exact hP

theorem tmplAfter_legal {p : Params} {P : VoiceParams} {i : Instr} (hp : legalParams p = true)
    (hi : i.wellFormed = true) (hP : LegalParamSet p.sr P) : LegalParamSet p.sr (tmplAfter p P i) := by
  unfold tmplAfter
  cases p.newVoiceInit with
  | defaults => exact hP
  | current => exact tmplEdit_legal (legalParams_rate hp) hi hP

/-- A slot whose voice, if it has one, is legal stays so through every command. -/
theorem slotAfter_legal {p : Params} {P : VoiceParams} {n : Fin nSlot} {slot : Option Voice} {i : Instr}
    (hp : legalParams p = true) (hi : i.wellFormed = true) (hP : LegalParamSet p.sr P)
    (hslot : ∀ v ∈ slot, LegalVoice p.sr v) : ∀ w ∈ slotAfter p P n slot i, LegalVoice p.sr w := by
  cases i with
  | noteOn note vel =>
    rw [slotAfter]
    split
    · rintro w ⟨⟩
      have htrig : Triggerable p.sr (slot.getD (newVoice (startParams p P))) := by
        cases slot with
        | none => exact newVoice_triggerable (startParams_legal hp hP)
        | some v => exact (hslot v rfl).triggerable
      exact htrig.voiceNoteOn_legal _ _ (F32.ne_nan_of_isFinite hi)
    · exact hslot
  | noteOff note =>
    rw [slotAfter]
    split
    · exact Option.forall_mem_map.2 fun v hv => voiceNoteOff_legal (hslot v hv)
    · exact hslot
  | sample => exact Option.forall_mem_map.2 fun v hv => voiceNext_legal (configOf p) (legalParams_rate hp) (hslot v hv)
  | _ => exact Option.forall_mem_map.2 fun v hv => voiceEdit_legal (legalParams_rate hp) hi (hslot v hv)

/-- A well-formed command keeps the invariant. -/
theorem exec_inv {i : Instr} {s t : State} (hi : i.wellFormed = true) (hs : s.Inv) (h : exec i s = .next t) : t.Inv := by
  obtain ⟨hp, hvol, htmpl, hslots⟩ := hs
  have htmpl := (voiceParams_legal_iff _ _).1 htmpl
  rw [State.Inv, exec_params h]
  refine ⟨hp, ?_, ?_, fun n w hw => ?_⟩
  · rcases exec_volume h with e | ⟨x, rfl, e⟩
    · exact e.symm ▸ hvol
    · exact e.symm ▸ clampUnit_inUnit (F32.ne_nan_of_isFinite hi)
  · rw [voiceParams_legal_iff, exec_tmpl h]
    exact tmplAfter_legal hp hi htmpl
  · rw [exec_slot h n] at hw
    exact (voice_legal_iff _ _).2
      (slotAfter_legal hp hi htmpl (fun v hv => (voice_legal_iff _ _).1 (hslots n v hv)) w hw)

/-- Settles O57, slot by slot: a step runs one well-formed command, and each of its operations keeps a voice legal. -/
theorem everyStepKeepsTheInvariant : Obligations.EveryStepKeepsTheInvariant := by
  intro s t hs h
  rcases step_cases h with ⟨-, rfl⟩ | ⟨tr, rest, i, -, hd, he⟩
  · exact hs
  · exact exec_inv (s := { s with pending := rest }) (decodeTransfer_wellFormed hd) hs he

end Sys2Proof.Machine
end

section
/-! The transfers of the command port (20_memory.md R52-R58): the word of a command decodes to the command, a step runs
it, and a stream of commands is applied in order. -/

namespace Sys2Proof

/-! ## The fields of a command word (30_encoding.md R71) -/

theorem opcField_append (a b : BitVec 8) (c : BitVec 16) (d : Word32) : opcField (a ++ (b ++ (c ++ d))) = a :=
  BitVec.extractLsb'_append_eq_left (w := 8) (w' := 56)

theorem idxField_append (a b : BitVec 8) (c : BitVec 16) (d : Word32) : idxField (a ++ (b ++ (c ++ d))) = b :=
  (BitVec.extractLsb'_append_eq_of_add_le (v := 8) (w := 56) (by decide)).trans
    (BitVec.extractLsb'_append_eq_left (w := 8) (w' := 48))

theorem rsvField_append (a b : BitVec 8) (c : BitVec 16) (d : Word32) : rsvField (a ++ (b ++ (c ++ d))) = c :=
  (BitVec.extractLsb'_append_eq_of_add_le (v := 8) (w := 56) (by decide)).trans <|
    (BitVec.extractLsb'_append_eq_of_add_le (v := 8) (w := 48) (by decide)).trans
      (BitVec.extractLsb'_append_eq_left (w := 16) (w' := 32))

theorem valField_append (a b : BitVec 8) (c : BitVec 16) (d : Word32) : valField (a ++ (b ++ (c ++ d))) = d :=
  (BitVec.extractLsb'_append_eq_of_add_le (v := 8) (w := 56) (by decide)).trans <|
    (BitVec.extractLsb'_append_eq_of_add_le (v := 8) (w := 48) (by decide)).trans
      (BitVec.extractLsb'_append_eq_right (w := 16) (w' := 32))

/-! ## Decoding -/

/-- A word of the command port that passes every check of 30_encoding.md R76 gives the command of its fields. -/
theorem decodeWord_of_checks {w : Word64} {o : Opcode} (hopc : opcField w = o.code) (hrsv : rsvField w = 0)
    (hnone : o.idxUse = .none → idxField w = 0) (hnote : o.idxUse = .note → (idxField w).msb = false)
    (hunused : o.usesVal = false → valField w = 0)
    (hval : o.usesVal = true → (F32.ofBits (valField w)).isFinite = true) :
    decodeWord .command w = .ok (o.build (idxField w) (F32.ofBits (valField w))) := by
  have hport : ¬ (Port.command = .sample ∧ opcField w ≠ Opcode.sample.code) := fun h => nomatch h.1
  rw [decodeWord, if_neg hport, hopc, Opcode.ofCode_code]
  dsimp only
  rw [if_neg (not_not.2 hrsv), if_neg fun h => h.2 (hnone h.1), if_neg fun h => by simp [hnote h.1] at h,
    if_neg fun h => h.2 (hunused h.1), if_neg fun h => by simp [hval h.1] at h]

theorem Instr.idx_of_none {i : Instr} (h : i.opcode.idxUse = .none) : i.idx = 0 := by
  cases i with
  | noteOn | noteOff | setHarmAmp | toggleHarm | setOpRatio | setOpAmp | setOpFeedback | toggleOp => cases h
  | _ => rfl

/-- A note leaves bit 7 of IDX zero (30_encoding.md R72). -/
theorem Instr.idx_msb_of_note {i : Instr} (h : i.opcode.idxUse = .note) : i.idx.msb = false := by
  cases i with
  | noteOn n | noteOff n => exact BitVec.msb_append (x := 0#1) (y := n)
  | _ => cases h

/-- VAL is used exactly by the commands with a value operand (30_encoding.md R73). -/
theorem Instr.usesVal_opcode (i : Instr) : i.opcode.usesVal = i.value?.isSome := by cases i <;> rfl

theorem Instr.val_of_value {i : Instr} {x : F32} (h : i.value? = some x) : i.val = x.toBits 0 := by rw [val, h]

theorem Instr.val_of_not_usesVal {i : Instr} (h : i.opcode.usesVal = false) : i.val = 0 := by
  rw [Instr.usesVal_opcode, Option.isSome_eq_false_iff, Option.isNone_iff_eq_none] at h
  rw [val, h]

/-- The value read back from VAL is the command's own, so it is finite. -/
theorem Instr.isFinite_ofBits_val {i : Instr} (hi : i.wellFormed = true) (h : i.opcode.usesVal = true) :
    (F32.ofBits i.val).isFinite = true := by
  rw [Instr.usesVal_opcode, Option.isSome_iff_exists] at h
  obtain ⟨x, hx⟩ := h
  rw [Instr.val_of_value hx, F32.ofBits_toBits]
  simpa only [wellFormed, hx] using hi

/-- The note under a zero bit, read back. -/
theorem extractLsb'_note (n : BitVec 7) : (0#1 ++ n : BitVec 8).extractLsb' 0 7 = n :=
  BitVec.extractLsb'_append_eq_right (w := 1) (w' := 7)

/-- A command is built anew from its row and its two fields. -/
theorem Instr.build_fields (i : Instr) : i.opcode.build i.idx (F32.ofBits i.val) = i := by
  cases i <;> simp [opcode, idx, val, value?, Opcode.build, F32.ofBits_toBits, extractLsb'_note]

theorem decodeWord_encode {i : Instr} (hi : i.wellFormed = true) : decodeWord .command (encode i) = .ok i := by
  have hidx : idxField (encode i) = i.idx := idxField_append _ _ _ _
  have hval : valField (encode i) = i.val := valField_append _ _ _ _
  have hopc : opcField (encode i) = i.opcode.code := opcField_append _ _ _ _
  have hrsv : rsvField (encode i) = 0 := rsvField_append _ _ _ _
  rw [decodeWord_of_checks hopc hrsv, hidx, hval, i.build_fields]
  · exact fun h => hidx.trans (Instr.idx_of_none h)
  · exact fun h => (congrArg BitVec.msb hidx).trans (Instr.idx_msb_of_note h)
  · exact fun h => hval.trans (Instr.val_of_not_usesVal h)
  · rw [hval]
    exact Instr.isFinite_ofBits_val hi

/-- A well-formed command sent whole and in time arrives as itself. -/
theorem decodeTransfer_encode {i : Instr} (hi : i.wellFormed = true) :
    decodeTransfer (wordTransfer .command (encode i)) = .ok i :=
  (decodeTransfer_wordTransfer _ _).trans (decodeWord_encode hi)

/-- What makes a transfer no transaction (20_memory.md R53, 70_reset_and_hazards.md R336; log 5, log 6). -/
theorem decodeTransfer_hostProtocol {t : Transfer} (h : t.bytes.length ≠ 8 ∨ t.overlaps = true) :
    decodeTransfer t = .error .hostProtocol := by
  unfold decodeTransfer
  split
  · rfl
  · rename_i htimely
    split
    · rename_i hbytes
      rw [hbytes] at h
      exact absurd h (by simpa using htimely)
    · rfl

/-- A word is its own table word of 64 bits. -/
theorem tableWord_toNat (w : Word64) : tableWord 64 w.toNat = w := by
  rw [tableWord, Nat.mod_eq_of_lt w.isLt, BitVec.ofNat_toNat, BitVec.setWidth_eq]

end Sys2Proof

namespace Sys2Proof.Machine

/-! ## One step -/

/-- A step with a transfer that decodes is its command, on the state without the transfer. -/
theorem step_of_decodeTransfer {s : State} {t : Transfer} {rest : List Transfer} {i : Instr}
    (h : s.pending = t :: rest) (hd : decodeTransfer t = .ok i) : step s = exec i { s with pending := rest } := by
  unfold step
  rw [h]
  simp only [hd]

/-- No command fails (60_exceptions.md R300). -/
theorem exec_completes (i : Instr) (s : State) : ∃ t, exec i s = .next t := by
  cases i with
  | noteOff note =>
    cases h : s.slots[noteSlot note] with
    | none => exact ⟨s, execNoteOff_none h⟩
    | some v => exact ⟨_, execNoteOff_some h⟩
  | _ => exact ⟨_, rfl⟩

/-- A command neither reads nor writes what is still pending. -/
theorem exec_withPending {i : Instr} {s t : State} (h : exec i s = .next t) (p : List Transfer) :
    exec i { s with pending := p } = .next { t with pending := p } := by
  rcases exec_cases h with ⟨note, vel, rfl, rfl⟩ | ⟨note, v, rfl, hv, rfl⟩ | ⟨note, rfl, hv, rfl⟩ | ⟨rfl, rfl⟩ |
    ⟨rfl, rfl⟩ | ⟨x, rfl, rfl⟩ | ⟨hb, rfl⟩
  · rfl
  · exact execNoteOff_some hv
  · exact execNoteOff_none hv
  · rfl
  · rfl
  · rfl
  · exact exec_broadcast _ hb

/-! ## Responses -/

/-- SAMPLE is answered by the sample port, QUERY_PLAYING by the command port, and no other command is answered
(20_memory.md R51, 30_encoding.md R77; log 7). -/
theorem exec_responses {i : Instr} {s t : State} (h : exec i s = .next t) :
    (i = .sample ∧ ∃ w, t.responses = ⟨.sample, w⟩ :: s.responses) ∨
    (i = .queryPlaying ∧ ∃ w, t.responses = ⟨.command, w⟩ :: s.responses) ∨
    (i ≠ .sample ∧ i ≠ .queryPlaying ∧ t.responses = s.responses) := by
  rcases exec_cases h with ⟨note, vel, rfl, rfl⟩ | ⟨note, v, rfl, hv, rfl⟩ | ⟨note, rfl, hv, rfl⟩ | ⟨rfl, rfl⟩ |
    ⟨rfl, rfl⟩ | ⟨x, rfl, rfl⟩ | ⟨hb, rfl⟩
  · exact .inr (.inr ⟨nofun, nofun, rfl⟩)
  · exact .inr (.inr ⟨nofun, nofun, rfl⟩)
  · exact .inr (.inr ⟨nofun, nofun, rfl⟩)
  · exact .inl ⟨rfl, _, rfl⟩
  · exact .inr (.inl ⟨rfl, _, rfl⟩)
  · exact .inr (.inr ⟨nofun, nofun, rfl⟩)
  · exact .inr (.inr ⟨(by rintro rfl; cases hb), (by rintro rfl; cases hb), rfl⟩)

/-! ## Streams -/

/-- What the host sends for a list of commands. -/
def sent (is : List Instr) : List Transfer := is.map fun i => wordTransfer .command (encode i)

/-- A stream of well-formed commands is run to its end, one step each. -/
theorem run_sent (is : List Instr) (s : State) (his : ∀ i ∈ is, i.wellFormed = true) :
    ∃ t, core.run is.length { s with pending := sent is } = .next t ∧ t.pending = [] ∧
      Applied is { s with pending := [] } t := by
  induction is generalizing s with
  | nil => exact ⟨_, rfl, rfl, rfl⟩
  | cons i is ih =>
    obtain ⟨hi, his⟩ := List.forall_mem_cons.1 his
    obtain ⟨u, hu⟩ := exec_completes i s
    have hstep : step { s with pending := sent (i :: is) } = .next { u with pending := sent is } :=
      (step_of_decodeTransfer rfl (decodeTransfer_encode hi)).trans (exec_withPending hu _)
    obtain ⟨t, hrun, hpending, happlied⟩ := ih u his
    exact ⟨t, (core_run_succ _ hstep).trans hrun, hpending, _, exec_withPending hu [], happlied⟩

/-! ## The obligations -/

/-- Settles O8: no other transfer is decoded. -/
theorem partialOrOverlappingTransferIsRefused : Obligations.PartialOrOverlappingTransferIsRefused :=
  fun _ _ _ hp h => step_refused hp (decodeTransfer_hostProtocol h)

/-- Settles O12: the word pushed is decoded to its command, and taking it leaves the state it was pushed on. -/
theorem storedWordRunsNext : Obligations.StoredWordRunsNext := by
  intro s i hi
  rw [withFetchWord_eq, tableWord_toNat]
  exact step_of_decodeTransfer (pushWord_pending s _) (decodeTransfer_encode hi)

/-- Settles O14, by induction on the stream. -/
theorem streamIsAppliedInOrder : Obligations.StreamIsAppliedInOrder := run_sent

/-- Settles O17, from the one list of what a command can do. -/
theorem onlySampleAndQueryRespond : Obligations.OnlySampleAndQueryRespond := by
  intro i s t h
  rcases exec_responses h with ⟨rfl, hw⟩ | ⟨rfl, hw⟩ | ⟨hs, hq, hw⟩
  · exact ⟨fun _ => hw, nofun, fun hne => absurd rfl hne⟩
  · exact ⟨nofun, fun _ => hw, fun _ hne => absurd rfl hne⟩
  · exact ⟨fun e => absurd e hs, fun e => absurd e hq, fun _ _ => hw⟩

end Sys2Proof.Machine
end

section
/-! Setters and toggles issued twice in a row (20_memory.md R54). -/

namespace Sys2Proof.Machine

/-! ## Two changes of one entry -/

theorem oscSetAmp_oscSetAmp (o : Osc) (x y : F32) : oscSetAmp (oscSetAmp o x) y = oscSetAmp o y := rfl

/-- Two changes of one harmonic are one change: the amplitude is derived anew from the last. -/
theorem addModifyHarm_addModifyHarm (a : Additive) (i : BitVec 8) (f g : Harm → Harm) :
    addModifyHarm (addModifyHarm a i f) i g = addModifyHarm a i fun h => g (f h) := by
  rw [Additive.mk.injEq]
  constructor
  · simp only [addModifyHarm_harm, modifyEntry_modifyEntry]
  · ext j hj : 1
    simp only [addModifyHarm_osc, addModifyHarm_harm, modifyEntry_getElem]
    split <;> rfl

/-- A harmonic left as it is, with an amplitude that is already the derived one (41_additive.md R120). -/
theorem addModifyHarm_id {a : Additive} (i : BitVec 8) {f : Harm → Harm} (hf : ∀ h, f h = h)
    (ha : ∀ j : Fin nHarm, (a.osc[j]).amp = harmAmp a.harm[j]) : addModifyHarm a i f = a := by
  rw [Additive.mk.injEq]
  constructor
  · rw [addModifyHarm_harm, modifyEntry_id _ _ _ hf]
  · ext j hj : 1
    have hj : harmAmp a.harm[j] = (a.osc[j]).amp := (ha ⟨j, hj⟩).symm
    rw [addModifyHarm_osc, hf, hj]
    exact ite_self _

/-! ## Two broadcasts -/

theorem broadcast_broadcast (f f' : Voice → Voice) (g g' : VoiceParams → VoiceParams) (s : State) :
    broadcast f' g' (broadcast f g s) = broadcast (fun v => f' (f v)) (fun P => g' (g P)) s := by
  unfold broadcast
  rw [mapVoices_mapVoices]
  cases s.params.newVoiceInit <;> rfl

/-- A broadcast that changes no allocated voice and not the template. -/
theorem broadcast_id {f : Voice → Voice} {g : VoiceParams → VoiceParams} {s : State}
    (hf : ∀ n : Fin nSlot, ∀ v, s.slots[n] = some v → f v = v) (hg : ∀ P, g P = P) : broadcast f g s = s := by
  unfold broadcast
  rw [mapVoices_congr hf, mapVoices_id, hg]
  cases s.params.newVoiceInit <;> rfl

/-- A broadcasting command issued twice applies its two edits twice. -/
theorem exec_broadcast_twice {i : Instr} {s t : State} (hb : broadcasts i = true) (h : exec i s = .next t) :
    exec i t = .next (broadcast (fun v => voiceEdit s.params.sr i (voiceEdit s.params.sr i v))
      (fun P => tmplEdit s.params.sr i (tmplEdit s.params.sr i P)) s) := by
  rw [exec_broadcast s hb] at h
  cases h
  rw [exec_broadcast _ hb, broadcast_params, broadcast_broadcast]

/-! ## Storing setters -/

/-- The two commands that negate a bit instead of storing a value (20_memory.md R54). -/
def toggles : Instr → Bool
  | .toggleHarm _ => true
  | .toggleOp _ => true
  | _ => false

theorem voiceEdit_voiceEdit {i : Instr} (sr : F32) (v : Voice) (h : toggles i = false) :
    voiceEdit sr i (voiceEdit sr i v) = voiceEdit sr i v := by
  cases i with
  | toggleHarm | toggleOp => cases h
  | setHarmAmp j a => simp only [voiceEdit, addSetHarmAmp, addModifyHarm_addModifyHarm]
  | setOpRatio j r => simp only [voiceEdit, fmSetOpRatio, modifyEntry_modifyEntry, oscSetFreq]
  | setOpAmp j a => simp only [voiceEdit, fmSetOpAmp, modifyEntry_modifyEntry]
  | setOpFeedback j fb => simp only [voiceEdit, fmSetOpFeedback, modifyEntry_modifyEntry]
  | _ => rfl

theorem tmplEdit_tmplEdit {i : Instr} (sr : F32) (P : VoiceParams) (h : toggles i = false) :
    tmplEdit sr i (tmplEdit sr i P) = tmplEdit sr i P := by
  cases i with
  | toggleHarm | toggleOp => cases h
  | setHarmAmp j a => simp only [tmplEdit, tmplSetHarmAmp, modifyEntry_modifyEntry]
  | setOpRatio j r => simp only [tmplEdit, tmplSetOpRatio, modifyEntry_modifyEntry]
  | setOpAmp j a => simp only [tmplEdit, tmplSetOpAmp, modifyEntry_modifyEntry]
  | setOpFeedback j fb => simp only [tmplEdit, tmplSetOpFeedback, modifyEntry_modifyEntry]
  | _ => rfl

/-- A broadcast that stores a value stores the same value again. -/
theorem exec_storing_twice {i : Instr} {s t : State} (hb : broadcasts i = true) (hi : toggles i = false)
    (h : exec i s = .next t) : exec i t = .next t := by
  have htwice := exec_broadcast_twice hb h
  simp only [voiceEdit_voiceEdit _ _ hi, tmplEdit_tmplEdit _ _ hi] at htwice
  rw [htwice, ← h, exec_broadcast s hb]

/-! ## Toggles -/

/-- Two negations of an enable bit restore a voice whose amplitudes are the derived ones. -/
theorem voiceEdit_toggles_twice {i : Instr} (sr : F32) {v : Voice} (hi : toggles i = true)
    (hv : ∀ j : Fin nHarm, (v.add.osc[j]).amp = harmAmp v.add.harm[j]) :
    voiceEdit sr i (voiceEdit sr i v) = v := by
  cases i with
  | toggleHarm j =>
    simp only [voiceEdit, addToggleHarm, addModifyHarm_addModifyHarm, Bool.not_not]
    rw [addModifyHarm_id j (fun _ => rfl) hv]
  | toggleOp j =>
    simp only [voiceEdit, fmToggleOp, modifyEntry_modifyEntry, Bool.not_not]
    rw [modifyEntry_id _ _ _ fun _ => rfl]
  | _ => cases hi

theorem tmplEdit_toggles_twice {i : Instr} (sr : F32) (P : VoiceParams) (hi : toggles i = true) :
    tmplEdit sr i (tmplEdit sr i P) = P := by
  cases i with
  | toggleHarm j =>
    simp only [tmplEdit, tmplToggleHarm, modifyEntry_modifyEntry, Bool.not_not]
    rw [modifyEntry_id _ _ _ fun _ => rfl]
  | toggleOp j =>
    simp only [tmplEdit, tmplToggleOp, modifyEntry_modifyEntry, Bool.not_not]
    rw [modifyEntry_id _ _ _ fun _ => rfl]
  | _ => cases hi

theorem broadcasts_of_toggles {i : Instr} (h : toggles i = true) : broadcasts i = true := by
  cases i with
  | toggleHarm | toggleOp => rfl
  | _ => cases h

/-- In the invariant the oscillator amplitudes are the derived ones (41_additive.md R120). -/
theorem State.Inv.osc_amp {s : State} (hs : s.Inv) {n : Fin nSlot} {v : Voice} (hv : s.slots[n] = some v)
    (j : Fin nHarm) : (v.add.osc[j]).amp = harmAmp v.add.harm[j] := by
  obtain ⟨-, -, -, hslots⟩ := hs
  obtain ⟨-, -, hadd, -⟩ := (voice_legal_iff _ _).1 (hslots n v hv)
  obtain ⟨-, hamp, -⟩ := hadd j
  exact hamp

theorem exec_toggles_twice {i : Instr} {s t : State} (hs : s.Inv) (hi : toggles i = true) (h : exec i s = .next t) :
    exec i t = .next s := by
  rw [exec_broadcast_twice (broadcasts_of_toggles hi) h]
  exact congrArg _ (broadcast_id (fun _ _ hv => voiceEdit_toggles_twice _ hi (hs.osc_amp hv))
    fun P => tmplEdit_toggles_twice _ P hi)

/-! ## The obligations -/

/-- Settles O36: SET_VOLUME stores one value, and the other eleven are broadcasts that store. -/
theorem storingSettersAreIdempotent : Obligations.StoringSettersAreIdempotent := by
  intro x j s t i hi h
  rcases List.mem_cons.1 hi with rfl | hi
  · cases h
    rfl
  · have hkind := (List.all_eq_true (p := fun i => broadcasts i && !toggles i)).1 rfl i hi
    rw [Bool.and_eq_true, Bool.not_eq_true'] at hkind
    obtain ⟨hbroadcasts, hstores⟩ := hkind
    exact exec_storing_twice hbroadcasts hstores h

/-- Settles O37: a bit negated twice is the bit, and the amplitude derived from it is the one the invariant says. -/
theorem togglesInARowCancel : Obligations.TogglesInARowCancel := by
  intro j s t i hs hi
  exact exec_toggles_twice hs ((List.all_eq_true (p := toggles)).1 rfl i hi)

end Sys2Proof.Machine
end

section
/-! What a word of a row of table R74 is (30_encoding.md R71-R76), said once: the decoder's checks, the masks of
spec/opcode_table.json and the reserved words of R75 are each compared with it. -/

namespace Sys2Proof

/-! ## The fields of a word (30_encoding.md R71) -/

/-- A word is made of its four fields. -/
theorem fields_append (w : Word64) : opcField w ++ (idxField w ++ (rsvField w ++ valField w)) = w := by
  have hlow : rsvField w ++ valField w = w.extractLsb' 0 48 :=
    BitVec.extractLsb'_append_extractLsb'_eq_extractLsb' rfl
  have hmid : idxField w ++ w.extractLsb' 0 48 = w.extractLsb' 0 56 :=
    BitVec.extractLsb'_append_extractLsb'_eq_extractLsb' rfl
  have hall : opcField w ++ w.extractLsb' 0 56 = w.extractLsb' 0 64 :=
    BitVec.extractLsb'_append_extractLsb'_eq_extractLsb' rfl
  rw [hlow, hmid, hall, BitVec.extractLsb'_eq_self]

/-- A word is the one with these four fields. -/
theorem eq_append_iff_fields (w : Word64) (a b : BitVec 8) (c : BitVec 16) (d : Word32) :
    w = a ++ (b ++ (c ++ d)) ↔ opcField w = a ∧ idxField w = b ∧ rsvField w = c ∧ valField w = d := by
  constructor
  · rintro rfl
    exact ⟨opcField_append a b c d, idxField_append a b c d, rsvField_append a b c d, valField_append a b c d⟩
  · rintro ⟨rfl, rfl, rfl, rfl⟩
    exact (fields_append w).symm

/-- Bits 30:23 of VAL are bits 30:23 of the word. -/
theorem valField_exponent (w : Word64) : (valField w).extractLsb' 23 8 = w.extractLsb' 23 8 := by
  ext i hi
  simp only [valField, BitVec.getElem_extractLsb', BitVec.getLsbD_extractLsb']
  simp [show 23 + i < 32 by omega]

/-- Bit 7 of IDX is bit 55 of the word. -/
theorem idxField_msb (w : Word64) : (idxField w).msb = true ↔ w.extractLsb' 55 1 = 1 := by
  have hmsb : (idxField w).msb = w.getLsbD 55 := by
    rw [BitVec.msb_eq_getLsbD_last, idxField, BitVec.getLsbD_extractLsb']
    rfl
  have hbit : w.extractLsb' 55 1 = BitVec.ofBool (w.getLsbD 55) := by
    ext i hi
    simp [show i = 0 by omega]
  rw [hmsb, hbit]
  cases w.getLsbD 55 <;> decide

/-- A bit pattern is finite unless its exponent field is all ones (30_encoding.md R73). -/
theorem F32.isFinite_ofBits (v : Word32) : (F32.ofBits v).isFinite = true ↔ v.extractLsb' 23 8 ≠ 0xFF#8 := by
  have hexp : (v.extractLsb' 23 8).toNat < 255 ↔ v.extractLsb' 23 8 ≠ 0xFF#8 := by
    have := (v.extractLsb' 23 8).isLt
    rw [ne_eq, ← BitVec.toNat_inj, BitVec.toNat_ofNat]
    omega
  rw [← hexp]
  simp only [F32.ofBits]
  split
  · simpa only [F32.isFinite, true_iff]
  · split <;> simpa only [F32.isFinite, Bool.false_eq_true, false_iff]

/-! ## The word of a row -/

/-- The word has the row's OPC and arrives on a port of the row, and what the row does not use is zero: the checks of
30_encoding.md R76 before the last. -/
structure Opcode.Fits (o : Opcode) (port : Port) (w : Word64) : Prop where
  code : opcField w = o.code
  port : port = .sample → o = .sample
  rsv : rsvField w = 0
  noIdx : o.idxUse = .none → idxField w = 0
  note : o.idxUse = .note → (idxField w).msb = false
  noVal : o.usesVal = false → valField w = 0

theorem Opcode.fits_iff {o : Opcode} {port : Port} {w : Word64} (h : opcField w = o.code) :
    o.Fits port w ↔ (port = .sample → o = .sample) ∧ rsvField w = 0 ∧ (o.idxUse = .none → idxField w = 0) ∧
      (o.idxUse = .note → (idxField w).msb = false) ∧ (o.usesVal = false → valField w = 0) :=
  ⟨fun ⟨_, hport, hrsv, hnoIdx, hnote, hnoVal⟩ => ⟨hport, hrsv, hnoIdx, hnote, hnoVal⟩,
    fun ⟨hport, hrsv, hnoIdx, hnote, hnoVal⟩ => ⟨h, hport, hrsv, hnoIdx, hnote, hnoVal⟩⟩

/-- A word that fits a row is left with the last check: a used VAL must be finite. -/
theorem decodeWord_of_fits {o : Opcode} {port : Port} {w : Word64} (h : o.Fits port w) :
    decodeWord port w =
      if o.usesVal = true ∧ (F32.ofBits (valField w)).isFinite = false then .error .nonFiniteOperand
      else .ok (o.build (idxField w) (F32.ofBits (valField w))) := by
  have hport : ¬ (port = .sample ∧ opcField w ≠ Opcode.sample.code) := fun ⟨hp, hne⟩ =>
    hne (h.code.trans (congrArg _ (h.port hp)))
  rw [decodeWord, if_neg hport, h.code, Opcode.ofCode_code]
  dsimp only
  rw [if_neg (not_not.2 h.rsv), if_neg fun e => e.2 (h.noIdx e.1), if_neg fun e => by simp [h.note e.1] at e,
    if_neg fun e => e.2 (h.noVal e.1)]

theorem Opcode.code_inj {o o' : Opcode} : o.code = o'.code ↔ o = o' := by
  refine ⟨fun h => Option.some.inj ?_, congrArg _⟩
  rw [← Opcode.ofCode_code, h, Opcode.ofCode_code]

/-- A word that fits no row is reserved. -/
theorem decodeWord_of_not_fits {port : Port} {w : Word64} (h : ∀ o : Opcode, ¬ o.Fits port w) :
    decodeWord port w = .error .reservedEncoding := by
  unfold decodeWord
  split
  · rfl
  rename_i hport
  split
  · rfl
  rename_i o ho
  have hcode : opcField w = o.code := (Opcode.code_of_ofCode ho).symm
  repeat (split; · rfl)
  rename_i hrsv hnoIdx hnote hnoVal
  rw [hcode, ne_eq, Opcode.code_inj] at hport
  have hfits : o.Fits port w := by
    simp only [not_and, not_not, Bool.not_eq_true] at hport hrsv hnoIdx hnote hnoVal
    exact ⟨hcode, hport, hrsv, hnoIdx, hnote, hnoVal⟩
  exact absurd hfits (h o)

/-- What decodes: the words that fit a row, with a finite VAL where the row uses it. -/
theorem decodeWord_eq_ok_iff {port : Port} {w : Word64} {i : Instr} :
    decodeWord port w = .ok i ↔
      ∃ o : Opcode, o.Fits port w ∧ (o.usesVal = true → (F32.ofBits (valField w)).isFinite = true) ∧
        i = o.build (idxField w) (F32.ofBits (valField w)) := by
  constructor
  · intro h
    obtain ⟨o, hcode, hport, hrsv, hnoIdx, hnote, hnoVal, hval, hi⟩ := decodeWord_ok h
    exact ⟨o, ⟨hcode.symm, hport, hrsv, hnoIdx, hnote, hnoVal⟩, hval, hi⟩
  · rintro ⟨o, hfits, hval, rfl⟩
    rw [decodeWord_of_fits hfits, if_neg fun e => by simp [hval e.1] at e]

/-- What is refused as reserved: the words that fit no row. -/
theorem decodeWord_eq_reservedEncoding_iff {port : Port} {w : Word64} :
    decodeWord port w = .error .reservedEncoding ↔ ∀ o : Opcode, ¬ o.Fits port w := by
  refine ⟨fun h o hfits => ?_, decodeWord_of_not_fits⟩
  rw [decodeWord_of_fits hfits] at h
  split at h <;> cases h

/-- What is refused for its operand: the words that fit a row but for a used VAL that is not finite. -/
theorem decodeWord_eq_nonFiniteOperand_iff {port : Port} {w : Word64} :
    decodeWord port w = .error .nonFiniteOperand ↔
      ∃ o : Opcode, o.Fits port w ∧ o.usesVal = true ∧ (F32.ofBits (valField w)).isFinite = false := by
  constructor
  · intro h
    by_cases hfits : ∃ o : Opcode, o.Fits port w
    · obtain ⟨o, hfits⟩ := hfits
      rw [decodeWord_of_fits hfits] at h
      split at h
      · exact ⟨o, hfits, ‹_›⟩
      · cases h
    · rw [decodeWord_of_not_fits (not_exists.1 hfits)] at h
      cases h
  · rintro ⟨o, hfits, hval⟩
    rw [decodeWord_of_fits hfits, if_pos hval]

end Sys2Proof
end

section
/-! The encoding of the commands (30_encoding.md): the encoder and the decoder are inverse, and the words that decode
are those of spec/opcode_table.json and not the reserved ones of R75. -/

namespace Sys2Proof

/-! ## The command of a row, encoded again -/

theorem Opcode.opcode_build (o : Opcode) (idx : BitVec 8) (x : F32) : (o.build idx x).opcode = o := by cases o <;> rfl

/-- A note is its own seven bits under the zero bit 7 (30_encoding.md R72). -/
theorem note_extractLsb' {b : BitVec 8} (h : b.msb = false) : 0#1 ++ b.extractLsb' 0 7 = b := by
  revert b
  decide

/-- IDX is read back from the command of a row, unless the row leaves bits of it unused. -/
theorem Opcode.idx_build {o : Opcode} {idx : BitVec 8} (x : F32) (hnone : o.idxUse = .none → idx = 0)
    (hnote : o.idxUse = .note → idx.msb = false) : (o.build idx x).idx = idx := by
  cases o with
  | noteOn | noteOff => exact note_extractLsb' (hnote rfl)
  | setHarmAmp | toggleHarm | setOpRatio | setOpAmp | setOpFeedback | toggleOp => rfl
  | _ => exact (hnone rfl).symm

theorem Opcode.value_build (o : Opcode) (idx : BitVec 8) (x : F32) :
    (o.build idx x).value? = if o.usesVal then some x else none := by cases o <;> rfl

/-- VAL is read back from the command of a row. -/
theorem Opcode.val_build {o : Opcode} (idx : BitVec 8) {v : Word32} (hnoVal : o.usesVal = false → v = 0)
    (hval : o.usesVal = true → (F32.ofBits v).isFinite = true) : (o.build idx (F32.ofBits v)).val = v := by
  cases hu : o.usesVal with
  | false => rw [Instr.val, Opcode.value_build, hu, hnoVal hu]; rfl
  | true =>
    have hx : (o.build idx (F32.ofBits v)).value? = some (F32.ofBits v) := by rw [Opcode.value_build, hu, if_pos rfl]
    rw [Instr.val_of_value hx, F32.toBits_ofBits _ (F32.ne_nan_of_isFinite (hval hu))]

/-- A word that decodes is the word of its command. -/
theorem encode_of_decodeWord {port : Port} {w : Word64} {i : Instr} (h : decodeWord port w = .ok i) : encode i = w := by
  obtain ⟨o, hfits, hval, rfl⟩ := decodeWord_eq_ok_iff.1 h
  rw [encode, o.opcode_build, Opcode.idx_build _ hfits.noIdx hfits.note, Opcode.val_build _ hfits.noVal hval,
    ← hfits.code]
  have hrsv : 0#16 = rsvField w := hfits.rsv.symm
  rw [hrsv, fields_append]

theorem decodeWord_wellFormed {port : Port} {w : Word64} {i : Instr} (h : decodeWord port w = .ok i) :
    i.wellFormed = true :=
  decodeTransfer_wellFormed ((decodeTransfer_wordTransfer port w).trans h)

end Sys2Proof

namespace Sys2Proof.Machine

/-! ## The rows of spec/opcode_table.json -/

/-- The bits of IDX a row fixes to zero (30_encoding.md R72). -/
def idxMask : IdxUse → BitVec 8
  | .none => 0xFF#8
  | .note => 0x80#8
  | .index => 0x00#8

/-- The bits of VAL a row fixes to zero (30_encoding.md R73). -/
def valMask (usesVal : Bool) : Word32 := if usesVal then 0#32 else BitVec.allOnes 32

/-- The row of an opcode. -/
def rowOf (o : Opcode) : TableRow where
  mask := 0xFF#8 ++ (idxMask o.idxUse ++ (0xFFFF#16 ++ valMask o.usesVal))
  pattern := o.code ++ (0#8 ++ (0#16 ++ 0#32))
  usesVal := o.usesVal

theorem usesVal_rowOf (o : Opcode) : (rowOf o).usesVal = o.usesVal := rfl

theorem tableRows_eq : tableRows = Opcode.all.map rowOf := by decide

theorem exists_mem_tableRows {p : TableRow → Prop} : (∃ row ∈ tableRows, p row) ↔ ∃ o, p (rowOf o) := by
  simp [tableRows_eq, Opcode.mem_all]

theorem and_idxMask (u : IdxUse) (b : BitVec 8) :
    b &&& idxMask u = 0 ↔ (u = .none → b = 0) ∧ (u = .note → b.msb = false) := by
  revert b
  cases u <;> decide

theorem and_valMask (u : Bool) (v : Word32) : v &&& valMask u = 0 ↔ (u = false → v = 0) := by
  cases u with
  | false => rw [valMask, if_neg Bool.false_ne_true, BitVec.and_allOnes, forall_prop_of_true rfl]
  | true => simp [valMask]

/-- A word under a mask given by fields. -/
theorem and_append_fields (w : Word64) (a b : BitVec 8) (c : BitVec 16) (d : Word32) :
    w &&& (a ++ (b ++ (c ++ d)) : BitVec (8 + (8 + (16 + 32)))) =
      (opcField w &&& a) ++ ((idxField w &&& b) ++ ((rsvField w &&& c) ++ (valField w &&& d))) := by
  conv_lhs => rw [← fields_append w]
  refine (BitVec.and_append (w := 8) (v := 56)).trans (congrArg (_ ++ ·) ?_)
  exact (BitVec.and_append (w := 8) (v := 48)).trans (congrArg (_ ++ ·) BitVec.and_append)

/-- A word of the command port matches the row of an opcode when it fits it. -/
theorem and_rowOf_mask (o : Opcode) (w : Word64) : w &&& (rowOf o).mask = (rowOf o).pattern ↔ o.Fits .command w := by
  have hopc : opcField w &&& 0xFF#8 = opcField w := BitVec.and_allOnes
  have hrsv : rsvField w &&& 0xFFFF#16 = rsvField w := BitVec.and_allOnes
  have hfields : w &&& (rowOf o).mask = (rowOf o).pattern ↔
      opcField w = o.code ∧ idxField w &&& idxMask o.idxUse = 0 ∧ rsvField w = 0 ∧
        valField w &&& valMask o.usesVal = 0 := by
    rw [rowOf, and_append_fields, eq_append_iff_fields, opcField_append, idxField_append, rsvField_append,
      valField_append, hopc, hrsv]
    rfl
  rw [hfields, and_idxMask, and_valMask]
  constructor
  · rintro ⟨hcode, ⟨hnoIdx, hnote⟩, hrsv, hnoVal⟩
    exact ⟨hcode, nofun, hrsv, hnoIdx, hnote, hnoVal⟩
  · rintro ⟨hcode, -, hrsv, hnoIdx, hnote, hnoVal⟩
    exact ⟨hcode, ⟨hnoIdx, hnote⟩, hrsv, hnoVal⟩

/-! ## The reserved words of 30_encoding.md R75 -/

/-- The opcodes of item 1 are those without a row. -/
theorem reservedOpc_iff (c : BitVec 8) : reservedOpc c.toNat ↔ Opcode.ofCode c = none := by
  unfold reservedOpc
  revert c
  decide +kernel

theorem idxUse_none_iff (o : Opcode) :
    o.idxUse = .none ↔ o.code.toNat = 0x03 ∨ o.code.toNat = 0x04 ∨ (0x10 ≤ o.code.toNat ∧ o.code.toNat ≤ 0x17) := by
  cases o <;> decide

theorem idxUse_note_iff (o : Opcode) : o.idxUse = .note ↔ o.code.toNat = 0x01 ∨ o.code.toNat = 0x02 := by
  cases o <;> decide

theorem usesVal_false_iff (o : Opcode) :
    o.usesVal = false ↔ o.code.toNat = 0x02 ∨ o.code.toNat = 0x03 ∨ o.code.toNat = 0x04 ∨ o.code.toNat = 0x21 ∨
      o.code.toNat = 0x2B := by
  cases o <;> decide

theorem usesVal_true_iff (o : Opcode) :
    o.usesVal = true ↔ o.code.toNat = 0x01 ∨ (0x10 ≤ o.code.toNat ∧ o.code.toNat ≤ 0x17) ∨ o.code.toNat = 0x20 ∨
      o.code.toNat = 0x28 ∨ o.code.toNat = 0x29 ∨ o.code.toNat = 0x2A := by
  cases o <;> decide

theorem eq_sample_iff (o : Opcode) : o = .sample ↔ o.code.toNat = 0x03 := by cases o <;> decide

/-- Items 1 to 5 and 7 of 30_encoding.md R75 in the fields of the word. -/
theorem reservedForm_iff_fields (port : Port) (w : Word64) :
    reservedForm port w ↔ reservedOpc (opcField w).toNat ∨ rsvField w ≠ 0 ∨
      (idxField w ≠ 0 ∧ ((opcField w).toNat = 0x03 ∨ (opcField w).toNat = 0x04 ∨
        (0x10 ≤ (opcField w).toNat ∧ (opcField w).toNat ≤ 0x17))) ∨
      ((idxField w).msb = true ∧ ((opcField w).toNat = 0x01 ∨ (opcField w).toNat = 0x02)) ∨
      (valField w ≠ 0 ∧ ((opcField w).toNat = 0x02 ∨ (opcField w).toNat = 0x03 ∨ (opcField w).toNat = 0x04 ∨
        (opcField w).toNat = 0x21 ∨ (opcField w).toNat = 0x2B)) ∨
      (port = .sample ∧ (opcField w).toNat ≠ 0x03) := by
  rw [idxField_msb]
  rfl

/-- Items 1 to 5 and 7 for a word with the OPC of a row: the row does not fit. -/
theorem reservedForm_iff_of_code {o : Opcode} {port : Port} {w : Word64} (h : opcField w = o.code) :
    reservedForm port w ↔ ¬ o.Fits port w := by
  have hopc : ¬ reservedOpc o.code.toNat := by
    rw [reservedOpc_iff, Opcode.ofCode_code]
    exact nofun
  rw [reservedForm_iff_fields, h, or_iff_right hopc, ← idxUse_none_iff, ← idxUse_note_iff, ← usesVal_false_iff,
    ne_eq _ 0x03, ← eq_sample_iff, Opcode.fits_iff h]
  simp only [← Bool.not_eq_true]
  tauto

/-- Items 1 to 5 and 7 of 30_encoding.md R75 are the words that fit no row. -/
theorem reservedForm_iff (port : Port) (w : Word64) : reservedForm port w ↔ ∀ o : Opcode, ¬ o.Fits port w := by
  cases ho : Opcode.ofCode (opcField w) with
  | none =>
    refine iff_of_true (.inl ((reservedOpc_iff _).2 ho)) fun o hfits => ?_
    rw [hfits.code, Opcode.ofCode_code] at ho
    cases ho
  | some o =>
    have hcode : opcField w = o.code := (Opcode.code_of_ofCode ho).symm
    rw [reservedForm_iff_of_code hcode]
    refine ⟨fun h o' hfits => h ?_, fun h => h o⟩
    rwa [Opcode.code_inj.1 (hcode.symm.trans hfits.code)]

/-- Item 6 of 30_encoding.md R75, for a word with the OPC of a row. -/
theorem nonFiniteVal_iff_of_code {o : Opcode} {w : Word64} (h : opcField w = o.code) :
    nonFiniteVal w ↔ o.usesVal = true ∧ (F32.ofBits (valField w)).isFinite = false := by
  rw [← Bool.not_eq_true, F32.isFinite_ofBits, not_not, valField_exponent, usesVal_true_iff, ← h, and_comm]
  rfl

/-- The first failing line of 30_encoding.md R76 is a line before the last (60_exceptions.md R304). -/
theorem decodeWord_eq_reservedEncoding_iff_reservedForm (port : Port) (w : Word64) :
    decodeWord port w = .error .reservedEncoding ↔ reservedForm port w :=
  decodeWord_eq_reservedEncoding_iff.trans (reservedForm_iff port w).symm

/-- The first failing line of 30_encoding.md R76 is the last (60_exceptions.md R304). -/
theorem decodeWord_eq_nonFiniteOperand_iff_nonFiniteVal (port : Port) (w : Word64) :
    decodeWord port w = .error .nonFiniteOperand ↔ ¬ reservedForm port w ∧ nonFiniteVal w := by
  rw [decodeWord_eq_nonFiniteOperand_iff, reservedForm_iff, not_forall_not]
  constructor
  · rintro ⟨o, hfits, hval⟩
    exact ⟨⟨o, hfits⟩, (nonFiniteVal_iff_of_code hfits.code).2 hval⟩
  · rintro ⟨⟨o, hfits⟩, hval⟩
    exact ⟨o, hfits, (nonFiniteVal_iff_of_code hfits.code).1 hval⟩

theorem refusalOf_inj {e e' : DecodeError} : refusalOf e = refusalOf e' ↔ e = e' := by
  cases e <;> cases e' <;> decide

/-- A step is refused exactly when its transfer does not decode, for the decoder's reason: no command is refused. -/
theorem step_refused_iff {s : State} {t : Transfer} {rest : List Transfer} (h : s.pending = t :: rest)
    (e : DecodeError) : step s = .refused (refusalOf e) ↔ decodeTransfer t = .error e := by
  refine ⟨fun hstep => ?_, step_refused h⟩
  cases hd : decodeTransfer t with
  | ok i =>
    obtain ⟨u, hu⟩ := exec_completes i { s with pending := rest }
    rw [step_of_decodeTransfer h hd, hu] at hstep
    cases hstep
  | error e' =>
    rw [step_refused h hd, Host.Outcome.refused.injEq, refusalOf_inj] at hstep
    rw [hstep]

/-! ## The obligations -/

/-- Settles O2: the fields of the word are those of the command, they pass the checks of R76, and the command is built
anew from them. -/
theorem decodeInvertsEncode : Obligations.DecodeInvertsEncode := fun _ hi => decodeTransfer_encode hi

/-- Settles O3. -/
theorem encodeInvertsDecode : Obligations.EncodeInvertsDecode := fun _ _ _ h =>
  ⟨decodeWord_wellFormed h, encode_of_decodeWord h⟩

/-- Settles O4: the table holds the row of each opcode, and a word under the mask of a row is its pattern when the word
fits the row. -/
theorem acceptedWordsAreTheTableRows : Obligations.AcceptedWordsAreTheTableRows := by
  intro w
  rw [exists_mem_tableRows]
  simp only [and_rowOf_mask, decodeWord_eq_ok_iff, usesVal_rowOf, ← valField_exponent, ← F32.isFinite_ofBits]
  constructor
  · rintro ⟨_, o, hfits, hval, -⟩
    exact ⟨o, hfits, hval⟩
  · rintro ⟨o, hfits, hval⟩
    exact ⟨_, o, hfits, hval, rfl⟩

/-- Settles O5: a step is refused when its word does not decode, and each reason of the decoder is its items of R75. -/
theorem reservedWordsAreRefused : Obligations.ReservedWordsAreRefused := by
  intro port w s rest hp
  have hreserved : step s = .refused .reservedEncoding ↔ reservedForm port w := by
    rw [← decodeWord_eq_reservedEncoding_iff_reservedForm, ← decodeTransfer_wordTransfer]
    exact step_refused_iff hp .reservedEncoding
  have hnonFinite : step s = .refused .nonFiniteOperand ↔ ¬ reservedForm port w ∧ nonFiniteVal w := by
    rw [← decodeWord_eq_nonFiniteOperand_iff_nonFiniteVal, ← decodeTransfer_wordTransfer]
    exact step_refused_iff hp .nonFiniteOperand
  rw [hreserved, hnonFinite, or_and_left, and_iff_right (em _)]

/-- Settles O7: the word is that of its command, which has the one row of the port. -/
theorem samplePortAcceptsOnlySample : Obligations.SamplePortAcceptsOnlySample := by
  intro w i
  constructor
  · intro h
    obtain ⟨o, hfits, -, hi⟩ := decodeWord_eq_ok_iff.1 h
    have hi : i = .sample := by rw [hi, hfits.port rfl]; rfl
    subst hi
    exact ⟨(encode_of_decodeWord h).symm.trans (by decide), rfl⟩
  · rintro ⟨rfl, rfl⟩
    decide +kernel

/-- Settles O1: each word is evaluated, in both directions. -/
theorem specExampleWordsDecode : Obligations.SpecExampleWordsDecode := by
  unfold Obligations.SpecExampleWordsDecode
  decide +kernel

/-- Settles O9. -/
theorem pseudoInstructionsExpand : Obligations.PseudoInstructionsExpand :=
  ⟨fun _ _ => ⟨List.length_replicate, fun _ => List.eq_of_mem_replicate⟩, fun _ _ _ _ => rfl⟩

/-- Settles O10, by running the assembler on the text, taken apart at its lines. -/
theorem programTextAssembles : Obligations.ProgramTextAssembles := by
  unfold Obligations.ProgramTextAssembles
  simp only [String.toList_append]
  decide +kernel

end Sys2Proof.Machine
end

section
/-! Indices out of range (30_encoding.md R72): a command on a harmonic or an operator that does not exist. -/

namespace Sys2Proof.Machine

/-- The command's index selects no harmonic or no operator. -/
def indexOutOfRange : Instr → Prop
  | .setHarmAmp j _ | .toggleHarm j => nHarm ≤ j.toNat
  | .setOpRatio j _ | .setOpAmp j _ | .setOpFeedback j _ | .toggleOp j => nOp ≤ j.toNat
  | _ => False

theorem broadcasts_of_indexOutOfRange {i : Instr} (h : indexOutOfRange i) : broadcasts i = true := by
  cases i with
  | setHarmAmp | toggleHarm | setOpRatio | setOpAmp | setOpFeedback | toggleOp => rfl
  | _ => exact h.elim

theorem voiceEdit_of_indexOutOfRange {i : Instr} (sr : F32) (v : Voice) (h : indexOutOfRange i) :
    voiceEdit sr i v = v := by
  cases i with
  | setHarmAmp j a => rw [voiceEdit, addSetHarmAmp, addModifyHarm_of_ge _ _ h]
  | toggleHarm j => rw [voiceEdit, addToggleHarm, addModifyHarm_of_ge _ _ h]
  | setOpRatio j r => rw [voiceEdit, fmSetOpRatio, modifyEntry_of_ge _ _ h, modifyEntry_of_ge _ _ h]
  | setOpAmp j a => rw [voiceEdit, fmSetOpAmp, modifyEntry_of_ge _ _ h]
  | setOpFeedback j fb => rw [voiceEdit, fmSetOpFeedback, modifyEntry_of_ge _ _ h]
  | toggleOp j => rw [voiceEdit, fmToggleOp, modifyEntry_of_ge _ _ h]
  | _ => exact h.elim

theorem tmplEdit_of_indexOutOfRange {i : Instr} (sr : F32) (P : VoiceParams) (h : indexOutOfRange i) :
    tmplEdit sr i P = P := by
  cases i with
  | setHarmAmp j a => rw [tmplEdit, tmplSetHarmAmp, modifyEntry_of_ge _ _ h]
  | toggleHarm j => rw [tmplEdit, tmplToggleHarm, modifyEntry_of_ge _ _ h]
  | setOpRatio j r => rw [tmplEdit, tmplSetOpRatio, modifyEntry_of_ge _ _ h]
  | setOpAmp j a => rw [tmplEdit, tmplSetOpAmp, modifyEntry_of_ge _ _ h]
  | setOpFeedback j fb => rw [tmplEdit, tmplSetOpFeedback, modifyEntry_of_ge _ _ h]
  | toggleOp j => rw [tmplEdit, tmplToggleOp, modifyEntry_of_ge _ _ h]
  | _ => exact h.elim

/-- A command with an index out of range is a broadcast of no change. -/
theorem exec_of_indexOutOfRange {i : Instr} (s : State) (h : indexOutOfRange i) : exec i s = .next s := by
  rw [exec_broadcast s (broadcasts_of_indexOutOfRange h),
    broadcast_id (fun _ v _ => voiceEdit_of_indexOutOfRange _ v h) fun P => tmplEdit_of_indexOutOfRange _ P h]

/-- Settles O35. -/
theorem outOfRangeIndexIsANoOp : Obligations.OutOfRangeIndexIsANoOp := by
  intro j x s
  have hnoOp (i : Instr) (h : indexOutOfRange i) : exec i s = .next s := exec_of_indexOutOfRange s h
  exact ⟨fun h => ⟨hnoOp (.setHarmAmp j x) h, hnoOp (.toggleHarm j) h⟩,
    fun h => ⟨hnoOp (.setOpRatio j x) h, hnoOp (.setOpAmp j x) h, hnoOp (.setOpFeedback j x) h, hnoOp (.toggleOp j) h⟩⟩

end Sys2Proof.Machine
end

section
/-! The oscillator: WRAP1 line by line, and the advance of a phase that is no finite number (40_oscillator.md R103,
R104). -/

namespace Sys2Proof.F32

theorem mul_nan (x : F32) : x.mul nan = nan := by cases x <;> rfl

/-- A sum is finite only if its second term is. -/
theorem isFinite_add_of_right (x : F32) {y : F32} (hy : y.isFinite = false) : (x.add y).isFinite = false := by
  cases y with
  | fin s e f => cases hy
  | nan => cases x <;> rfl
  | inf b =>
    cases x with
    | nan => rfl
    | fin s e f => rfl
    | inf a =>
      rw [add]
      split <;> rfl

theorem isFinite_inf_div (b : Bool) (y : F32) : ((inf b).div y).isFinite = false := by cases y <;> rfl

theorem msb_toBits_fin (d : BitVec 23) (s : Bool) (e : Fin 255) (f : BitVec 23) : ((fin s e f).toBits d).msb = s := by
  rw [toBits_fin, msb_packBits]

theorem tmod_signed (s : Bool) (m n : Nat) : (signed s m).tmod n = signed s (m % n) := by
  cases s with
  | false => exact (Int.natCast_mod m n).symm
  | true => exact Int.neg_tmod m n

end Sys2Proof.F32

namespace Sys2Proof.Machine

/-- `fmod(p, 1.0)` of a finite value is its exact remainder toward zero, with its sign. -/
theorem fmodOne_exact {p : F32} (h : p.isFinite = true) :
    p.fmodOne.isFinite = true ∧ exactUnits p.fmodOne = (exactUnits p).tmod (2 ^ 149) ∧
      (p.fmodOne.toBits 0).msb = (p.toBits 0).msb := by
  obtain ⟨s, e, f, rfl⟩ := exists_fin_of_isFinite h
  obtain ⟨e', f', hr, hu⟩ := F32.fmodOne_fin s e f
  rw [hr]
  refine ⟨rfl, ?_, ?_⟩
  · rw [exactUnits_fin, exactUnits_fin, hu]
    exact (F32.tmod_signed s _ (2 ^ 149)).symm
  · rw [F32.msb_toBits_fin, F32.msb_toBits_fin]

theorem wrap1_of_isFinite {p : F32} (h : p.isFinite = true) : wrap1 p = wrapRemainder p.fmodOne := if_pos h

theorem wrap1_of_not_isFinite {p : F32} (h : p.isFinite = false) : wrap1 p = .nan := if_neg (Bool.eq_false_iff.1 h)

/-- An infinite frequency moves every phase to an infinity or to NaN, whatever the sample rate. -/
theorem oscNext_phase_of_inf_freq (C : Config) {o : Osc} {b : Bool} (h : o.freq = .inf b) :
    (oscNext C o).1.phase = .nan := by
  rw [oscNext_phase, h]
  exact wrap1_of_not_isFinite (F32.isFinite_add_of_right _ (F32.isFinite_inf_div b _))

theorem wrap1_nan_add (x : F32) : wrap1 (F32.nan.add x) = .nan := wrap1_of_not_isFinite F32.isFinite_nan

theorem oscNext_phase_of_nan_phase (C : Config) {o : Osc} (h : o.phase = .nan) : (oscNext C o).1.phase = .nan := by
  rw [oscNext_phase, h, wrap1_nan_add]

theorem oscNext_snd_of_nan_phase (s : State) {o : Osc} (h : o.phase = .nan) : (oscNext s.config o).2 = .nan := by
  have hsin : s.config.sin32 .nan = .nan := (configFunctions_nonFinite F32.isFinite_nan).1
  rw [oscNext_snd, h, wrap1_nan_add, F32.mul_nan, hsin, F32.mul_nan]

/-! ## The obligations -/

/-- Settles O44: the remainder is `fmodOne`, and the rest of WRAP1 is `wrapRemainder`. -/
theorem wrapStaysInTheUnitInterval : Obligations.WrapStaysInTheUnitInterval := by
  intro p
  refine ⟨fun hfin => ⟨?_, wrap1_inRange hfin⟩, wrap1_of_not_isFinite⟩
  obtain ⟨hr, hunits, hsign⟩ := fmodOne_exact hfin
  exact ⟨p.fmodOne, hr, hunits, hsign, wrap1_of_isFinite hfin⟩

/-- Settles O45. The infinite frequency needs no legal sample rate: no quotient of an infinity is finite. -/
theorem infiniteFrequencyPoisonsThePhase : Obligations.InfiniteFrequencyPoisonsThePhase := by
  intro s o
  refine ⟨?_, fun _ ⟨_, hfreq⟩ => oscNext_phase_of_inf_freq _ hfreq,
    fun h => ⟨oscNext_phase_of_nan_phase _ h, oscNext_snd_of_nan_phase s h⟩⟩
  rw [oscNext]
  rfl

end Sys2Proof.Machine
end

section
/-! The FM engine, turn by turn: what operator i's turn of FM_NEXT reads, and the sum of the outputs (42_fm.md R142,
R143, R144). -/

namespace Sys2Proof.Machine

/-! ## One turn -/

theorem fmStep_of_disabled (C : Config) {acc : Fm × F32} {i : Fin nOp} (h : (acc.1.op[i]).en = false) :
    fmStep C acc i = acc := if_neg (Bool.eq_false_iff.1 h)

theorem fmStep_of_enabled (C : Config) {acc : Fm × F32} {i : Fin nOp} (h : (acc.1.op[i]).en = true) :
    fmStep C acc i = ((fmOperatorNext C acc.1 i).1, acc.2.add (fmOperatorNext C acc.1 i).2) := if_pos h

theorem fmOperatorNext_snd (C : Config) (m : Fm) (i : Fin nOp) :
    (fmOperatorNext C m i).2 = (C.sin32 ((oscNext C m.osc[i]).2.add (fmPhaseMod m i))).mul (m.op[i]).amp := rfl

theorem fmOperatorNext_fbuf_self (C : Config) (m : Fm) (i : Fin nOp) :
    (fmOperatorNext C m i).1.fbuf[i] = (fmOperatorNext C m i).2 := Vector.getElem_set_self _

/-- A turn adds to the sum what it leaves in the operator's buffer. -/
theorem fmStep_snd (C : Config) (acc : Fm × F32) (i : Fin nOp) :
    (fmStep C acc i).2 =
      if (acc.1.op[i]).en = true then acc.2.add (fmStep C acc i).1.fbuf[i] else acc.2 := by
  split
  next h => rw [fmStep_of_enabled C h, fmOperatorNext_fbuf_self]
  next h => rw [fmStep_of_disabled C (Bool.eq_false_iff.2 h)]

/-! ## The loop -/

/-- The sum after a list of turns, by the buffers as they stand at the end: no later turn overwrites an output. -/
theorem fmSteps_snd (C : Config) (l : List (Fin nOp)) (acc : Fm × F32) (hnd : l.Nodup) :
    (l.foldl (fmStep C) acc).2 =
      l.foldl (fun sum i => if (acc.1.op[i]).en = true then sum.add (l.foldl (fmStep C) acc).1.fbuf[i] else sum)
        acc.2 := by
  induction l generalizing acc with
  | nil => rfl
  | cons i is ih =>
    obtain ⟨hni, hnd⟩ := List.nodup_cons.1 hnd
    have hop : (fmStep C acc i).1.op = acc.1.op := (fmStep_spec C acc i).1
    simp only [List.foldl_cons]
    rw [ih _ hnd, fmStep_snd, hop, fmSteps_fbuf_of_notMem C is _ hni]

theorem fmNext_of_all_disabled (C : Config) {m : Fm} (h : ∀ i : Fin nOp, (m.op[i]).en = false) :
    fmNext C m = (m, F32.posZero) := by
  have hturns : (List.finRange nOp).foldl (fmStep C) (m, F32.posZero) = (m, F32.posZero) :=
    List.foldl_fixed' (fun i => fmStep_of_disabled C (h i)) _
  have hzero : F32.posZero.div (F32.ofInt 6) = F32.posZero := by decide
  rw [fmNext, hturns, hzero]

theorem fmNext_snd (C : Config) (m : Fm) :
    (fmNext C m).2 =
      ((List.finRange nOp).foldl
        (fun sum i => if (m.op[i]).en = true then sum.add (fmNext C m).1.fbuf[i] else sum) F32.posZero).div
        (F32.ofInt 6) := by
  rw [fmNext_fst, ← fmSteps_snd C _ (m, F32.posZero) (List.nodup_finRange _), fmNext]

/-! ## The turn of operator i -/

/-- The operators before `i`. -/
def opsBelow (i : Fin nOp) : List (Fin nOp) := (List.finRange nOp).filter (· < i)

/-- The operators after `i`. -/
def opsAbove (i : Fin nOp) : List (Fin nOp) := (List.finRange nOp).filter (i < ·)

@[simp] theorem mem_opsBelow {i j : Fin nOp} : j ∈ opsBelow i ↔ j < i := by simp [opsBelow]

@[simp] theorem mem_opsAbove {i j : Fin nOp} : j ∈ opsAbove i ↔ i < j := by simp [opsAbove]

theorem opsBelow_nodup (i : Fin nOp) : (opsBelow i).Nodup := (List.nodup_finRange _).filter _

/-- The loop of FM_NEXT runs in index order (42_fm.md R143). -/
theorem finRange_eq_opsBelow_append (i : Fin nOp) : List.finRange nOp = opsBelow i ++ i :: opsAbove i := by
  decide +revert

/-- The engine and the sum when the turn of operator `i` comes. -/
def fmBefore (C : Config) (m : Fm) (i : Fin nOp) : Fm × F32 := (opsBelow i).foldl (fmStep C) (m, F32.posZero)

theorem fmNext_fst_eq_foldl_fmBefore (C : Config) (m : Fm) (i : Fin nOp) :
    (fmNext C m).1 = ((i :: opsAbove i).foldl (fmStep C) (fmBefore C m i)).1 := by
  rw [fmNext_fst, finRange_eq_opsBelow_append i, List.foldl_append, fmBefore]

theorem fmBefore_op (C : Config) (m : Fm) (i : Fin nOp) : (fmBefore C m i).1.op = m.op :=
  (fmSteps_spec C _ _ (opsBelow_nodup i)).1

theorem fmBefore_osc_self (C : Config) (m : Fm) (i : Fin nOp) : (fmBefore C m i).1.osc[i] = m.osc[i] := by
  refine ((fmSteps_spec C _ _ (opsBelow_nodup i)).2.2 i i.2).1.trans (if_neg fun h => ?_)
  exact lt_irrefl i (mem_opsBelow.1 h.1)

/-- At its turn an operator finds the final buffers of those before it and the old buffers from itself on. -/
theorem fmBefore_fbuf (C : Config) (m : Fm) (i j : Fin nOp) :
    (fmBefore C m i).1.fbuf[j] = if j < i then (fmNext C m).1.fbuf[j] else m.fbuf[j] := by
  split
  next h =>
    have hj : j ∉ i :: opsAbove i := by simp [h.ne, h.le]
    rw [fmNext_fst_eq_foldl_fmBefore C m i, fmSteps_fbuf_of_notMem C _ _ hj]
  next h => exact fmSteps_fbuf_of_notMem C _ _ (mt mem_opsBelow.1 h)

/-- The phase modulation at the turn of operator `i` (42_fm.md R142). -/
theorem fmPhaseMod_fmBefore (C : Config) (m : Fm) (i : Fin nOp) :
    fmPhaseMod (fmBefore C m i).1 i =
      (List.finRange nOp).foldl
        (fun pm j => if j ≠ i ∧ (m.op[j]).en = true then
          pm.add ((if j < i then (fmNext C m).1.fbuf[j] else m.fbuf[j]).mul F32.xmod) else pm)
        ((m.fbuf[i]).mul (m.op[i]).fbk) := by
  simp only [fmPhaseMod, fmBefore_op, fmBefore_fbuf, lt_irrefl, if_false]

/-- What an enabled operator leaves in its buffer is the output of its turn. -/
theorem fmNext_fbuf_of_enabled (C : Config) {m : Fm} {i : Fin nOp} (h : (m.op[i]).en = true) :
    (fmNext C m).1.fbuf[i] =
      (C.sin32 ((oscNext C m.osc[i]).2.add (fmPhaseMod (fmBefore C m i).1 i))).mul (m.op[i]).amp := by
  have hen : ((fmBefore C m i).1.op[i]).en = true := by rw [fmBefore_op, h]
  have hi : i ∉ opsAbove i := by simp
  rw [fmNext_fst_eq_foldl_fmBefore C m i, List.foldl_cons, fmSteps_fbuf_of_notMem C _ _ hi, fmStep_of_enabled C hen,
    fmOperatorNext_fbuf_self, fmOperatorNext_snd, fmBefore_osc_self, fmBefore_op]

/-- What FM_NEXT does to each oscillator, at an operator's index. -/
theorem fmNext_osc (C : Config) (m : Fm) (i : Fin nOp) :
    (fmNext C m).1.osc[i] = if (m.op[i]).en = true then (oscNext C m.osc[i]).1 else m.osc[i] :=
  ((fmNext_spec C m).2.2 i i.2).1

/-! ## The obligations -/

/-- Settles O46: the loop skips a disabled operator, and OSC_NEXT writes the phase only. -/
theorem disabledOperatorsAreFrozen : Obligations.DisabledOperatorsAreFrozen := by
  intro C m
  refine ⟨fun i hoff => ⟨?_, ((fmNext_spec C m).2.2 i i.2).2 hoff⟩, fmNext_op C m, fmNext_base C m, fun i => ?_,
    fmNext_of_all_disabled C⟩
  · rw [fmNext_osc, if_neg (Bool.eq_false_iff.1 hoff)]
  · rw [fmNext_osc]
    split
    · exact ⟨oscNext_freq C _, oscNext_amp C _⟩
    · exact ⟨rfl, rfl⟩

/-- Settles O47: the outputs are the buffers after FM_NEXT. -/
theorem feedbackIsReadInPlace : Obligations.FeedbackIsReadInPlace := by
  intro C m
  refine ⟨fun i => (fmNext C m).1.fbuf[i], fun i hon => ⟨?_, rfl, ?_⟩, fmNext_snd C m⟩
  · refine (fmNext_fbuf_of_enabled C hon).trans ?_
    rw [fmPhaseMod_fmBefore, F32.xmod]
  · rw [fmNext_osc, if_pos hon]

end Sys2Proof.Machine
end

section
/-! The envelope (44_envelope.md): one sample stage by stage, the range of its output, the first sample after a
note-off, stopped time, and the edges of the state graph. -/

namespace Sys2Proof.F32

theorem roundInt_natCast (p : Nat) : roundInt false p = round false p 1 := by
  cases p with
  | zero => exact roundInt_zero false
  | succ p => rw [roundInt, if_neg (by omega), decide_eq_false (by omega), Int.natAbs_natCast]

/-- +0.0 added in front changes no value of the sign +. -/
theorem posZero_add_fin (e : Fin 255) (f : BitVec 23) : posZero.add (fin false e f) = fin false e f := by
  have hsum : signed false (units 0 0) + signed false (units e f) = (units e f : Nat) := Int.zero_add _
  rw [posZero, zero, add, hsum, Bool.false_and, roundInt_natCast, round_units]

theorem posZero_add_round (p q : Nat) : posZero.add (round false p q) = round false p q := by
  rw [round_eq, ofMag]
  split
  · exact posZero_add_fin _ _
  · rfl

end Sys2Proof.F32

namespace Sys2Proof.Machine

/-! ## One sample, stage by stage: `envNext_cases` as one equation per stage (44_envelope.md R177-R181) -/

theorem envNext_of_attack (sr : F32) {e : Env} (h : e.stage = .attack) :
    envNext sr e =
      if e.A.le (elapsedNow sr e) = true then
        ({ e with stage := .decay, elapsed := F32.posZero, value := F32.one }, F32.one)
      else
        ({ e with stage := .attack, elapsed := elapsedNow sr e, value := attackRamp e (elapsedNow sr e) },
          attackRamp e (elapsedNow sr e)) := by
  split <;> simp_all [envNext, envStage, elapsedNow, attackRamp]

theorem envNext_of_decay (sr : F32) {e : Env} (h : e.stage = .decay) :
    envNext sr e =
      if e.D.le (elapsedNow sr e) = true then
        ({ e with stage := .sustain, elapsed := F32.posZero, value := e.S }, e.S)
      else
        ({ e with stage := .decay, elapsed := elapsedNow sr e, value := decayRamp e (elapsedNow sr e) },
          decayRamp e (elapsedNow sr e)) := by
  split <;> simp_all [envNext, envStage, elapsedNow, decayRamp]

theorem envNext_of_sustain (sr : F32) {e : Env} (h : e.stage = .sustain) :
    envNext sr e =
      if e.gate = true then ({ e with stage := .sustain, elapsed := elapsedNow sr e, value := e.S }, e.S)
      else ({ e with stage := .release, elapsed := F32.posZero, value := e.S }, e.S) := by
  split <;> simp_all [envNext, envStage, elapsedNow]

theorem envNext_of_release (sr : F32) {e : Env} (h : e.stage = .release) :
    envNext sr e =
      if e.R.le (elapsedNow sr e) = true then
        ({ e with stage := .idle, elapsed := F32.posZero, value := F32.posZero }, F32.posZero)
      else
        ({ e with stage := .release, elapsed := elapsedNow sr e, value := releaseRamp e (elapsedNow sr e) },
          releaseRamp e (elapsedNow sr e)) := by
  split <;> simp_all [envNext, envStage, elapsedNow, releaseRamp]

theorem envNext_of_idle (sr : F32) {e : Env} (h : e.stage = .idle) :
    envNext sr e = ({ e with stage := .idle, elapsed := elapsedNow sr e, value := F32.posZero }, F32.posZero) := by
  simp [envNext, envStage, elapsedNow, h]

/-- A timed stage whose duration is zero or less has ended after any sample. -/
theorem le_elapsedNow_of_nonpos {sr d : F32} {e : Env} (hrate : LegalRate sr) (h : F32.posZero.le e.elapsed = true)
    (hd : d.le F32.posZero = true) : d.le (elapsedNow sr e) = true :=
  F32.le_trans hd (elapsedNow_nonneg hrate h)

/-- What the first sample after a note-off reads: the elapsed time +0.0 of ENV_NOTE_OFF, advanced once. -/
theorem LegalRate.posZero_add_samplePeriod {sr : F32} (h : LegalRate sr) :
    F32.posZero.add (samplePeriod sr) = samplePeriod sr := by
  obtain ⟨e, f, rfl, hu⟩ := h.exists_fin
  rw [samplePeriod, F32.one_eq, F32.div, if_neg (by omega)]
  exact F32.posZero_add_round _ _

/-! ## The range of the output -/

theorem decayRamp_inUnit {e : Env} {t : F32} (hS : InUnit e.S) (h : InUnit (t.div e.D)) : InUnit (decayRamp e t) :=
  F32.one_sub_unit (F32.mul_unit (F32.one_sub_unit hS) h)

theorem releaseRamp_inUnit {e : Env} {t : F32} (hS : InUnit e.S) (h : InUnit (t.div e.R)) : InUnit (releaseRamp e t) :=
  F32.mul_unit hS (F32.one_sub_unit h)

/-- Unlike `envNext_legal` this asks nothing of the gate: both ways out of Sustain give S. -/
theorem envNext_snd_inUnit {sr : F32} {e : Env} (hrate : LegalRate sr) (helapsed : F32.posZero.le e.elapsed = true)
    (hS : InUnit e.S) (hA : e.A.isFinite = true) (hD : e.D.isFinite = true) (hR : e.R.isFinite = true) :
    InUnit (envNext sr e).2 := by
  have hnow := elapsedNow_nonneg hrate helapsed
  rcases envNext_cases sr e with ⟨-, -, he⟩ | ⟨-, hlt, he⟩ | ⟨-, -, he⟩ | ⟨-, hlt, he⟩ | ⟨-, -, he⟩ | ⟨-, -, he⟩ |
    ⟨-, -, he⟩ | ⟨-, hlt, he⟩ | ⟨-, he⟩ <;> rw [he]
  · exact one_inUnit
  · exact elapsedFraction_inUnit hnow hA hlt
  · exact hS
  · exact decayRamp_inUnit hS (elapsedFraction_inUnit hnow hD hlt)
  · exact hS
  · exact hS
  · exact posZero_inUnit
  · exact releaseRamp_inUnit hS (elapsedFraction_inUnit hnow hR hlt)
  · exact posZero_inUnit

/-! ## Stopped time -/

/-- The last value is written and never read. -/
theorem envNext_value (sr : F32) (e : Env) (x : F32) : envNext sr { e with value := x } = envNext sr e := by
  obtain ⟨A, D, S, R, stage, elapsed, value, gate⟩ := e
  cases stage with
  | attack => rw [envNext_of_attack sr rfl, envNext_of_attack sr rfl]; rfl
  | decay => rw [envNext_of_decay sr rfl, envNext_of_decay sr rfl]; rfl
  | sustain => rw [envNext_of_sustain sr rfl, envNext_of_sustain sr rfl]; rfl
  | release => rw [envNext_of_release sr rfl, envNext_of_release sr rfl]; rfl
  | idle => rw [envNext_of_idle sr rfl, envNext_of_idle sr rfl]; rfl

/-- A timed stage that its elapsed time has not ended (44_envelope.md R177, R178, R180). -/
def TimedStageRuns (e : Env) : Prop :=
  (e.stage = .attack ∧ e.A.le e.elapsed = false) ∨ (e.stage = .decay ∧ e.D.le e.elapsed = false) ∨
    (e.stage = .release ∧ e.R.le e.elapsed = false)

/-- When the time has stopped in such a stage, a sample writes the value only (44_envelope.md R184). -/
theorem envNext_fst_of_stopped {sr : F32} {e : Env} (ht : elapsedNow sr e = e.elapsed) (h : TimedStageRuns e) :
    ∃ y, (envNext sr e).1 = { e with value := y } := by
  rcases h with ⟨hs, hlt⟩ | ⟨hs, hlt⟩ | ⟨hs, hlt⟩
  · rw [envNext_of_attack sr hs, ht, if_neg (Bool.eq_false_iff.1 hlt), ← hs]
    exact ⟨_, rfl⟩
  · rw [envNext_of_decay sr hs, ht, if_neg (Bool.eq_false_iff.1 hlt), ← hs]
    exact ⟨_, rfl⟩
  · rw [envNext_of_release sr hs, ht, if_neg (Bool.eq_false_iff.1 hlt), ← hs]
    exact ⟨_, rfl⟩

theorem iterate_envNext_of_stopped {sr : F32} {e : Env} (ht : elapsedNow sr e = e.elapsed) (h : TimedStageRuns e)
    (k : Nat) : ∃ x, (fun e => (envNext sr e).1)^[k] e = { e with value := x } := by
  induction k with
  | zero => exact ⟨e.value, rfl⟩
  | succ k ih =>
    obtain ⟨x, hx⟩ := ih
    rw [Function.iterate_succ_apply', hx, envNext_value]
    exact envNext_fst_of_stopped ht h

/-! ## The state graph -/

/-- The transitions a sample can make (44_envelope.md R170). -/
def sampleEdges : List (Stage × Stage) :=
  [(.attack, .decay), (.decay, .sustain), (.sustain, .release), (.release, .idle)]

theorem envNext_stage (sr : F32) (e : Env) :
    (envNext sr e).1.stage = e.stage ∨ (e.stage, (envNext sr e).1.stage) ∈ sampleEdges := by
  rcases envNext_cases sr e with ⟨hs, -, he⟩ | ⟨hs, -, he⟩ | ⟨hs, -, he⟩ | ⟨hs, -, he⟩ | ⟨hs, -, he⟩ | ⟨hs, -, he⟩ |
    ⟨hs, -, he⟩ | ⟨hs, -, he⟩ | ⟨hs, he⟩ <;> simp [hs, he, sampleEdges]

theorem voiceNext_stage (C : Config) (v : Voice) :
    (voiceNext C v).1.env.stage = v.env.stage ∨ (v.env.stage, (voiceNext C v).1.env.stage) ∈ sampleEdges := by
  cases h : C.shortCircuit && released v with
  | true => exact .inl (by rw [voiceNext_released h])
  | false =>
    rw [voiceNext_chain h]
    exact envNext_stage C.sr v.env

/-! ## The obligations -/

/-- Settles O48: an equation per stage; the time after a sample is not negative, so a duration up to zero is past. -/
theorem zeroLengthStagesLastOneSample : Obligations.ZeroLengthStagesLastOneSample := by
  refine ⟨fun sr e => ⟨fun hs => (apply_ite (Eq _) _ _ _).mp (envNext_of_attack sr hs),
      fun hs => (apply_ite (Eq _) _ _ _).mp (envNext_of_decay sr hs),
      fun hs => (apply_ite (Eq _) _ _ _).mp (envNext_of_sustain sr hs),
      fun hs => (apply_ite (Eq _) _ _ _).mp (envNext_of_release sr hs), envNext_of_idle sr⟩,
    fun p e hp helapsed => ⟨fun hs hd => ?_, fun hs hd => ?_, fun hs hd => ?_⟩⟩
  · rw [envNext_of_attack _ hs, if_pos (le_elapsedNow_of_nonpos (legalParams_rate hp) helapsed hd)]
    exact ⟨rfl, rfl⟩
  · rw [envNext_of_decay _ hs, if_pos (le_elapsedNow_of_nonpos (legalParams_rate hp) helapsed hd)]
    exact ⟨rfl, rfl⟩
  · rw [envNext_of_release _ hs, if_pos (le_elapsedNow_of_nonpos (legalParams_rate hp) helapsed hd)]
    exact ⟨rfl, rfl⟩

/-- Settles O49: each ramp is made of values in [0,1] by products and differences from one. -/
theorem envelopeOutputIsInTheUnitInterval : Obligations.EnvelopeOutputIsInTheUnitInterval := by
  intro p e hp helapsed hS hA hD hR
  obtain ⟨-, -, -, -, -, hvalue⟩ := envNext_frame p.sr e
  exact ⟨envNext_snd_inUnit (legalParams_rate hp) helapsed hS hA hD hR, hvalue⟩

/-- Settles O50: NOTE_OFF restarts Release at +0.0, and +0.0 plus one sample period is the sample period. -/
theorem releaseStartsFromSustain : Obligations.ReleaseStartsFromSustain := by
  intro p e hp
  have hdt : elapsedNow p.sr (envNoteOff e) = F32.one.div p.sr := (legalParams_rate hp).posZero_add_samplePeriod
  rw [envNext_of_release p.sr (e := envNoteOff e) rfl, hdt, apply_ite Prod.snd]
  rfl

/-- Settles O51: by induction on the samples, each of which writes the value only. -/
theorem stoppedTimeNeverEndsAStage : Obligations.StoppedTimeNeverEndsAStage := by
  intro sr e ht h k e'
  obtain ⟨x, hx⟩ : ∃ x, e' = { e with value := x } := iterate_envNext_of_stopped ht h k
  rw [hx]
  exact ⟨rfl, rfl, congrArg Prod.snd (envNext_value sr e x)⟩

/-- Settles O55: `slotAfter` command by command. -/
theorem stagesMoveAlongTheStateGraph : Obligations.StagesMoveAlongTheStateGraph := by
  intro i s t n v w h hv hw
  rw [exec_slot h n, hv] at hw
  cases i with
  | noteOn note vel =>
    rw [slotAfter] at hw
    split at hw <;> obtain rfl := Option.some.inj hw
    next hn => exact .inr (.inl ⟨note, vel, rfl, hn, rfl⟩)
    next => exact .inl rfl
  | noteOff note =>
    rw [slotAfter] at hw
    split at hw <;> obtain rfl := Option.some.inj hw
    next hn => exact .inr (.inr (.inl ⟨note, rfl, hn, rfl⟩))
    next => exact .inl rfl
  | sample =>
    obtain rfl := Option.some.inj hw
    exact (voiceNext_stage (configOf s.params) v).imp_right fun hedge => .inr (.inr ⟨rfl, hedge⟩)
  | _ =>
    obtain rfl := Option.some.inj hw
    exact .inl rfl

/-- Settles O52, by evaluation. -/
theorem timeStopsAt512Seconds : Obligations.TimeStopsAt512Seconds := by
  unfold Obligations.TimeStopsAt512Seconds
  decide +kernel

end Sys2Proof.Machine
end

section
/-! The filter (45_filter.md R203-R205): FLT_PROCESS as one equation, why a resonance of zero or a NaN tap makes its
output NaN, and why the poison stays in its voice and reaches every SAMPLE. -/

namespace Sys2Proof.F32

/-! ## Values that are not finite -/

theorem nan_add (x : F32) : nan.add x = nan := rfl
theorem nan_mul (x : F32) : nan.mul x = nan := rfl
theorem nan_div (x : F32) : nan.div x = nan := rfl
theorem add_nan (x : F32) : x.add nan = nan := by cases x <;> rfl

theorem isFinite_neg (x : F32) : x.neg.isFinite = x.isFinite := by cases x <;> rfl

/-- A difference is finite only if its second term is. -/
theorem isFinite_sub_of_right (x : F32) {y : F32} (hy : y.isFinite = false) : (x.sub y).isFinite = false :=
  isFinite_add_of_right x ((isFinite_neg y).trans hy)

/-- A product is finite only if its first factor is. -/
theorem isFinite_mul_of_left {x : F32} (hx : x.isFinite = false) (y : F32) : (x.mul y).isFinite = false := by
  cases x with
  | fin s e f => cases hx
  | nan => rfl
  | inf a =>
    cases y with
    | nan => rfl
    | inf b => rfl
    | fin s e f =>
      rw [mul]
      split <;> rfl

/-- No quotient by a zero is finite. -/
theorem isFinite_div_zero (x : F32) (b : Bool) : (x.div (zero b)).isFinite = false := by
  cases x with
  | nan => rfl
  | inf a => rfl
  | fin s e f =>
    rw [zero, div, if_pos (show units 0 0 = 0 from rfl)]
    split <;> rfl

/-- The quotient of two infinities or NaNs is NaN. -/
theorem div_of_not_isFinite {x y : F32} (hx : x.isFinite = false) (hy : y.isFinite = false) : x.div y = nan := by
  cases x with
  | fin s e f => cases hx
  | nan => rfl
  | inf a =>
    cases y with
    | fin s e f => cases hy
    | nan => rfl
    | inf b => rfl

theorem ofInt_two : ofInt 2 = two := by decide +kernel
theorem ofInt_neg_two : ofInt (-2) = neg two := by decide +kernel
theorem two_mul_zero (b : Bool) : two.mul (zero b) = zero b := by cases b <;> decide +kernel

end Sys2Proof.F32

namespace Sys2Proof.Machine

/-! ## FLT_PROCESS -/

theorem fltProcess_eq (C : Config) (f : Flt) (x : F32) :
    fltProcess C f x =
      ({ f with buf0 := biquad (fltCoeffs C f) x f.buf0 f.buf1, buf1 := f.buf0 },
        biquad (fltCoeffs C f) x f.buf0 f.buf1) := by
  rw [fltProcess]

/-- FLT_COEFFS with the cosine argument chosen by a test (45_filter.md R203). -/
theorem fltCoeffs_eq (C : Config) (f : Flt) :
    fltCoeffs C f = coeffsOf (fltAlpha f (C.sin32 (fltW0 C.sr f)))
      (C.cos32 (if C.cosArg = .alpha then fltAlpha f (C.sin32 (fltW0 C.sr f)) else fltW0 C.sr f)) := by
  unfold fltCoeffs
  cases C.cosArg <;> rfl

/-- With resonance zero `alpha` is the quotient of the sine by a zero. -/
theorem isFinite_fltAlpha_of_zero {f : Flt} {b : Bool} (h : f.q = F32.zero b) (sn : F32) :
    (fltAlpha f sn).isFinite = false := by
  rw [fltAlpha, h, F32.two_mul_zero]
  exact F32.isFinite_div_zero sn b

/-- An `alpha` that is not finite passes, through `a2`, into the sum of the recurrence and, through `a0`, into its
divisor; their quotient is NaN, whatever the cosine is. -/
theorem biquad_of_not_isFinite_alpha {alpha : F32} (h : alpha.isFinite = false) (c x buf0 buf1 : F32) :
    biquad (coeffsOf alpha c) x buf0 buf1 = .nan :=
  have hsum := F32.isFinite_mul_of_left (F32.isFinite_sub_of_right F32.one h) buf1
  F32.div_of_not_isFinite (F32.isFinite_sub_of_right _ hsum) (F32.isFinite_add_of_right F32.one h)

/-- R205: the output is NaN with resonance zero or a NaN in a tap. -/
theorem fltProcess_snd_of_poison (C : Config) {f : Flt} (x : F32)
    (h : f.q = F32.zero false ∨ f.q = F32.zero true ∨ f.buf0 = .nan ∨ f.buf1 = .nan) :
    (fltProcess C f x).2 = .nan := by
  rw [fltProcess_snd]
  have of_zero {b : Bool} (hq : f.q = F32.zero b) : biquad (fltCoeffs C f) x f.buf0 f.buf1 = .nan := by
    rw [fltCoeffs_eq]
    exact biquad_of_not_isFinite_alpha (isFinite_fltAlpha_of_zero hq _) _ _ _ _
  rcases h with hq | hq | htap
  · exact of_zero hq
  · exact of_zero hq
  · exact biquad_nan_tap _ _ _ _ htap

/-! ## A poisoned voice -/

theorem fltProcess_snd_of_nan_buf0 (C : Config) {f : Flt} (x : F32) (h : f.buf0 = .nan) : (fltProcess C f x).2 = .nan :=
  fltProcess_snd_of_poison C x (.inr (.inr (.inl h)))

/-- A sample keeps the poison: a released voice under P_SHORT_CIRCUIT is left as it is, any other runs its filter. -/
theorem voiceNext_buf0_nan (C : Config) {v : Voice} (h : v.flt.buf0 = .nan) : (voiceNext C v).1.flt.buf0 = .nan := by
  cases hr : C.shortCircuit && released v with
  | true => rwa [voiceNext_released hr]
  | false =>
    rw [voiceNext_chain hr]
    exact (fltProcess_buf0 C v.flt _).trans (fltProcess_snd_of_nan_buf0 C _ h)

theorem voiceNext_snd_nan {C : Config} {v : Voice} (hC : C.shortCircuit = false) (h : v.flt.buf0 = .nan) :
    (voiceNext C v).2 = .nan := by
  rw [voiceNext_chain (by rw [hC, Bool.false_and]), fltProcess_snd_of_nan_buf0 C _ h, F32.nan_mul]

theorem voiceNoteOn_buf0 (C : Config) (v : Voice) (n : Fin nSlot) (vel : F32) :
    (voiceNoteOn C v n vel).flt.buf0 = v.flt.buf0 := rfl
theorem voiceNoteOff_buf0 (v : Voice) : (voiceNoteOff v).flt.buf0 = v.flt.buf0 := rfl

/-- A setter writes cutoff and resonance of a filter, never its taps. -/
theorem voiceEdit_buf0 (sr : F32) (i : Instr) (v : Voice) : (voiceEdit sr i v).flt.buf0 = v.flt.buf0 := by
  cases i <;> rfl

/-- Every command leaves the poison in the slot; NOTE_ON too, since it re-triggers an allocated voice without touching
its filter (46_voice.md R222). -/
theorem slotAfter_poisoned (p : Params) (P : VoiceParams) (n : Fin nSlot) {v : Voice} (h : v.flt.buf0 = .nan)
    (i : Instr) : ∃ w, slotAfter p P n (some v) i = some w ∧ w.flt.buf0 = .nan := by
  cases i with
  | noteOn note vel =>
    rw [slotAfter]
    split
    · exact ⟨_, rfl, (voiceNoteOn_buf0 (configOf p) v n vel).trans h⟩
    · exact ⟨v, rfl, h⟩
  | noteOff note =>
    rw [slotAfter]
    split
    · exact ⟨_, rfl, (voiceNoteOff_buf0 v).trans h⟩
    · exact ⟨v, rfl, h⟩
  | sample => exact ⟨_, rfl, voiceNext_buf0_nan _ h⟩
  | _ => exact ⟨_, rfl, (voiceEdit_buf0 p.sr _ v).trans h⟩

theorem exec_poisoned {i : Instr} {s t : State} {n : Fin nSlot} (hs : s.Poisoned n) (h : exec i s = .next t) :
    t.Poisoned n := by
  obtain ⟨v, hv, hnan⟩ := hs
  rw [State.Poisoned, exec_slot h n, hv]
  exact slotAfter_poisoned s.params s.tmpl n hnan i

/-! ## The mix -/

theorem voiceOutput_of_some {s : State} {n : Fin nSlot} {v : Voice} (h : s.slots[n] = some v) :
    voiceOutput s n = (voiceNext s.config v).2 := by
  unfold voiceOutput
  rw [h]

/-- A sum with a NaN term is NaN, wherever the term stands in the order. -/
theorem voiceSum_nan {s : State} {order : List (Fin nSlot)} {n : Fin nSlot} (hn : n ∈ order)
    (h : voiceOutput s n = .nan) : voiceSum s order = .nan := by
  obtain ⟨before, after, rfl⟩ := List.append_of_mem hn
  rw [voiceSum, List.foldl_append, List.foldl_cons, h, F32.add_nan]
  exact List.foldl_fixed' (fun m => F32.nan_add (voiceOutput s m)) after

theorem mixedSample_nan {s : State} {order : List (Fin nSlot)} (h : voiceSum s order = .nan) :
    mixedSample s order = .nan := by
  simp only [mixedSample, h, F32.nan_div, ite_self, F32.nan_mul]

/-- Without P_SHORT_CIRCUIT a poisoned voice makes the sample of the mixer NaN, in every order of the voices. -/
theorem mixedSample_mixOrder_nan {s : State} {n : Fin nSlot} (hp : s.params.shortCircuit = false) (hs : s.Poisoned n) :
    mixedSample s (mixOrder s) = .nan := by
  obtain ⟨v, hv, hnan⟩ := hs
  have hmem : n ∈ mixOrder s := (mixOrder_perm s).mem_iff.2 ((mem_allocated s n).2 (by rw [hv]; rfl))
  exact mixedSample_nan (voiceSum_nan hmem ((voiceOutput_of_some hv).trans (voiceNext_snd_nan hp hnan)))

/-! ## The obligations -/

/-- Settles O59: no command takes the poison out of a slot, and SAMPLE answers with the bits of the NaN it mixes. -/
theorem poisonedFilterIsPermanent : Obligations.PoisonedFilterIsPermanent := by
  intro s t n hs
  refine ⟨fun h => ?_, fun hp h => ?_⟩
  · rcases step_cases h with ⟨-, rfl⟩ | ⟨tr, rest, i, -, -, he⟩
    · exact hs
    · exact exec_poisoned (s := { s with pending := rest }) hs he
  · cases h
    rw [sampleWith_responses, mixedSample_mixOrder_nan hp hs]
    exact ⟨_, rfl, F32.ofBits_toBits _ _, F32.quiet_toBits_nan _⟩

/-- Settles O53: the equation of FLT_PROCESS with its coefficients written out, and R205 for its output. -/
theorem zeroResonanceOrNaNTapGivesNaN : Obligations.ZeroResonanceOrNaNTapGivesNaN := by
  intro C f x
  refine ⟨?_, fun h => ?_⟩
  · rw [fltProcess_eq, fltCoeffs_eq, F32.ofInt_two, F32.ofInt_neg_two]
    rfl
  · have hy := fltProcess_snd_of_poison C x h
    rw [fltProcess_snd] at hy
    rw [fltProcess_eq, hy]

end Sys2Proof.Machine
end

section
/-! The voice (46_voice.md R221, R223, R225): the frequencies at whole octaves from A4, why a note command makes the
block play, and VOICE_NEXT with its chain written out. -/

namespace Sys2Proof.F32

/-- Rounding sees the fraction `p / q`, not its terms. -/
theorem round_mul_mul_right (neg : Bool) (p q : Nat) {c : Nat} (hc : 0 < c) :
    round neg (p * c) (q * c) = round neg p q := by
  have hd (k : Nat) : q * c * 2 ^ k = q * 2 ^ k * c := Nat.mul_right_comm q c (2 ^ k)
  have htwice (r : Nat) : 2 * (r * c) = 2 * r * c := (Nat.mul_assoc 2 r c).symm
  simp only [round, Nat.mul_div_mul_right _ _ hc, hd, Nat.mul_mod_mul_right, htwice, Nat.mul_lt_mul_right hc,
    Nat.mul_left_inj hc.ne']

/-- The quotient of a small multiple of `c` by `c` is exact. -/
theorem ofInt_mul_div_ofInt {c k : Int} (hc : 0 < c) (hsmall : c.natAbs < 2 ^ 24) (h : (c * k).natAbs < 2 ^ 24) :
    (ofInt (c * k)).div (ofInt c) = ofInt k := by
  obtain ⟨ex, fx, hx, hux⟩ := ofInt_fin h
  obtain ⟨ec, fc, hy, huc⟩ := ofInt_fin hsmall
  have hpos : 0 < c.natAbs * 2 ^ 149 := Nat.mul_pos (by omega) (by positivity)
  have hsign : (decide (c * k < 0) ^^ decide (c < 0)) = decide (k < 0) := by
    rw [decide_eq_false hc.not_gt, Bool.xor_false, decide_eq_decide]
    exact lt_iff_lt_of_le_iff_le (mul_nonneg_iff_of_pos_left hc)
  have hnum : (c * k).natAbs * 2 ^ 149 * 2 ^ 149 = k.natAbs * 2 ^ 149 * (c.natAbs * 2 ^ 149) := by
    rw [Int.natAbs_mul]
    ring
  have hround := round_mul_mul_right (decide (k < 0)) (k.natAbs * 2 ^ 149) 1 hpos
  rw [Nat.one_mul] at hround
  rw [hx, hy, div, hux, huc, if_neg hpos.ne', hsign, hnum, hround, ofInt]

end Sys2Proof.F32

namespace Sys2Proof.Machine

/-! ## NOTE_FREQ -/

theorem config_exp2_32 (s : State) : s.config.exp2_32 = exp2_32 := rfl

/-- At `k` whole octaves from A4 the argument of exp2_32 is `f32(k)`, where R8 fixes the power of two. -/
theorem noteFreq_octave (s : State) {n : Fin nSlot} {k : Int} (h : (n.val : Int) - 69 = 12 * k) :
    noteFreq s.config.exp2_32 n = F32.a4Freq.mul (F32.ofMag false ((k + 127).toNat * 2 ^ 23)) := by
  have hn : n.val < 128 := n.isLt
  rw [config_exp2_32, noteFreq, h, F32.ofInt_mul_div_ofInt (by decide) (by decide) (by omega),
    exp2_32_of_intValue (intValue?_ofInt (by omega)) (by omega) (by omega)]

/-! ## PLAYING -/

theorem playing_setSlot (s : State) (n : Fin nSlot) {v : Voice} (h : released v = false) :
    playing (setSlot s n v) = true := (playing_iff _).2 ⟨n, v, setSlot_self s n v, h⟩

/-- A voice just triggered is active. -/
theorem released_voiceNoteOn (C : Config) (v : Voice) (n : Fin nSlot) (vel : F32) :
    released (voiceNoteOn C v n vel) = false := rfl

/-- A voice after NOTE_OFF is in Release, not in Idle. -/
theorem released_voiceNoteOff (v : Voice) : released (voiceNoteOff v) = false := by
  obtain ⟨-, -, hstage, -, -⟩ := voiceNoteOff_spec v
  simp [released, hstage]

/-! ## The obligations -/

/-- Settles O29: each command leaves a voice that is not released in the slot of its note. -/
theorem noteCommandsMakeTheBlockPlay : Obligations.NoteCommandsMakeTheBlockPlay := by
  refine ⟨fun note s t halloc h => ?_, fun note vel s t h => ?_⟩
  · obtain ⟨v, hv⟩ := Option.isSome_iff_exists.1 halloc
    rw [execNoteOff_some hv] at h
    cases h
    exact playing_setSlot s _ (released_voiceNoteOff v)
  · rw [execNoteOn_eq] at h
    cases h
    exact playing_setSlot s _ (released_voiceNoteOn _ _ _ _)

/-- Settles O41: every configuration has the one exp2_32, and the product of 440 with the power of two is evaluated. -/
theorem octavesOfA4AreExact : Obligations.OctavesOfA4AreExact := fun s =>
  ⟨(noteFreq_octave s (k := 0) rfl).trans (by decide +kernel),
   (noteFreq_octave s (k := 1) rfl).trans (by decide +kernel),
   (noteFreq_octave s (k := 2) rfl).trans (by decide +kernel),
   (noteFreq_octave s (k := 3) rfl).trans (by decide +kernel),
   (noteFreq_octave s (k := 4) rfl).trans (by decide +kernel),
   (noteFreq_octave s (k := -1) rfl).trans (by decide +kernel),
   (noteFreq_octave s (k := -2) rfl).trans (by decide +kernel),
   (noteFreq_octave s (k := -3) rfl).trans (by decide +kernel),
   (noteFreq_octave s (k := -4) rfl).trans (by decide +kernel),
   (noteFreq_octave s (k := -5) rfl).trans (by decide +kernel)⟩

/-- Settles O54: the two cases of VOICE_NEXT, with BL_NEXT inside the chain, and ADD_NEXT. -/
theorem shortCircuitFreezesReleasedVoices : Obligations.ShortCircuitFreezesReleasedVoices := by
  refine ⟨fun C v => ⟨fun hshort hactive hidle => ?_, fun h => ?_, voiceNext_paramSet C v⟩, fun C a => ?_⟩
  · exact voiceNext_released (by rw [hshort, (released_iff v).2 ⟨hactive, hidle⟩]; rfl)
  · rw [← released_iff, ← Bool.and_eq_true, Bool.not_eq_true] at h
    exact voiceNext_chain h
  · refine ⟨addNext_harm C a, fun i => addNext_osc C a i i.isLt, ?_⟩
    rw [addNext_snd, List.foldl_map]

end Sys2Proof.Machine
end

section
/-! The commands as steps and outcomes (47_commands.md): a step runs its command, no command fails, and under CURRENT
every voice keeps the parameters of the template. -/

namespace Sys2Proof.Machine

/-! ## The template shared by all voices -/

theorem startParams_current {p : Params} (P : VoiceParams) (h : p.newVoiceInit = .current) : startParams p P = P := by
  rw [startParams, h]

theorem tmplAfter_current {p : Params} (P : VoiceParams) (i : Instr) (h : p.newVoiceInit = .current) :
    tmplAfter p P i = tmplEdit p.sr i P := by
  rw [tmplAfter, h]

/-- Under CURRENT a command changes the parameters of a voice as it changes the template: a setter writes both alike, a
new voice starts from the template, and nothing else writes a parameter. -/
theorem slotAfter_paramSet {p : Params} {P : VoiceParams} {n : Fin nSlot} {slot : Option Voice} (i : Instr)
    (hp : p.newVoiceInit = .current) (hslot : ∀ v ∈ slot, v.paramSet = P) :
    ∀ w ∈ slotAfter p P n slot i, w.paramSet = tmplAfter p P i := by
  rw [tmplAfter_current P i hp]
  have hmap (f : Voice → Voice) (hf : ∀ v, (f v).paramSet = tmplEdit p.sr i v.paramSet) :
      ∀ w ∈ slot.map f, w.paramSet = tmplEdit p.sr i P := by
    intro w hw
    obtain ⟨v, hv, rfl⟩ := Option.mem_map.1 hw
    rw [hf, hslot v hv]
  cases i with
  | noteOn note vel =>
    rw [slotAfter]
    split
    · rintro w ⟨⟩
      rw [voiceNoteOn_paramSet]
      cases slot with
      | some v => exact hslot v rfl
      | none => exact (newVoice_paramSet _).trans (startParams_current P hp)
    · exact hslot
  | noteOff note =>
    rw [slotAfter]
    split
    · exact hmap _ voiceNoteOff_paramSet
    · exact hslot
  | sample => exact hmap _ (voiceNext_paramSet _)
  | _ => exact hmap _ (voiceEdit_paramSet p.sr _)

theorem resetWith_templateShared (p : Params) : (State.resetWith p).TemplateShared := by
  intro _ n v hv
  rw [Fin.getElem_fin, resetWith_slots_getElem] at hv
  cases hv

theorem exec_templateShared {i : Instr} {s t : State} (hs : s.TemplateShared) (h : exec i s = .next t) :
    t.TemplateShared := by
  intro hp n w hw
  rw [exec_params h] at hp
  rw [exec_slot h n] at hw
  rw [exec_tmpl h]
  exact slotAfter_paramSet i hp (hs hp n) w hw

/-! ## The obligations -/

/-- Settles O58: no voice is allocated at reset, and every command keeps the shared template. -/
theorem currentVoicesShareTheTemplate : Obligations.CurrentVoicesShareTheTemplate := by
  refine ⟨resetWith_templateShared, fun s t hs h => ?_⟩
  rcases step_cases h with ⟨-, rfl⟩ | ⟨tr, rest, i, -, -, he⟩
  · exact hs
  · exact exec_templateShared (s := { s with pending := rest }) hs he

/-- Settles O11, by the equation of a step whose transfer decodes. -/
theorem stepRunsTheDecodedCommand : Obligations.StepRunsTheDecodedCommand := fun _ _ _ _ => step_of_decodeTransfer

/-- Settles O15: NOTE_OFF answers with its slot allocated or not, every other command by its one equation. -/
theorem noAcceptedCommandFails : Obligations.NoAcceptedCommandFails := exec_completes

end Sys2Proof.Machine
end

section
/-! The mix of a SAMPLE (47_commands.md R243): which orders can be drawn, and the response as a sum over one of them. -/

namespace Sys2Proof.Machine

/-! ## Orders -/

theorem insertAt_length {α : Type} (x : α) (a b : List α) : insertAt x a.length (a ++ b) = a ++ x :: b := by
  induction a with
  | nil => cases b <;> rfl
  | cons y ys ih => exact congrArg (y :: ·) ih

/-- The order of a list is chosen by the draws below its length only. -/
theorem permuteBy_congr {α : Type} {pick pick' : Nat → Nat} (l : List α) (h : ∀ k < l.length, pick k = pick' k) :
    permuteBy pick l = permuteBy pick' l := by
  induction l with
  | nil => rfl
  | cons x xs ih =>
    rw [permuteBy, permuteBy, h xs.length (Nat.lt_succ_self _), ih fun k hk => h k (Nat.lt_succ_of_lt hk)]

/-- Every permutation is drawn: the tail's order first, then the place where the head stands in the whole. -/
theorem exists_permuteBy_eq {α : Type} (l : List α) : ∀ {l' : List α}, l'.Perm l → ∃ pick, permuteBy pick l = l' := by
  induction l with
  | nil => exact fun h => ⟨id, h.eq_nil.symm⟩
  | cons x xs ih =>
    intro l' h
    obtain ⟨a, b, rfl⟩ := List.append_of_mem (h.mem_iff.2 List.mem_cons_self)
    obtain ⟨pick, hpick⟩ := ih (List.perm_cons x |>.1 (List.perm_middle.symm.trans h))
    refine ⟨Function.update pick xs.length a.length, ?_⟩
    rw [permuteBy, Function.update_self, permuteBy_congr xs fun k hk => Function.update_of_ne hk.ne _ _, hpick,
      insertAt_length]

/-! ## The sample of the mixer -/

theorem mem_mixOrder (s : State) (n : Fin nSlot) : n ∈ mixOrder s ↔ (s.slots[n]).isSome = true :=
  (mixOrder_perm s).mem_iff.trans (mem_allocated s n)

theorem voiceOutput_eq (s : State) (n : Fin nSlot) :
    voiceOutput s n = ((s.slots[n]).map fun v => (voiceNext s.config v).2).getD F32.posZero := by
  unfold voiceOutput
  cases s.slots[n] <;> rfl

/-- An active voice stands in an allocated slot. -/
theorem activeCount_eq (s : State) :
    activeCount s = ((allocated s).filter fun n => (s.slots[n]).any (·.active)).length := by
  have hactive (o : Option Voice) : (o.any (·.active) && o.isSome) = o.any (·.active) := by cases o <;> simp
  simp only [activeCount, allocated, List.filter_filter, hactive]

section
variable {s : State} {order : List (Fin nSlot)} (horder : order.Perm (allocated s))
include horder

/-! The divisor counts over any order of the allocated voices. -/

theorem mixDivisor_of_total (h : s.params.mixDivisor = .total) : mixDivisor s = order.length := by
  rw [mixDivisor, h]
  exact horder.length_eq.symm

theorem mixDivisor_of_active (h : s.params.mixDivisor = .active) :
    mixDivisor s = (order.filter fun n => (s.slots[n]).any (·.active)).length := by
  rw [mixDivisor, h]
  exact (activeCount_eq s).trans (horder.filter _).length_eq.symm

end

/-! ## The obligations -/

/-- Settles O27: every permutation is drawn, and what is drawn is a permutation. -/
theorem everyMixOrderCanBeDrawn : Obligations.EveryMixOrderCanBeDrawn := fun l _ =>
  ⟨exists_permuteBy_eq l, fun ⟨pick, h⟩ => h ▸ permuteBy_perm pick l⟩

/-- Settles O26 with the order and the NaN bits drawn; the order holds each allocated voice once. -/
theorem sampleMixesEveryVoiceOnce : Obligations.SampleMixesEveryVoiceOnce := by
  intro s
  have hperm := mixOrder_perm s
  refine ⟨_, mixOrder s, Config.nanDraw s.draws, execSample_eq s, hperm.nodup_iff.2 (allocated_nodup s),
    mem_mixOrder s, ?_, fun n => mapVoices_getElem _ _ n n.2, sampleWith_params _ _ s, sampleWith_volume _ _ s,
    sampleWith_tmpl _ _ s, sampleWith_pending _ _ s⟩
  rw [sampleWith_responses, mixedSample, voiceSum, funext (voiceOutput_eq s)]
  cases hd : s.params.mixDivisor with
  | total => rw [mixDivisor_of_total hperm hd]
  | active => rw [mixDivisor_of_active hperm hd]

end Sys2Proof.Machine
end

section
/-! Zero resonance (45_filter.md R202, R205): a value up to zero is clamped to a zero, and a filter with that quality is
poisoned by its next sample. -/

namespace Sys2Proof.F32

theorem units_eq_zero {e : Fin 255} {f : BitVec 23} (h : units e f = 0) : e = 0 ∧ f = 0 := by
  unfold units at h
  split at h
  · exact ⟨Fin.ext ‹_›, BitVec.eq_of_toNat_eq h⟩
  · simp at h

/-- The two zeros are the only data at the origin. -/
theorem eq_zero_of_rank {x : F32} (h : x.rank = some 0) : ∃ b, x = zero b := by
  cases x with
  | nan => cases h
  | inf s => cases s <;> exact absurd h (by decide +kernel)
  | fin s e f =>
    have habs := congrArg abs (Option.some.inj h)
    rw [abs_signed, abs_zero, Int.natCast_eq_zero] at habs
    obtain ⟨rfl, rfl⟩ := units_eq_zero habs
    exact ⟨s, rfl⟩

end Sys2Proof.F32

namespace Sys2Proof.Machine

theorem clampUnit_of_nonpos {x : F32} (h : x.le F32.posZero = true) : ∃ b, clampUnit x = F32.zero b := by
  obtain ⟨a, z, ha, hz, haz⟩ := (F32.le_iff _ _).1 h
  obtain rfl : 0 = z := Option.some.inj (F32.rank_posZero.symm.trans hz)
  rw [clampUnit, clamp_eq]
  split
  · exact ⟨false, rfl⟩
  · rename_i hneg
    have ha0 : a = 0 := by
      by_contra hne
      exact hneg ((F32.lt_iff _ _).2 ⟨a, 0, ha, hz, lt_of_le_of_ne haz hne⟩)
    subst ha0
    obtain ⟨b, rfl⟩ := F32.eq_zero_of_rank ha
    exact ⟨b, if_neg (by cases b <;> decide +kernel)⟩

theorem voiceNext_buf0_of_zero_resonance {C : Config} {v : Voice} {b : Bool} (hC : C.shortCircuit = false)
    (hq : v.flt.q = F32.zero b) : (voiceNext C v).1.flt.buf0 = .nan := by
  rw [voiceNext_chain (by rw [hC, Bool.false_and])]
  refine (fltProcess_buf0 C v.flt _).trans (fltProcess_snd_of_poison C _ ?_)
  cases b with
  | false => exact .inl hq
  | true => exact .inr (.inl hq)

/-- Settles O60: SET_RESONANCE leaves a zero in every filter, and SAMPLE runs every filter. -/
theorem zeroResonancePoisonsEveryVoice : Obligations.ZeroResonancePoisonsEveryVoice := by
  intro x s t u n hshort hx hset hsample hn
  obtain ⟨v, hv⟩ := Option.isSome_iff_exists.1 hn
  obtain ⟨b, hb⟩ := clampUnit_of_nonpos hx
  have hslot := exec_slot hsample n
  rw [exec_slot hset n, hv, exec_params hset] at hslot
  exact ⟨_, hslot, voiceNext_buf0_of_zero_resonance (C := configOf s.params) hshort hb⟩

end Sys2Proof.Machine
end

section
/-! The note and query commands, field by field (47_commands.md R241, R242, R244). -/

namespace Sys2Proof.Machine

/-- Writing one slot leaves the other slots, the template and the rest of the block. -/
theorem setSlot_frame (s : State) (n : Fin nSlot) (v : Voice) :
    (∀ m : Fin nSlot, m ≠ n → (setSlot s n v).slots[m] = s.slots[m]) ∧ (setSlot s n v).tmpl = s.tmpl ∧
    SameOutsideVoices s (setSlot s n v) :=
  ⟨fun _ h => setSlot_other s v h, rfl, rfl, rfl, rfl, rfl, rfl⟩

/-! ## NOTE_ON -/

section
variable (C : Config) (v : Voice) (n : Fin nSlot) (vel : F32)

theorem voiceNoteOn_harm : (voiceNoteOn C v n vel).add.harm = v.add.harm := addSetBase_harm v.add _

theorem voiceNoteOn_addOsc (i : Fin nHarm) : (voiceNoteOn C v n vel).add.osc[i] =
    ⟨(v.add.osc[i]).phase, (noteFreq C.exp2_32 n).mul (v.add.harm[i]).mult, harmAmp v.add.harm[i]⟩ :=
  addSetBase_osc v.add _ i i.isLt

theorem voiceNoteOn_fmOsc (i : Fin nOp) : (voiceNoteOn C v n vel).fm.osc[i] =
    ⟨(v.fm.osc[i]).phase, (noteFreq C.exp2_32 n).mul (v.fm.op[i]).ratio, (v.fm.osc[i]).amp⟩ :=
  fmSetBase_osc v.fm _ i i.isLt

end

theorem newVoice_harm (P : VoiceParams) (i : Fin nHarm) :
    (newVoice P).add.harm[i] = ⟨F32.ofInt (i.val + 1), (P.harm[i]).amp, (P.harm[i]).en⟩ := by
  simp [newVoice, newAdditive]

theorem newVoice_addPhase (P : VoiceParams) (i : Fin nHarm) : ((newVoice P).add.osc[i]).phase = F32.posZero := by
  simp [newVoice, newAdditive]

theorem newVoice_fbuf (P : VoiceParams) (i : Fin nOp) : (newVoice P).fm.fbuf[i] = F32.posZero := by
  simp [newVoice, newFm]

theorem newVoice_fmOsc (P : VoiceParams) (i : Fin nOp) :
    (newVoice P).fm.osc[i] = ⟨F32.posZero, F32.posZero, F32.one⟩ := by
  simp [newVoice, newFm]

/-- A new voice starts from the template under CURRENT, else from the template of a block just reset
(70_reset_and_hazards.md R331). -/
theorem initialParams_eq_ite (s : State) :
    initialParams s = if s.params.newVoiceInit = .current then s.tmpl else (State.resetWith s.params).tmpl := by
  rw [initialParams_eq, startParams]
  cases s.params.newVoiceInit <;> rfl

/-! ## The obligations -/

/-- Settles O23: NOTE_ON writes the note's slot with its own voice, triggered. -/
theorem noteOnRetriggersAnAllocatedSlot : Obligations.NoteOnRetriggersAnAllocatedSlot := by
  intro note vel s v hv f
  refine ⟨_, _, execNoteOn_eq note vel s, setSlot_self s _ _, ?_⟩
  rw [voiceOrAlloc_some hv]
  exact ⟨rfl, rfl, rfl, rfl, rfl, voiceNoteOn_harm _ v _ vel, voiceNoteOn_addOsc _ v _ vel, rfl, rfl, rfl,
    voiceNoteOn_fmOsc _ v _ vel, setSlot_frame s _ _⟩

/-- Settles O24: NOTE_ON writes the note's slot with a new voice, triggered. -/
theorem noteOnAllocatesAFreshVoice : Obligations.NoteOnAllocatesAFreshVoice := by
  intro note vel s hnone f P
  refine ⟨_, _, execNoteOn_eq note vel s, setSlot_self s _ _, ?_⟩
  have hP : initialParams s = P := initialParams_eq_ite s
  rw [voiceOrAlloc_none hnone, hP]
  refine ⟨rfl, rfl, rfl, fun i => ?_, fun i => ?_, rfl, rfl, newVoice_fbuf P, fun i => ?_, rfl, rfl,
    setSlot_frame s _ _⟩
  · rw [voiceNoteOn_harm, newVoice_harm]
  · rw [voiceNoteOn_addOsc, newVoice_addPhase, newVoice_harm]
    rfl
  · rw [voiceNoteOn_fmOsc, newVoice_fmOsc]
    rfl

/-- Settles O25: the note's slot is written with its voice released, or nothing is. -/
theorem noteOffReleasesOrDoesNothing : Obligations.NoteOffReleasesOrDoesNothing := fun _ s =>
  ⟨fun v hv => ⟨_, execNoteOff_some hv, setSlot_self s _ (voiceNoteOff v), setSlot_frame s _ (voiceNoteOff v)⟩,
    execNoteOff_none⟩

/-- Settles O28: the response is PLAYING, which is true exactly when some voice is not released. -/
theorem queryPlayingReportsUnreleasedVoices : Obligations.QueryPlayingReportsUnreleasedVoices := by
  intro s
  refine ⟨_, rfl, ?_⟩
  simp only [← released_iff, Bool.not_eq_true, ← playing_iff]
  exact ⟨fun h => if_pos h, fun h => if_neg (ne_true_of_eq_false h)⟩

end Sys2Proof.Machine
end

section
/-! The setters as broadcasts (47_commands.md R245-R259): what each writes in a voice and in the template. -/

namespace Sys2Proof.Machine

/-- A setter whose changes are known as `f` in a voice and `g` in the template has the outcome of that broadcast. -/
theorem exec_broadcastOutcome {i : Instr} (s : State) {f : Voice → Voice} {g : VoiceParams → VoiceParams}
    (hb : broadcasts i = true) (hf : ∀ v, voiceEdit s.params.sr i v = f v)
    (hg : ∀ P, tmplEdit s.params.sr i P = g P) : ∃ t, exec i s = .next t ∧ BroadcastOutcome s t f g := by
  rw [← funext hf, ← funext hg]
  exact ⟨_, exec_broadcast s hb, fun n => mapVoices_getElem _ _ n n.2, broadcast_tmpl_current _ _ s,
    broadcast_tmpl_defaults _ _ s, rfl, rfl, rfl, rfl, rfl⟩

/-- With no voice and the template out of reach a broadcast has nothing to write. -/
theorem broadcast_of_no_voice (f : Voice → Voice) (g : VoiceParams → VoiceParams) {s : State}
    (hp : s.params.newVoiceInit = .defaults) (hs : ∀ n : Fin nSlot, s.slots[n] = none) : broadcast f g s = s := by
  have hslots : mapVoices f s.slots = s.slots :=
    (mapVoices_congr fun n v hv => absurd hv (by rw [hs n]; nofun)).trans (mapVoices_id s.slots)
  rw [broadcast, hslots, hp]

/-- A negated enable bit turns the derived amplitude of a harmonic on or off (41_additive.md R120, R123). -/
theorem harmAmp_not_en (h : Harm) : harmAmp { h with en := !h.en } = if h.en then F32.posZero else h.amp := by
  cases hen : h.en <;> simp [harmAmp]

/-! ## The obligations -/

/-- Settles O30: the value stored is `clampUnit`, the clamp to [0,1]. -/
theorem setVolumeClampsTheVolume : Obligations.SetVolumeClampsTheVolume := fun _ _ => rfl

/-- Settles O31: each of the four edits is its clamp, in the voice and in the template. -/
theorem clampedSettersBroadcast : Obligations.ClampedSettersBroadcast := fun x s =>
  ⟨exec_broadcastOutcome (i := .setBlend x) s rfl (fun _ => rfl) fun _ => rfl,
    exec_broadcastOutcome (i := .setCutoff x) s rfl (fun _ => rfl) fun _ => rfl,
    exec_broadcastOutcome (i := .setResonance x) s rfl (fun _ => rfl) fun _ => rfl,
    exec_broadcastOutcome (i := .setSustain x) s rfl (fun _ => rfl) fun _ => rfl⟩

/-- Settles O32: each of the three edits stores the value. -/
theorem timeSettersBroadcast : Obligations.TimeSettersBroadcast := fun x s =>
  ⟨exec_broadcastOutcome (i := .setAttack x) s rfl (fun _ => rfl) fun _ => rfl,
    exec_broadcastOutcome (i := .setDecay x) s rfl (fun _ => rfl) fun _ => rfl,
    exec_broadcastOutcome (i := .setRelease x) s rfl (fun _ => rfl) fun _ => rfl⟩

/-- Settles O33: an index in range selects one harmonic. -/
theorem harmonicCommandsWriteOneHarmonic : Obligations.HarmonicCommandsWriteOneHarmonic := by
  intro i h a s
  refine ⟨exec_broadcastOutcome s rfl (fun v => ?_) fun P => ?_, exec_broadcastOutcome s rfl (fun v => ?_) fun P => ?_⟩
  · rw [voiceEdit, addSetHarmAmp, addModifyHarm_of_lt _ _ h]
    rfl
  · rw [tmplEdit, tmplSetHarmAmp, modifyEntry_of_lt _ _ h]
  · rw [voiceEdit, addToggleHarm, addModifyHarm_of_lt _ _ h, harmAmp_not_en]
    rfl
  · rw [tmplEdit, tmplToggleHarm, modifyEntry_of_lt _ _ h]

/-- Settles O34: an index in range selects one operator, and for a new ratio its oscillator too. -/
theorem operatorCommandsWriteOneOperator : Obligations.OperatorCommandsWriteOneOperator := by
  intro i h x s
  refine ⟨exec_broadcastOutcome s rfl (fun v => ?_) fun P => ?_, exec_broadcastOutcome s rfl (fun v => ?_) fun P => ?_,
    exec_broadcastOutcome s rfl (fun v => ?_) fun P => ?_, exec_broadcastOutcome s rfl (fun v => ?_) fun P => ?_⟩
  · rw [voiceEdit, fmSetOpRatio, modifyEntry_of_lt _ _ h, modifyEntry_of_lt _ _ h]
    rfl
  · rw [tmplEdit, tmplSetOpRatio, modifyEntry_of_lt _ _ h]
  · rw [voiceEdit, fmSetOpAmp, modifyEntry_of_lt _ _ h]
  · rw [tmplEdit, tmplSetOpAmp, modifyEntry_of_lt _ _ h]
  · rw [voiceEdit, fmSetOpFeedback, modifyEntry_of_lt _ _ h]
  · rw [tmplEdit, tmplSetOpFeedback, modifyEntry_of_lt _ _ h]
  · rw [voiceEdit, fmToggleOp, modifyEntry_of_lt _ _ h]
  · rw [tmplEdit, tmplToggleOp, modifyEntry_of_lt _ _ h]

/-- Settles O38: without a voice NOTE_OFF does nothing, and a setter is a broadcast to no voice. -/
theorem broadcastToNoVoiceChangesNothing : Obligations.BroadcastToNoVoiceChangesNothing := by
  intro i s hp hs hnoteOn hsample hquery hvolume
  cases i with
  | noteOn note vel => exact absurd rfl (hnoteOn note vel)
  | noteOff note => exact execNoteOff_none (hs _)
  | sample => exact absurd rfl hsample
  | queryPlaying => exact absurd rfl hquery
  | setVolume x => exact absurd rfl (hvolume x)
  | _ => rw [exec_broadcast s rfl, broadcast_of_no_voice _ _ hp hs]

end Sys2Proof.Machine
end

section
/-! The refusals of 60_exceptions.md: the one reason of a word that does not decode (R304), and the block with nothing
to do (R314). -/

namespace Sys2Proof

/-- HostProtocol is a reason about the transfer: a whole word that fits a row is refused for its operand at most, and
one that fits no row as reserved (60_exceptions.md R302). -/
theorem decodeWord_ne_hostProtocol (port : Port) (w : Word64) : decodeWord port w ≠ .error .hostProtocol := by
  by_cases hfits : ∃ o : Opcode, o.Fits port w
  · obtain ⟨o, ho⟩ := hfits
    rw [decodeWord_of_fits ho]
    split <;> nofun
  · rw [decodeWord_of_not_fits (not_exists.1 hfits)]
    nofun

end Sys2Proof

namespace Sys2Proof.Machine

/-- Settles O6: a word is refused as reserved when it fits no row of the table, and for its operand when it fits one. -/
theorem refusalReasonIsTheFirstFailingLine : Obligations.RefusalReasonIsTheFirstFailingLine := fun port w =>
  ⟨decodeWord_eq_reservedEncoding_iff_reservedForm port w, decodeWord_eq_nonFiniteOperand_iff_nonFiniteVal port w,
    decodeWord_ne_hostProtocol port w⟩

/-- Settles O13, by the equation of a step with nothing pending. -/
theorem idleBlockHoldsItsState : Obligations.IdleBlockHoldsItsState := fun _ => step_idle

end Sys2Proof.Machine
end

section
/-! The block after reset (70_reset_and_hazards.md R330-R334): its values, its answers without a voice, the
invariant, and what no command writes. -/

namespace Sys2Proof.F32

theorem not_lt_of_le {x y : F32} (h : x.le y = true) : y.lt x = false := by
  obtain ⟨a, b, hx, hy, hab⟩ := (le_iff x y).1 h
  rw [lt, hx, hy]
  exact decide_eq_false (not_lt.2 hab)

end Sys2Proof.F32

namespace Sys2Proof.Machine

/-! ## Values of a legal configuration -/

/-- A value in the range is stored as given (00_scope.md R10). -/
theorem clamp_of_inRange {x lo hi : F32} (h : InRange lo hi x) : clamp x lo hi = x := by
  obtain ⟨hlo, hhi⟩ := h
  rw [clamp_eq, F32.not_lt_of_le hlo, F32.not_lt_of_le hhi]
  rfl

theorem legalParams_defaultVolume {p : Params} (h : legalParams p = true) : InUnit p.defaultVolume := by
  simp only [legalParams, within, Bool.and_eq_true] at h
  obtain ⟨⟨-, hvolume⟩, -⟩ := h
  exact hvolume

theorem legalParams_defaultResonance {p : Params} (h : legalParams p = true) : InUnit p.defaultResonance := by
  simp only [legalParams, Bool.and_eq_true] at h
  obtain ⟨⟨⟨-, hpos, hone⟩, -⟩, -⟩ := h
  exact ⟨F32.le_of_lt hpos, hone⟩

theorem defaultOperators_zero : defaultOperators[0] = ⟨F32.one, F32.one, F32.posZero, true⟩ := by
  rw [defaultOperators, Vector.getElem_ofFn, if_pos rfl]

theorem defaultOperators_of_ne_zero {i : Fin nOp} (h : i.val ≠ 0) :
    defaultOperators[i] = ⟨F32.posZero, F32.posZero, F32.posZero, false⟩ := by
  rw [defaultOperators, Fin.getElem_fin, Vector.getElem_ofFn, if_neg h]

/-! ## A block without a voice -/

theorem resetWith_no_voice (p : Params) (n : Fin nSlot) : (State.resetWith p).slots[n] = none :=
  resetWith_slots_getElem p n n.isLt

section
variable {s : State} (hs : ∀ n : Fin nSlot, s.slots[n] = none)
include hs

theorem allocated_of_no_voice : allocated s = [] := by
  refine List.eq_nil_iff_forall_not_mem.2 fun n => ?_
  rw [mem_allocated, hs n]
  nofun

theorem count_of_no_voice : count s = 0 := congrArg List.length (allocated_of_no_voice hs)

theorem playing_of_no_voice : playing s = false := by
  rw [Bool.eq_false_iff, ne_eq, playing_iff]
  rintro ⟨n, v, hv, -⟩
  exact nomatch (hs n).symm.trans hv

/-- Nothing is mixed and nothing divides (47_commands.md R243): the sample is +0.0 times the volume. -/
theorem mixedSample_of_no_voice : mixedSample s (mixOrder s) = F32.posZero.mul s.volume := by
  have hallocated := allocated_of_no_voice hs
  have horder : mixOrder s = [] := by rw [mixOrder, hallocated, permuteBy]
  have hdivisor : mixDivisor s = 0 := by
    cases hd : s.params.mixDivisor with
    | total => rw [mixDivisor_of_total (mixOrder_perm s) hd, horder, List.length_nil]
    | active => rw [mixDivisor_of_active (mixOrder_perm s) hd, horder, List.filter_nil, List.length_nil]
  rw [mixedSample, hdivisor, if_pos rfl, horder]
  rfl

end

/-! ## What is still pending -/

/-- A command commutes with any change of the pending transfers, so also with putting its own back. -/
theorem exec_pending {i : Instr} {s t : State} (h : exec i s = .next t) : t.pending = s.pending := by
  have hsame : t = { t with pending := s.pending } :=
    Host.Outcome.next.inj (h.symm.trans (exec_withPending h s.pending))
  rw [hsame]

/-! ## The obligations -/

/-- Settles O16, by the two frames of a command. -/
theorem noCommandWritesTheConfiguration : Obligations.NoCommandWritesTheConfiguration := fun _ _ _ h =>
  ⟨exec_params h, exec_pending h⟩

/-- Settles O21: the fields of reset are the defaults, and a legal default resonance is in the range it is clamped to. -/
theorem resetIsAnEmptyPool : Obligations.ResetIsAnEmptyPool := fun p =>
  ⟨rfl, resetWith_no_voice p, count_of_no_voice (resetWith_no_voice p), rfl, rfl, rfl, defaultOperators_zero,
    fun _ => defaultOperators_of_ne_zero, rfl, rfl, rfl, rfl, rfl,
    fun h => clamp_of_inRange (legalParams_defaultResonance h)⟩

/-- Settles O22: each word is a command's own, run next on the block just reset, which has no voice. -/
theorem emptyBlockAnswersZero : Obligations.EmptyBlockAnswersZero := by
  have hempty : ∀ n : Fin nSlot, State.reset.slots[n] = none := resetWith_no_voice defaultParams
  constructor
  · refine ⟨_, (storedWordRunsNext State.reset .sample rfl).trans (execSample_eq _), ?_⟩
    have hzero : F32.posZero.mul State.reset.volume = F32.ofBits 0x00000000#32 := by decide +kernel
    rw [sampleWith_responses, mixedSample_of_no_voice hempty, hzero, F32.toBits_ofBits _ (by decide)]
    rfl
  · refine ⟨_, storedWordRunsNext State.reset .queryPlaying rfl, ?_⟩
    rw [respond_responses, playing_of_no_voice hempty]
    rfl

/-- Settles O56: a legal default volume is clamped into [0,1], the default parameter set is legal, and there is no
voice. -/
theorem invariantHoldsAtReset : Obligations.InvariantHoldsAtReset := fun p hp =>
  ⟨hp, clampUnit_inUnit (F32.ne_nan_of_le_left (legalParams_defaultVolume hp).2),
    (voiceParams_legal_iff _ _).2 (defaultVoiceParams_legal hp),
    fun n _ hv => nomatch (resetWith_no_voice p n).symm.trans hv⟩

end Sys2Proof.Machine
end
